-- ==== Sys2Proof/Word.lean ====
section
/-! DEFINITION. The word types of the Huffman core and its bit strings (spec/00_scope.md R8, R10, R11). -/

namespace Sys2Proof

/-- A symbol, a packed byte, an output byte: 8 bits (R8, SYM_W). -/
abbrev Byte := BitVec 8

/-- A register-port word and a command word: 32 bits (R8, REG_W; R110). -/
abbrev Word := BitVec 32

/-- A bit string, first bit leftmost (R11). -/
abbrev Bits := List Bool

/-- A register-port word index, 6 bits (R8, REG_IDX_W). -/
abbrev RegIdx := BitVec 6

/-- Every byte indexes a table of NSYM = 256 entries (R8). -/
theorem byte_lt_nsym (b : Byte) : b.toNat < 256 := b.isLt

end Sys2Proof
end

