-- ==== Sys2Proof/Config.lean ====
section
/-! DEFINITION. What an implementation fixes: the parameters of spec/00_scope.md R8 and R9, the platform's base address,
and the free draw of the tie policy `ANY` (spec/42_tree.md R161). -/

namespace Sys2Proof

/-- How `SelectMin` breaks ties (R161, D8). -/
inductive TiePolicy where
  /-- The least `(NFREQ, index)` pair, in lexicographic order (the default). -/
  | deterministic
  /-- Any node of least frequency, drawn freely at each call. -/
  | any
deriving DecidableEq, Repr

/-- The two arguments a model takes (R9). They are held in State, where no step changes them (log entry 1). -/
structure Params where
  /-- OUT_DEPTH, the depth of the output FIFO in bytes (R8). -/
  outDepth : Nat
  /-- TIE_POLICY (R8). -/
  tiePolicy : TiePolicy
deriving DecidableEq, Repr

/-- R9: "A value of OUT_DEPTH below 32 is not a valid configuration". -/
def Params.valid (p : Params) : Bool := decide (32 ≤ p.outDepth)

/-- The default parameters of R8: OUT_DEPTH 64, TIE_POLICY DETERMINISTIC. -/
def Params.default : Params := ⟨64, .deterministic⟩

/-- NODE_CAP, the capacity of the tree arena (R8, R43). -/
abbrev Config.nodeCap : Nat := 511

/-- An arena index, 0..510 (R8; R42's 9-bit index never names a 512th entry). -/
abbrev NodeIdx := Fin 511

/-- The largest bit count of a block, 2^64 − 1 (R8, BITCNT_W; R200). -/
abbrev Config.bitCountMax : Nat := 2 ^ 64 - 1

/-- The constant ID register (R36). -/
abbrev Config.idWord : Word := 0x48554646#32

/-- FREE VALUE (log entry 2): the draws of `SelectMin` under `TIE_POLICY = ANY` (R161: "a draw the model quantifies over").
The n-th draw of a run is `tieDraw n`; it has no body, so nothing can be proved about which node it picks. -/
opaque Config.tieDraw : Nat → Nat

/-- FREE VALUE (log entry 16): what OUT_LEVEL reads when the FIFO holds that many bytes and 32 bits do not hold the number. R8 gives
OUT_DEPTH no upper bound and R35 gives the register 32 bits; the spec states no value there. -/
opaque Config.levelPastWord : Nat → Word

/-- HUF_BASE, the byte address of register index 0 in the host's address map (R92, D2: a parameter of the platform). -/
opaque Config.hufBase : Nat

end Sys2Proof
end

