-- ==== Sys2Proof/Syntax.lean ====
section
/-! DEFINITION. The thirteen commands of spec/30_encoding.md R114, with the operands of their formats (R111, R113). -/

namespace Sys2Proof

/-- A decoded command word: one constructor per row of spec/opcode_table.json. Operands are the raw fields of R111: a value
that the command's rule turns away (a PUTB length of 0, say) is a command all the same, and its meaning raises the error. -/
inductive Instr where
  /-- NOP, format N, OPC 0x00 (R140). -/
  | nop
  /-- CLEAR, format N, OPC 0x01 (R141). -/
  | clear
  /-- COUNT sym, format S, OPC 0x02 (R150). -/
  | count (sym : Byte)
  /-- BUILD, format N, OPC 0x03 (R160). -/
  | build
  /-- TCLR, format N, OPC 0x04 (R165). -/
  | tclr
  /-- LOADC sym, len, format L, OPC 0x05 (R170). -/
  | loadc (sym : Byte) (len : BitVec 8)
  /-- ENC sym, format S, OPC 0x06 (R190). -/
  | enc (sym : Byte)
  /-- PUTB len, val, format P, OPC 0x07 (R205). -/
  | putb (len : BitVec 5) (val : BitVec 16)
  /-- FLUSH, format N, OPC 0x08 (R207). -/
  | flush
  /-- USTART, format N, OPC 0x09 (R220). -/
  | ustart
  /-- DECB byte, format S, OPC 0x0A (R246). -/
  | decb (byte : Byte)
  /-- URAW byte, format S, OPC 0x0B (R222). -/
  | uraw (byte : Byte)
  /-- DEND, format N, OPC 0x0C (R248). -/
  | dend
deriving DecidableEq, Repr

end Sys2Proof
end

