-- ==== Sys2Proof/WellFormed.lean ====
section
/-! DEFINITION. Which commands carry legal operand values (spec/30_encoding.md R113, R117). -/

namespace Sys2Proof

/-- R113: PUTB's LEN is legal when it is 1..16, LOADC's when it is 1..255; every other operand value is legal. A command that
is not well formed still decodes and runs: its meaning raises the error its rule names (R205, R170). -/
def Instr.wellFormed : Instr → Bool
  | .nop => true
  | .clear => true
  | .count _ => true
  | .build => true
  | .tclr => true
  | .loadc _ len => decide (1 ≤ len.toNat)
  | .enc _ => true
  | .putb len _ => decide (1 ≤ len.toNat) && decide (len.toNat ≤ 16)
  | .flush => true
  | .ustart => true
  | .decb _ => true
  | .uraw _ => true
  | .dend => true

end Sys2Proof
end

