-- ==== Sys2Proof/Decode.lean ====
section
/-! DEFINITION. Decoding a command word (spec/30_encoding.md R110 to R115), its inverse, and the assembler (R117). -/

namespace Sys2Proof

/-- The four operand formats (R111). -/
inductive Format where
  /-- No operand. -/
  | n
  /-- One byte in [7:0]. -/
  | s
  /-- Raw bits: LEN in [20:16], VAL in [15:0]. -/
  | p
  /-- Code load: LEN in [15:8], SYM in [7:0]. -/
  | l
deriving DecidableEq, Repr

/-- Why a word is no command (R112, R115). -/
inductive DecodeError where
  /-- The opcode is 0x0D..0xFF. -/
  | unknownOpcode (opc : Byte)
  /-- A reserved bit of the opcode's format is not zero. -/
  | reservedBits (w : Word)
deriving DecidableEq, Repr

/-- The operand bits a format reserves (R112, `resmask`). -/
def Format.reservedMask : Format → Word
  | .n => 0x00FFFFFF#32
  | .s => 0x00FFFF00#32
  | .p => 0x00E00000#32
  | .l => 0x00FF0000#32

/-- The field `w[31:24]`, OPC (R110). -/
def opcodeField (w : Word) : Byte := w.extractLsb' 24 8

/-- The field `w[7:0]`, SYM or BYTE (R111). -/
def byteField (w : Word) : Byte := w.extractLsb' 0 8

/-- The field `w[15:8]`, LEN of format L (R111). -/
def loadLenField (w : Word) : BitVec 8 := w.extractLsb' 8 8

/-- The field `w[20:16]`, LEN of format P (R111). -/
def bitsLenField (w : Word) : BitVec 5 := w.extractLsb' 16 5

/-- The field `w[15:0]`, VAL of format P (R111). -/
def bitsValField (w : Word) : BitVec 16 := w.extractLsb' 0 16

/-- The opcode map (R114): an opcode's format, and the command a word of it stands for. -/
def opcodeRow (opc : Nat) : Option (Format × (Word → Instr)) :=
  match opc with
  | 0x00 => some (.n, fun _ => .nop)
  | 0x01 => some (.n, fun _ => .clear)
  | 0x02 => some (.s, fun w => .count (byteField w))
  | 0x03 => some (.n, fun _ => .build)
  | 0x04 => some (.n, fun _ => .tclr)
  | 0x05 => some (.l, fun w => .loadc (byteField w) (loadLenField w))
  | 0x06 => some (.s, fun w => .enc (byteField w))
  | 0x07 => some (.p, fun w => .putb (bitsLenField w) (bitsValField w))
  | 0x08 => some (.n, fun _ => .flush)
  | 0x09 => some (.n, fun _ => .ustart)
  | 0x0A => some (.s, fun w => .decb (byteField w))
  | 0x0B => some (.s, fun w => .uraw (byteField w))
  | 0x0C => some (.n, fun _ => .dend)
  | _ => none

/-- Decoding a command word (R112): the opcode first, then the reserved bits, then the operand fields. -/
def decode (w : Word) : Except DecodeError Instr :=
  match opcodeRow (opcodeField w).toNat with
  | none => .error (.unknownOpcode (opcodeField w))
  | some (fmt, make) => if w &&& fmt.reservedMask = 0#32 then .ok (make w) else .error (.reservedBits w)

/-- The word of a format N command: `{OPC, 24'b0}` (R117). -/
def wordN (opc : Byte) : Word := opc.setWidth 32 <<< 24

/-- The word of a format S command: `{OPC, 16'b0, sym}` (R117). -/
def wordS (opc sym : Byte) : Word := opc.setWidth 32 <<< 24 ||| sym.setWidth 32

/-- The word of a format P command: `{OPC, 3'b0, len[4:0], val[15:0]}` (R117). -/
def wordP (opc : Byte) (len : BitVec 5) (val : BitVec 16) : Word :=
  opc.setWidth 32 <<< 24 ||| len.setWidth 32 <<< 16 ||| val.setWidth 32

/-- The word of a format L command: `{OPC, 8'b0, len[7:0], sym[7:0]}` (R117). -/
def wordL (opc : Byte) (len sym : BitVec 8) : Word :=
  opc.setWidth 32 <<< 24 ||| len.setWidth 32 <<< 8 ||| sym.setWidth 32

/-- The word of a command (R111, R114, R117). -/
def encode : Instr → Word
  | .nop => wordN 0x00#8
  | .clear => wordN 0x01#8
  | .count sym => wordS 0x02#8 sym
  | .build => wordN 0x03#8
  | .tclr => wordN 0x04#8
  | .loadc sym len => wordL 0x05#8 len sym
  | .enc sym => wordS 0x06#8 sym
  | .putb len val => wordP 0x07#8 len val
  | .flush => wordN 0x08#8
  | .ustart => wordN 0x09#8
  | .decb byte => wordS 0x0A#8 byte
  | .uraw byte => wordS 0x0B#8 byte
  | .dend => wordN 0x0C#8

/-- A byte operand of the assembler: a number above 255 does not fit (R117). -/
def asmByte (n : Nat) : Option Byte := if n ≤ 255 then some (BitVec.ofNat 8 n) else none

/-- The assembler of R117: a mnemonic and its operands, as numbers, give a command, or nothing where an operand does not
fit its field. -/
def assemble (mnemonic : String) (operands : List Nat) : Option Instr :=
  match mnemonic, operands with
  | "NOP", [] => some .nop
  | "CLEAR", [] => some .clear
  | "COUNT", [sym] => (asmByte sym).map .count
  | "BUILD", [] => some .build
  | "TCLR", [] => some .tclr
  | "LOADC", [sym, len] =>
    if 1 ≤ len ∧ len ≤ 255 then (asmByte sym).map (fun b => .loadc b (BitVec.ofNat 8 len)) else none
  | "ENC", [sym] => (asmByte sym).map .enc
  | "PUTB", [len, val] =>
    if 1 ≤ len ∧ len ≤ 16 ∧ val ≤ 0xFFFF then some (.putb (BitVec.ofNat 5 len) (BitVec.ofNat 16 val)) else none
  | "FLUSH", [] => some .flush
  | "USTART", [] => some .ustart
  | "DECB", [byte] => (asmByte byte).map .decb
  | "URAW", [byte] => (asmByte byte).map .uraw
  | "DEND", [] => some .dend
  | _, _ => none

/-- What the decoder reads from the word `w` of spec/opcode_table.json's numbering. Every command is one 32-bit word and is
stored whole (R81, R110), so there is no byte order to lay out; a number of more than 32 bits is no command word. -/
def decodeTableWord (nbits w : Nat) : Option Instr :=
  if nbits ≤ 32 ∧ w < 2 ^ 32 then
    match decode (BitVec.ofNat 32 w) with
    | .ok i => some i
    | .error _ => none
  else none

end Sys2Proof
end

