-- ==== Sys2Proof/Machine/State.lean ====
section
/-! DEFINITION. The state of the machine (spec/10_state.md): every element of R56's table, the parameters of R9, and the
host agent's side of a run (R31, R260, R277). -/

namespace Sys2Proof.Machine

/-- TSTATE (R46): 0, 1 and 2; the value 3 never occurs (R32). -/
inductive TState where
  /-- No tree exists. -/
  | empty
  /-- The tree was made by BUILD. -/
  | built
  /-- The tree was made by LOADC commands. -/
  | loaded
deriving DecidableEq, Repr

/-- An entry of the tree arena (R42). The constructor is KIND; SYM exists only in a leaf and the children only in an internal
node, as R42 says of their meaning; `none` is LV = 0 or RV = 0. -/
inductive Node where
  /-- KIND = 1: a leaf with its SYM and NFREQ. -/
  | leaf (sym : Byte) (nfreq : BitVec 40)
  /-- KIND = 0: an internal node with its NFREQ, LEFT (with LV) and RIGHT (with RV). -/
  | internal (nfreq : BitVec 40) (left right : Option NodeIdx)
deriving DecidableEq, Repr

/-- A statement of a host program (R118). `CMD c` and the macros of R119 are lists of these (Machine/HostProgram.lean). -/
inductive HostStmt where
  /-- `WR`: `MemWrite(idx, 4, v)`. -/
  | wr (idx : RegIdx) (v : Word)
  /-- `RD`: `MemRead(idx, 4)`. -/
  | rd (idx : RegIdx)
  /-- `POLL`: `RD STATUS` until BUSY reads 0. -/
  | poll
  /-- `DRAIN`: `RD OUT_DATA` until it returns VALID = 0. -/
  | drain
deriving DecidableEq, Repr

/-- Whose step comes next (R94, R260): the two agents, and the platform's reset input (R290). -/
inductive Turn where
  /-- One register-port access of the host (R261), or none if its program is over. -/
  | host
  /-- The core's step (R263), if it is enabled. -/
  | core
  /-- Reset is asserted (R290). -/
  | reset
deriving DecidableEq, Repr

/-- A read the host made and the value it returned (R118, R277). -/
structure ReadRecord where
  idx : RegIdx
  value : Word
deriving DecidableEq, Repr

/-- The machine: the core's state under the names of spec/10_state.md, then the host agent and the model's own fields. -/
structure State where
  /-- PEND_V: a command is latched (R53). -/
  pendV : Bool
  /-- PEND_W: the latched command word (R53). -/
  pendW : Word
  /-- ERR[11:0], the sticky error bits (R33); the register's other bits are reserved. -/
  err : BitVec 12
  /-- OUTQ, the output FIFO, head first (R40). -/
  outq : List Byte
  /-- FREQ[0..255] (R41). -/
  freq : Vector (BitVec 32) 256
  /-- NODE[0..510], the tree arena (R42). -/
  node : Vector Node Config.nodeCap
  /-- NODE_COUNT (R43). -/
  nodeCount : BitVec 10
  /-- ROOT_V (R45). -/
  rootV : Bool
  /-- ROOT (R45). -/
  root : NodeIdx
  /-- TSTATE (R46). -/
  tstate : TState
  /-- CLEN[0..255] (R47). -/
  clen : Vector (BitVec 8) 256
  /-- CODE[0..255] (R47): bit strings, first bit first. -/
  code : Vector Bits 256
  /-- NUM_CODES (R48). -/
  numCodes : BitVec 9
  /-- ACC, the packer's partly filled byte (R49). -/
  acc : Byte
  /-- PK_NBITS, the bits appended to the current block (R49). -/
  pkNbits : BitVec 64
  /-- PK_TOTAL, the bit count of the last closed block (R49). -/
  pkTotal : BitVec 64
  /-- UP_END, the bit count latched by USTART (R50). -/
  upEnd : BitVec 64
  /-- UP_POS, the bits delivered since USTART (R50). -/
  upPos : BitVec 64
  /-- UP_RAWB, the masked byte of the last URAW (R50). -/
  upRawB : Byte
  /-- UP_RAWN, its number of valid bits (R50). -/
  upRawN : BitVec 4
  /-- CUR, the decoder's cursor (R51). -/
  cur : NodeIdx
  /-- SEL.SYM, the readout selector (R37). -/
  sel : Byte
  /-- UP_LIMIT, the bit count the host sets for USTART (R38). -/
  upLimit : BitVec 64
  /-- LD_BITS0..7, the code bits the host sets for LOADC (R39). -/
  ldBits : Vector Word 8
  /-- OUT_DEPTH and TIE_POLICY, the model's arguments (R9); no step changes them. -/
  params : Params
  /-- MODEL'S OWN: how many draws of `TIE_POLICY = ANY` have been made (log entry 2). -/
  draws : Nat
  /-- HOST: the statements the host has still to perform (R31, R118). -/
  hostProg : List HostStmt
  /-- HOST: the values its reads returned, oldest first (R118, R277). -/
  trace : List ReadRecord
  /-- MODEL'S OWN: the turns to come; when it is empty the core moves if it is enabled, else the host (log entry 3). -/
  sched : List Turn
deriving DecidableEq, Repr

/-- The ways the model stops. The core itself "raises no exception, takes no trap and never stops" (R264), and no state that
a run reaches from reset stops. -/
inductive Fault where
  /-- Raised by DECB alone, when the root is internal and CUR names a leaf: R240 says "always an internal node" there and gives
  such a state no behaviour (R51; log entry 4). Safe: the model stops where the spec says nothing. -/
  | cursorOnLeaf
deriving DecidableEq, Repr

/-- The reasons for which the model gives an instruction no meaning. -/
inductive Refusal where
  /-- Raised by exec's arms alone, for a command without a meaning in this model (there is none). Safe. -/
  | notModelled (mnemonic : String)
deriving DecidableEq, Repr

/-- The entry R56 leaves unspecified: every field 0 (log entry 5). -/
def Node.zero : Node := .internal 0 none none

/-- The reset state for given parameters (R56), with no host program, no schedule and an empty trace. -/
def State.resetWith (p : Params) : State where
  pendV := false
  pendW := 0
  err := 0
  outq := []
  freq := Vector.replicate 256 0
  node := Vector.replicate Config.nodeCap Node.zero
  nodeCount := 0
  rootV := false
  root := 0
  tstate := .empty
  clen := Vector.replicate 256 0
  code := Vector.replicate 256 []
  numCodes := 0
  acc := 0
  pkNbits := 0
  pkTotal := 0
  upEnd := 0
  upPos := 0
  upRawB := 0
  upRawN := 0
  cur := 0
  sel := 0
  upLimit := 0
  ldBits := Vector.replicate 8 0
  params := p
  draws := 0
  hostProg := []
  trace := []
  sched := []

/-- The machine right after reset (R56), with the default parameters of R8. -/
def State.reset : State := State.resetWith Params.default

end Sys2Proof.Machine
end

