-- ==== Sys2Proof/Machine/Flags.lean ====
section
/-! DEFINITION. The core's only flags (spec/10_state.md R54): the sticky error bits of R33 and R264, and the fields of
STATUS (R32). -/

namespace Sys2Proof.Machine

/-- The twelve error causes (R33, R264). -/
inductive ErrBit where
  /-- Unknown opcode, nonzero reserved bits (R112), PUTB length 0 or above 16 (R205). -/
  | illegal
  /-- Host write to CMD while BUSY = 1 (R85). -/
  | overrun
  /-- COUNT of a symbol whose counter is already 2^32 − 1 (R150). -/
  | freqOvf
  /-- ENC of a symbol with no code (R190). -/
  | noCode
  /-- DECB delivering bits while no tree exists (R246). -/
  | noTree
  /-- The decoder walks to an absent child (R240). -/
  | badCode
  /-- URAW or DECB when the block is already complete (R222, R246). -/
  | excess
  /-- DEND while UP_POS < UP_END (R248). -/
  | short
  /-- DEND while the cursor is not at the root (R248). -/
  | trunc
  /-- An append that would take PK_NBITS above 2^64 − 1 (R200). -/
  | bitcntOvf
  /-- LOADC with length 0, a symbol that has a code, a prefix conflict or a full arena (R170). -/
  | load
  /-- COUNT or LOADC in a tree state that does not allow it (R150, R170). -/
  | seq
deriving DecidableEq, Repr

/-- The bit number, which is also the cause code (R33, R264). -/
def ErrBit.num : ErrBit → Nat
  | .illegal => 0
  | .overrun => 1
  | .freqOvf => 2
  | .noCode => 3
  | .noTree => 4
  | .badCode => 5
  | .excess => 6
  | .short => 7
  | .trunc => 8
  | .bitcntOvf => 9
  | .load => 10
  | .seq => 11

/-- The ERR value with only that bit set. -/
def ErrBit.mask (e : ErrBit) : BitVec 12 := BitVec.twoPow 12 e.num

/-- Whether the bit is set in an ERR value. -/
def ErrBit.isSet (e : ErrBit) (err : BitVec 12) : Bool := err.getLsbD e.num

/-- The value of STATUS.TREE_STATE (R32, R46). -/
def TState.bits : TState → BitVec 2
  | .empty => 0
  | .built => 1
  | .loaded => 2

/-- STATUS.AT_ROOT: "1 if ROOT_V = 0 or CUR = ROOT, else 0" (R32). -/
def State.atRoot (s : State) : Bool := !s.rootV || decide (s.cur = s.root)

/-- STATUS.ERR_ANY (R32). -/
def State.errAny (s : State) : Bool := decide (s.err ≠ 0)

/-- STATUS, computed from the other state at the time of the read (R32):
`{26'b0, ERR_ANY, AT_ROOT, TREE_STATE, ROOT_VALID, BUSY}`. -/
def State.status (s : State) : Word :=
  0#26 ++ BitVec.ofBool s.errAny ++ BitVec.ofBool s.atRoot ++ s.tstate.bits ++ BitVec.ofBool s.rootV
    ++ BitVec.ofBool s.pendV

end Sys2Proof.Machine
end

