-- ==== Sys2Proof/Machine/Operands.lean ====
section
/-! DEFINITION. The operands of the commands as bit strings, and the bit and word helpers they rest on (spec/30_encoding.md
R113, spec/45_unpacker.md R221, spec/10_state.md R39, spec/20_memory.md R87 to R89). -/

namespace Sys2Proof.Machine

/-- The bit string of PUTB: `VAL[LEN−1], VAL[LEN−2], .., VAL[0]` (R113). -/
def putbBits (len : Nat) (val : BitVec 16) : Bits :=
  (List.range len).map (fun j => val.getLsbD (len - 1 - j))

/-- The first `nv` bits of a packed byte, most significant first: `b[7], b[6], .., b[8−nv]` (R221). -/
def byteBits (nv : Nat) (b : Byte) : Bits :=
  (List.range nv).map (fun j => b.getLsbD (7 - j))

/-- The 32 bits of a word, bit 31 first (R39, R89). -/
def wordBits (w : Word) : Bits :=
  (List.range 32).map (fun n => w.getLsbD (31 - n))

/-- The load buffer as a bit string: bit `i` is register `LD_BITS(i div 32)` bit `31 − (i mod 32)` (R39). -/
def loadBuffer (ld : Vector Word 8) : Bits := ld.toList.flatMap wordBits

/-- The word whose bit `31 − n` is `f n`, for n = 0..31 (R87). -/
def wordOfBits (f : Nat → Bool) : Word :=
  (List.range 32).foldl (fun w n => (w <<< 1) ||| (BitVec.ofBool (f n)).setWidth 32) 0#32

/-- `CODE_BITSj` of a code of length `len`: bit `31 − n` is `c[32j + n]` below the length and 0 at or beyond it (R87). -/
def codeWord (c : Bits) (len j : Nat) : Word :=
  wordOfBits (fun n => decide (32 * j + n < len) && c.getD (32 * j + n) false)

/-- The 32-bit word `LD_BITSj` that holds bits 32j.. of a code, and 0 past its end (R119, LDCODE). -/
def loadWord (c : Bits) (j : Nat) : Word := codeWord c c.length j

/-- A byte with bit `pos` set to `b` and the others kept (R200, `R.ACC[pos] <- c[i]`). -/
def setBit (a : Byte) (pos : Nat) (b : Bool) : Byte :=
  if b then a ||| BitVec.twoPow 8 pos else a &&& ~~~(BitVec.twoPow 8 pos)

/-- The valid bits of a packed byte kept in place, its padding forced to 0: `BYTE & ((0xFF << (8 − nv)) & 0xFF)` (R222). -/
def maskByte (nv : Nat) (b : Byte) : Byte := b &&& (0xFF#8 <<< (8 - nv))

/-- The low half of a 64-bit value, its `_LO` register (R89). -/
def loHalf (v : BitVec 64) : Word := v.extractLsb' 0 32

/-- The high half of a 64-bit value, its `_HI` register (R89). -/
def hiHalf (v : BitVec 64) : Word := v.extractLsb' 32 32

end Sys2Proof.Machine
end

