-- ==== Sys2Proof/Machine/Ops.lean ====
section
/-! DEFINITION. The operations the commands share: reading and writing the tables, raising an error, pushing a byte, packing
and unpacking bits, clearing the tree, and walking it (spec/00_scope.md R12). -/

namespace Sys2Proof.Machine

/-! ### Tables -/

/-- `FREQ[s]` (R41). -/
def State.freqAt (s : State) (sym : Byte) : BitVec 32 := s.freq[sym.toNat]'(byte_lt_nsym sym)

/-- `FREQ[s] <- v`. -/
def State.setFreq (s : State) (sym : Byte) (v : BitVec 32) : State :=
  { s with freq := s.freq.set sym.toNat v (byte_lt_nsym sym) }

/-- `CLEN[s]` (R47). -/
def State.clenAt (s : State) (sym : Byte) : BitVec 8 := s.clen[sym.toNat]'(byte_lt_nsym sym)

/-- `CODE[s]` (R47). -/
def State.codeAt (s : State) (sym : Byte) : Bits := s.code[sym.toNat]'(byte_lt_nsym sym)

/-- `CODE[s] <- p ; CLEN[s] <- |p|` (R162, R163, R170). -/
def State.setCode (s : State) (sym : Byte) (p : Bits) : State :=
  { s with
    code := s.code.set sym.toNat p (byte_lt_nsym sym)
    clen := s.clen.set sym.toNat (BitVec.ofNat 8 p.length) (byte_lt_nsym sym) }

/-- The 256 symbols, ascending. -/
def allSyms : List Byte := (List.range 256).map (BitVec.ofNat 8)

/-! ### The tree arena -/

/-- The arena `NODE[0..510]` (R42). -/
abbrev Arena := Vector Node Config.nodeCap

/-- `NODE[i]`. -/
def Arena.at (a : Arena) (i : NodeIdx) : Node := a[i.val]'i.isLt

/-- `NODE[i] <- n`. -/
def Arena.put (a : Arena) (i : NodeIdx) (n : Node) : Arena := a.set i.val n i.isLt

/-- `NODE[i]` of the state. -/
def State.nodeAt (s : State) (i : NodeIdx) : Node := Arena.at s.node i

/-- KIND = 1 (R42). -/
def Node.isLeaf : Node → Bool
  | .leaf _ _ => true
  | .internal _ _ _ => false

/-- NFREQ (R42). -/
def Node.nfreq : Node → BitVec 40
  | .leaf _ f => f
  | .internal f _ _ => f

/-- `child(n, side)`: LEFT for a 0 bit and RIGHT for a 1 bit, if LV or RV is set (R170, R240). A leaf has no children. -/
def Node.child : Node → Bool → Option NodeIdx
  | .leaf _ _, _ => none
  | .internal _ l _, false => l
  | .internal _ _ r, true => r

/-- "set child": writes the index and sets LV or RV (R170). -/
def Node.setChild : Node → Bool → NodeIdx → Node
  | .leaf sym f, _, _ => .leaf sym f
  | .internal f _ r, false, i => .internal f (some i) r
  | .internal f l _, true, i => .internal f l (some i)

/-! ### Errors -/

/-- TAKING AN ERROR, `raise E`: the sticky bit is set and nothing else happens: no state is saved, no mode changes and no control
is transferred (R12, R264, R267). -/
def raise (e : ErrBit) (s : State) : State := { s with err := s.err ||| e.mask }

/-- RETURNING FROM AN ERROR: "ERR <- ERR & ~(v[11:0])", a host write of 1 to the bits to clear (R84, R268). -/
def clearErrors (v : Word) (s : State) : State := { s with err := s.err &&& ~~~(v.setWidth 12) }

/-! ### The output FIFO -/

/-- `OutPush(b)`: append at the tail (R12, R40). -/
def outPush (b : Byte) (s : State) : State := { s with outq := s.outq ++ [b] }

/-! ### The bit packer -/

/-- Whether `n` more bits keep PK_NBITS at or below 2^64 − 1 (R200). -/
def State.packFits (s : State) (n : Nat) : Bool := decide (s.pkNbits.toNat + n ≤ Config.bitCountMax)

/-- One turn of R200's loop: place the bit, count it, push the byte that it completes. -/
def packBit (b : Bool) (s : State) : State :=
  let s' := { s with acc := setBit s.acc (7 - s.pkNbits.toNat % 8) b, pkNbits := s.pkNbits + 1 }
  if s'.pkNbits.toNat % 8 = 0 then { outPush s'.acc s' with acc := 0 } else s'

/-- R200's loop over a bit string. -/
def packAll : Bits → State → State
  | [], s => s
  | b :: bs, s => packAll bs (packBit b s)

/-- `PackBits(c)`: all or nothing (R200). -/
def packBits (c : Bits) (s : State) : State :=
  if s.packFits c.length then packAll c s else raise .bitcntOvf s

/-! ### The bit unpacker -/

/-- `R.UP_END − R.UP_POS`, the bits the block still holds (R221). -/
def State.upLeft (s : State) : Nat := s.upEnd.toNat - s.upPos.toNat

/-- `nv`, the number of valid bits of the next packed byte (R221). -/
def State.upValid (s : State) : Nat := min 8 s.upLeft

/-- `R.UP_POS <- R.UP_POS + nv` (R221). -/
def unpackAdvance (s : State) : State := { s with upPos := s.upPos + BitVec.ofNat 64 s.upValid }

/-! ### Clearing the tree -/

/-- `TreeClear()` (R165). -/
def treeClear (s : State) : State :=
  { s with
    nodeCount := 0
    rootV := false
    root := 0
    tstate := .empty
    cur := 0
    clen := Vector.replicate 256 0
    code := Vector.replicate 256 []
    numCodes := 0 }

/-! ### The code-tree walker -/

/-- `DecodeBit(b)` (R240), with `DecodeLoneBit` (R241) when the root is a leaf. `none` only where the root is internal and the
cursor is on a leaf, a state the spec rules out (R51, log entry 4). -/
def decodeBit (b : Bool) (s : State) : Option State :=
  match s.nodeAt s.root with
  | .leaf sym _ => some (outPush sym s)
  | .internal _ _ _ =>
    match s.nodeAt s.cur with
    | .leaf _ _ => none
    | .internal f l r =>
      match (Node.internal f l r).child b with
      | none => some { raise .badCode s with cur := s.root }
      | some ch =>
        match s.nodeAt ch with
        | .leaf sym _ => some { outPush sym s with cur := s.root }
        | .internal _ _ _ => some { s with cur := ch }

/-- The bits of a byte in order (R246). -/
def decodeBits : Bits → State → Option State
  | [], s => some s
  | b :: bs, s =>
    match decodeBit b s with
    | none => none
    | some t => decodeBits bs t

/-- The number of `DecodeBit` calls that push a symbol (R247). -/
def decodePushes : Bits → State → Nat
  | [], _ => 0
  | b :: bs, s =>
    match decodeBit b s with
    | none => 0
    | some t => (if s.outq.length < t.outq.length then 1 else 0) + decodePushes bs t

end Sys2Proof.Machine
end

