-- ==== Sys2Proof/Machine/Control.lean ====
section
/-! DEFINITION. The control commands NOP and CLEAR (spec/40_control.md). -/

namespace Sys2Proof.Machine

/-- NOP (R140): no operation. -/
def execNop (s : State) : Host.Outcome State Fault Refusal := .next s

/-- CLEAR (R141): the data path returns to its reset values; SEL, UP_LIMIT and LD_BITS keep theirs, and the arena's entries,
of which none is in use any more, are not written. R141's pseudocode does not write PEND_W, but its corner cases, R291 and D28
give every core element its reset value; the model follows them (log entry 14). PEND_V returns to 0 by R263. -/
def execClear (s : State) : Host.Outcome State Fault Refusal :=
  .next { treeClear s with
    pendW := 0
    err := 0
    outq := []
    freq := Vector.replicate 256 0
    acc := 0
    pkNbits := 0
    pkTotal := 0
    upEnd := 0
    upPos := 0
    upRawB := 0
    upRawN := 0 }

end Sys2Proof.Machine
end

