-- ==== Sys2Proof/Machine/Decoder.lean ====
section
/-! DEFINITION. The code-tree walker's commands: DECB and DEND (spec/46_decoder.md). -/

namespace Sys2Proof.Machine

/-- DECB byte (R246): EXCESS when the block is complete; else the valid bits are consumed, and decoded if a tree exists. -/
def execDecb (byte : Byte) (s : State) : Host.Outcome State Fault Refusal :=
  if s.upLeft = 0 then .next (raise .excess s)
  else if s.rootV = false then .next (raise .noTree (unpackAdvance s))
  else
    match decodeBits (byteBits s.upValid byte) (unpackAdvance s) with
    | some t => .next t
    | none => .fault .cursorOnLeaf

/-- SHORT, if fewer bits were supplied than declared (R248). -/
def checkShort (s : State) : State := if s.upPos.toNat < s.upEnd.toNat then raise .short s else s

/-- TRUNC, if the stream ended inside a code (R248). -/
def checkTrunc (s : State) : State := if s.rootV = true ∧ s.cur ≠ s.root then raise .trunc s else s

/-- DEND (R248): both checks, then the cursor returns to the root. -/
def execDend (s : State) : Host.Outcome State Fault Refusal :=
  .next { checkTrunc (checkShort s) with cur := s.root }

end Sys2Proof.Machine
end

