-- ==== Sys2Proof/Machine/Encoder.lean ====
section
/-! DEFINITION. The symbol-to-code mux: ENC (spec/43_encoder.md). -/

namespace Sys2Proof.Machine

/-- ENC sym (R190): NO_CODE where the symbol has no code, else its code's bits go to the packer. -/
def execEnc (sym : Byte) (s : State) : Host.Outcome State Fault Refusal :=
  if s.clenAt sym = 0 then .next (raise .noCode s) else .next (packBits (s.codeAt sym) s)

end Sys2Proof.Machine
end

