-- ==== Sys2Proof/Machine/Frequency.lean ====
section
/-! DEFINITION. The frequency counter: COUNT (spec/41_frequency.md). -/

namespace Sys2Proof.Machine

/-- COUNT sym (R150, R151): SEQ while a tree exists, FREQ_OVF at 2^32 − 1, else one more occurrence. -/
def execCount (sym : Byte) (s : State) : Host.Outcome State Fault Refusal :=
  if s.tstate ≠ .empty then .next (raise .seq s)
  else if s.freqAt sym = 0xFFFFFFFF#32 then .next (raise .freqOvf s)
  else .next (s.setFreq sym (s.freqAt sym + 1))

end Sys2Proof.Machine
end

