-- ==== Sys2Proof/Machine/Packer.lean ====
section
/-! DEFINITION. The bit packer's commands: PUTB and FLUSH (spec/44_packer.md). -/

namespace Sys2Proof.Machine

/-- PUTB len, val (R205): ILLEGAL for a length of 0 or above 16, else `VAL[LEN−1] .. VAL[0]` go to the packer. -/
def execPutb (len : BitVec 5) (val : BitVec 16) (s : State) : Host.Outcome State Fault Refusal :=
  if len.toNat = 0 ∨ 16 < len.toNat then .next (raise .illegal s)
  else .next (packBits (putbBits len.toNat val) s)

/-- FLUSH (R207): push the partial byte, if any, latch the exact bit count and start a new block. -/
def execFlush (s : State) : Host.Outcome State Fault Refusal :=
  let s' := if s.pkNbits.toNat % 8 ≠ 0 then outPush s.acc s else s
  .next { s' with pkTotal := s.pkNbits, pkNbits := 0, acc := 0 }

end Sys2Proof.Machine
end

