-- ==== Sys2Proof/Machine/Tree.lean ====
section
/-! DEFINITION. The tree builder and code-table generator: BUILD, TCLR and LOADC (spec/42_tree.md). -/

namespace Sys2Proof.Machine

/-! ### The leaves of BUILD -/

/-- The symbols with a nonzero count, ascending (R160; their number is R14's k). -/
def State.liveSyms (s : State) : List Byte := allSyms.filter (fun sym => decide (s.freqAt sym ≠ 0))

/-- The arena index a counter stands for. -/
def idxOf (n : Nat) : NodeIdx := Fin.ofNat Config.nodeCap n

/-- The leaves, from arena index `n` on, in the order of the list (R160). -/
def writeLeaves (freq : Byte → BitVec 32) : List Byte → Nat → Arena → Arena
  | [], _, a => a
  | sym :: rest, n, a => writeLeaves freq rest (n + 1) (a.put (idxOf n) (.leaf sym ((freq sym).setWidth 40)))

/-! ### The merge engine -/

/-- The least NFREQ over a nonempty collection (R161). -/
def minNfreq (a : Arena) (i : NodeIdx) : List NodeIdx → BitVec 40
  | [] => (a.at i).nfreq
  | j :: rest =>
    let least := minNfreq a j rest
    if (a.at i).nfreq ≤ least then (a.at i).nfreq else least

/-- The nodes of least frequency in `Q`. -/
def lightest (a : Arena) : List NodeIdx → List NodeIdx
  | [] => []
  | i :: rest =>
    let least := minNfreq a i rest
    (i :: rest).filter (fun j => decide ((a.at j).nfreq = least))

/-- The least index of a nonempty collection. -/
def leastIdx (i : NodeIdx) : List NodeIdx → NodeIdx
  | [] => i
  | j :: rest => min i (leastIdx j rest)

/-- `SelectMin(Q)` (R161). Under DETERMINISTIC: the least index among the nodes of least frequency, which is the least pair
(NFREQ, index). Under ANY: whichever of them the draw names (log entry 2). -/
def selectMin (pol : TiePolicy) (draw : Nat) (a : Arena) (q : List NodeIdx) : NodeIdx :=
  match lightest a q with
  | [] => 0
  | i :: rest =>
    match pol with
    | .deterministic => leastIdx i rest
    | .any => (i :: rest).getD (draw % (rest.length + 1)) i

/-- The merge engine between two merges: the arena, the collection Q, the next free index n, and the draws made. -/
structure Merge where
  arena : Arena
  queue : List NodeIdx
  fresh : Nat
  draws : Nat
deriving DecidableEq, Repr

/-- How many draws one SelectMin takes: none where ties are broken by index. -/
def drawsPerSelect : TiePolicy → Nat
  | .deterministic => 0
  | .any => 1

/-- One turn of R161's loop: the first removed node goes right, the second left. -/
def mergeOnce (pol : TiePolicy) (draw : Nat → Nat) (m : Merge) : Merge :=
  let a := selectMin pol (draw m.draws) m.arena m.queue
  let rest := m.queue.erase a
  let b := selectMin pol (draw (m.draws + 1)) m.arena rest
  { arena := m.arena.put (idxOf m.fresh)
      (.internal ((m.arena.at a).nfreq + (m.arena.at b).nfreq) (some b) (some a))
    queue := rest.erase b ++ [idxOf m.fresh]
    fresh := m.fresh + 1
    draws := m.draws + 2 * drawsPerSelect pol }

/-- R161's loop, `while |Q| > 1`; each turn shortens Q by one, so `|Q|` turns are enough. -/
def mergeLoop (pol : TiePolicy) (draw : Nat → Nat) : Nat → Merge → Merge
  | 0, m => m
  | turns + 1, m => if 1 < m.queue.length then mergeLoop pol draw turns (mergeOnce pol draw m) else m

/-- The arena indices of the leaves, `Q <- {0, 1, .., k−1}` (R161). -/
def leafIndices (k : Nat) : List NodeIdx := (List.range k).map idxOf

/-- `Merge(k)` on an arena that holds the k leaves (R161). -/
def mergeAll (pol : TiePolicy) (draw : Nat → Nat) (k draws : Nat) (a : Arena) : Merge :=
  mergeLoop pol draw k ⟨a, leafIndices k, k, draws⟩

/-! ### The code-table generator -/

/-- `GenCodes(i, p)` (R162), with a bound on the depth of the walk; an absent child, which no BUILT tree has, ends its branch. -/
def genCodes : Nat → NodeIdx → Bits → State → State
  | 0, _, _, s => s
  | depth + 1, i, p, s =>
    match s.nodeAt i with
    | .leaf sym _ => s.setCode sym p
    | .internal _ l r =>
      let s' := match l with
        | some j => genCodes depth j (p ++ [false]) s
        | none => s
      match r with
      | some j => genCodes depth j (p ++ [true]) s'
      | none => s'

/-- BUILD with a given sequence of draws (R160, R161). -/
def buildWith (draw : Nat → Nat) (s : State) : State :=
  let syms := s.liveSyms
  let k := syms.length
  let c := treeClear s
  let a := writeLeaves s.freqAt syms 0 c.node
  match syms with
  | [] => c
  | [sym] =>
    { (c.setCode sym [false]) with
      node := a
      nodeCount := 1
      root := 0
      rootV := true
      tstate := .built
      cur := 0
      numCodes := 1 }
  | _ :: _ :: _ =>
    let m := mergeAll s.params.tiePolicy draw k s.draws a
    let root := idxOf (m.fresh - 1)
    { genCodes Config.nodeCap root []
        { c with
          node := m.arena
          nodeCount := BitVec.ofNat 10 m.fresh
          root := root
          rootV := true
          tstate := .built
          cur := root
          draws := m.draws } with
      numCodes := BitVec.ofNat 9 k }

/-- BUILD (R160): the tree from FREQ, by R161, and the code table from the tree, by R162 and R163. -/
def execBuild (s : State) : Host.Outcome State Fault Refusal := .next (buildWith Config.tieDraw s)

/-! ### TCLR -/

/-- TCLR (R165): the tree and the code table are cleared, the frequency table is kept. -/
def execTclr (s : State) : Host.Outcome State Fault Refusal := .next (treeClear s)

/-! ### LOADC -/

/-- The walk of R170 from node `cur` along the code's remaining bits, on a copy of the arena with `cnt` entries in use; the last
bit makes the leaf. `none` is LOAD: a prefix conflict or a full arena. -/
def loadWalk (sym : Byte) : Bits → NodeIdx → Arena → Nat → Option (Arena × Nat)
  | [], _, _, _ => none
  | side :: rest, cur, a, cnt =>
    match a.at cur with
    | .leaf _ _ => none
    | .internal f l r =>
      match (Node.internal f l r).child side with
      | none =>
        if Config.nodeCap ≤ cnt then none
        else
          let made : Node := if rest.isEmpty then .leaf sym 0 else .internal 0 none none
          let a' := (a.put (idxOf cnt) made).put cur ((Node.internal f l r).setChild side (idxOf cnt))
          if rest.isEmpty then some (a', cnt + 1) else loadWalk sym rest (idxOf cnt) a' (cnt + 1)
      | some ch => if rest.isEmpty || (a.at ch).isLeaf then none else loadWalk sym rest ch a cnt

/-- The root LOADC walks from: the tree's, or a fresh internal node in an empty tree (R170). -/
def loadRoot (s : State) : Option (NodeIdx × Arena × Nat) :=
  if s.rootV then some (s.root, s.node, s.nodeCount.toNat)
  else if Config.nodeCap ≤ s.nodeCount.toNat then none
  else
    let i := idxOf s.nodeCount.toNat
    some (i, Arena.put s.node i (.internal 0 none none), s.nodeCount.toNat + 1)

/-- The tree and count that LOADC of the code `c` makes, with its root; `none` is LOAD (R170). -/
def loadTree (sym : Byte) (c : Bits) (s : State) : Option (NodeIdx × Arena × Nat) :=
  match loadRoot s with
  | none => none
  | some (root, a, cnt) =>
    match loadWalk sym c root a cnt with
    | none => none
    | some (a', cnt') => some (root, a', cnt')

/-- The code LOADC reads, bits 0 .. LEN − 1 of LD_BITS (R113, R170). -/
def loadCode (len : BitVec 8) (s : State) : Bits := (loadBuffer s.ldBits).take len.toNat

/-- LOADC sym, len (R170): all or nothing. -/
def execLoadc (sym : Byte) (len : BitVec 8) (s : State) : Host.Outcome State Fault Refusal :=
  if s.tstate = .built then .next (raise .seq s)
  else if len = 0 ∨ s.clenAt sym ≠ 0 then .next (raise .load s)
  else
    match loadTree sym (loadCode len s) s with
    | none => .next (raise .load s)
    | some (root, a, cnt) =>
      .next { (s.setCode sym (loadCode len s)) with
        node := a
        nodeCount := BitVec.ofNat 10 cnt
        root := root
        rootV := true
        tstate := .loaded
        numCodes := s.numCodes + 1
        cur := root }

end Sys2Proof.Machine
end

