-- ==== Sys2Proof/Machine/Unpacker.lean ====
section
/-! DEFINITION. The bit unpacker's commands: USTART and URAW (spec/45_unpacker.md). -/

namespace Sys2Proof.Machine

/-- USTART (R220): latch UP_LIMIT, start at bit 0, and put the cursor at the root (0 when there is no tree, R45). -/
def execUstart (s : State) : Host.Outcome State Fault Refusal :=
  .next { s with upEnd := s.upLimit, upPos := 0, upRawB := 0, upRawN := 0, cur := s.root }

/-- URAW byte (R222): EXCESS when the block is complete, else the byte's valid bits go to UP_RAW. -/
def execUraw (byte : Byte) (s : State) : Host.Outcome State Fault Refusal :=
  if s.upLeft = 0 then .next (raise .excess s)
  else
    .next { unpackAdvance s with
      upRawB := maskByte s.upValid byte
      upRawN := BitVec.ofNat 4 s.upValid }

end Sys2Proof.Machine
end

