-- ==== Sys2Proof/Machine/Dispatch.lean ====
section
/-! DEFINITION. One arm per command (spec/30_encoding.md R114): the pseudocode of the command's rule. The room check, the latch's
release and the words that are no command stand around it, in Machine/CoreStep.lean (spec/60_exceptions.md R262, R263). -/

namespace Sys2Proof.Machine

def exec (i : Instr) (s : State) : Host.Outcome State Fault Refusal :=
  match i with
  -- control (40_control.md)
  | .nop => Sys2Proof.Machine.execNop s
  | .clear => Sys2Proof.Machine.execClear s
  -- frequency counter (41_frequency.md)
  | .count sym => Sys2Proof.Machine.execCount sym s
  -- tree builder and code-table generator (42_tree.md)
  | .build => Sys2Proof.Machine.execBuild s
  | .tclr => Sys2Proof.Machine.execTclr s
  | .loadc sym len => Sys2Proof.Machine.execLoadc sym len s
  -- encoder (43_encoder.md)
  | .enc sym => Sys2Proof.Machine.execEnc sym s
  -- bit packer (44_packer.md)
  | .putb len val => Sys2Proof.Machine.execPutb len val s
  | .flush => Sys2Proof.Machine.execFlush s
  -- bit unpacker (45_unpacker.md)
  | .ustart => Sys2Proof.Machine.execUstart s
  | .decb byte => Sys2Proof.Machine.execDecb byte s
  | .uraw byte => Sys2Proof.Machine.execUraw byte s
  -- decoder (46_decoder.md)
  | .dend => Sys2Proof.Machine.execDend s

end Sys2Proof.Machine
end

