-- ==== Sys2Proof/Machine/CoreStep.lean ====
section
/-! DEFINITION. The core's step: when it is enabled, what it executes, and what it does with the latch
(spec/60_exceptions.md R262, R263). -/

namespace Sys2Proof.Machine

/-- `Emit` of a command: the number of bytes it will push, computed from the state before it (R262). -/
def emit (i : Instr) (s : State) : Nat :=
  match i with
  | .nop => 0
  | .clear => 0
  | .count _ => 0
  | .build => 0
  | .tclr => 0
  | .loadc _ _ => 0
  | .enc sym =>
    if s.clenAt sym ≠ 0 ∧ s.packFits (s.clenAt sym).toNat then (s.pkNbits.toNat % 8 + (s.clenAt sym).toNat) / 8 else 0
  | .putb len _ =>
    if (1 ≤ len.toNat ∧ len.toNat ≤ 16) ∧ s.packFits len.toNat then (s.pkNbits.toNat % 8 + len.toNat) / 8 else 0
  | .flush => if s.pkNbits.toNat % 8 ≠ 0 then 1 else 0
  | .ustart => 0
  | .decb byte =>
    if s.upLeft = 0 ∨ s.rootV = false then 0 else decodePushes (byteBits s.upValid byte) (unpackAdvance s)
  | .uraw _ => 0
  | .dend => 0

/-- `Emit` of a command word: an illegal word pushes nothing (R262). -/
def emitWord (w : Word) (s : State) : Nat :=
  match decode w with
  | .ok i => emit i s
  | .error _ => 0

/-- R262: "The core step is enabled exactly when R.PEND_V = 1 and OUT_DEPTH − |R.OUTQ| >= Emit(R.PEND_W, state)". -/
def coreEnabled (s : State) : Bool :=
  s.pendV && decide (emitWord s.pendW s ≤ s.params.outDepth - s.outq.length)

/-- `R.PEND_V <- 0`, the end of every core step (R263). -/
def retire (s : State) : State := { s with pendV := false }

/-- The end of a core step on an outcome: a next state retires its command. -/
def retireOutcome : Host.Outcome State Fault Refusal → Host.Outcome State Fault Refusal
  | .next s => .next (retire s)
  | .fault r => .fault r
  | .refused r => .refused r

/-- The latched word executed (R112, R263): a word that is no command raises ILLEGAL and does nothing else. -/
def executeWord (w : Word) (s : State) : Host.Outcome State Fault Refusal :=
  match decode w with
  | .ok i => retireOutcome (exec i s)
  | .error _ => .next (retire (raise .illegal s))

/-- The core's turn: its step if it is enabled; else it holds (R262) or has nothing to do (R276), and nothing changes. -/
def coreStep (s : State) : Host.Outcome State Fault Refusal :=
  if coreEnabled s then executeWord s.pendW s else .next s

end Sys2Proof.Machine
end

