-- ==== Sys2Proof/Machine/Port.lean ====
section
/-! DEFINITION. The host register port: the map, reads, writes and their side effects (spec/20_memory.md R80 to R90). -/

namespace Sys2Proof.Machine

/-- The registers of the map (R82), under its names. -/
inductive PortReg where
  /-- ID (R36). -/
  | id
  /-- STATUS (R32). -/
  | status
  /-- ERR (R33). -/
  | err
  /-- CMD (R34). -/
  | cmd
  /-- OUT_DATA (R35). -/
  | outData
  /-- OUT_LEVEL (R35). -/
  | outLevel
  /-- PK_NBITS_LO (R49). -/
  | pkNbitsLo
  /-- PK_NBITS_HI (R49). -/
  | pkNbitsHi
  /-- PK_TOTAL_LO (R49). -/
  | pkTotalLo
  /-- PK_TOTAL_HI (R49). -/
  | pkTotalHi
  /-- UP_LIMIT_LO (R38). -/
  | upLimitLo
  /-- UP_LIMIT_HI (R38). -/
  | upLimitHi
  /-- UP_POS_LO (R50). -/
  | upPosLo
  /-- UP_POS_HI (R50). -/
  | upPosHi
  /-- UP_END_LO (R50). -/
  | upEndLo
  /-- UP_END_HI (R50). -/
  | upEndHi
  /-- SEL (R37). -/
  | sel
  /-- FREQ_DATA (R41, R87). -/
  | freqData
  /-- CODE_LEN (R47, R87). -/
  | codeLen
  /-- NUM_CODES (R48, R87). -/
  | numCodes
  /-- NODE_COUNT (R43, R87). -/
  | nodeCount
  /-- UP_RAW (R50, R87). -/
  | upRaw
  /-- PK_ACC (R49, R87). -/
  | pkAcc
  /-- CODE_BITS0..7 (R47, R87). -/
  | codeBits (j : Fin 8)
  /-- LD_BITS0..7 (R39). -/
  | ldBits (j : Fin 8)
deriving DecidableEq, Repr

/-- The register at a word index; `none` at the reserved indices 23 and 40..63 (R82, R83). -/
def regAt (idx : RegIdx) : Option PortReg :=
  match idx.toNat with
  | 0 => some .id
  | 1 => some .status
  | 2 => some .err
  | 3 => some .cmd
  | 4 => some .outData
  | 5 => some .outLevel
  | 6 => some .pkNbitsLo
  | 7 => some .pkNbitsHi
  | 8 => some .pkTotalLo
  | 9 => some .pkTotalHi
  | 10 => some .upLimitLo
  | 11 => some .upLimitHi
  | 12 => some .upPosLo
  | 13 => some .upPosHi
  | 14 => some .upEndLo
  | 15 => some .upEndHi
  | 16 => some .sel
  | 17 => some .freqData
  | 18 => some .codeLen
  | 19 => some .numCodes
  | 20 => some .nodeCount
  | 21 => some .upRaw
  | 22 => some .pkAcc
  | n =>
    if h : 24 ≤ n ∧ n < 32 then some (.codeBits ⟨n - 24, by omega⟩)
    else if h : 32 ≤ n ∧ n < 40 then some (.ldBits ⟨n - 32, by omega⟩)
    else none

/-- `idx(NAME)`, the word index of a register (R82, R118). -/
def PortReg.idx : PortReg → RegIdx
  | .id => 0
  | .status => 1
  | .err => 2
  | .cmd => 3
  | .outData => 4
  | .outLevel => 5
  | .pkNbitsLo => 6
  | .pkNbitsHi => 7
  | .pkTotalLo => 8
  | .pkTotalHi => 9
  | .upLimitLo => 10
  | .upLimitHi => 11
  | .upPosLo => 12
  | .upPosHi => 13
  | .upEndLo => 14
  | .upEndHi => 15
  | .sel => 16
  | .freqData => 17
  | .codeLen => 18
  | .numCodes => 19
  | .nodeCount => 20
  | .upRaw => 21
  | .pkAcc => 22
  | .codeBits j => BitVec.ofNat 6 (24 + j.val)
  | .ldBits j => BitVec.ofNat 6 (32 + j.val)

/-- The byte address of a register in the host's address map: `HUF_BASE + 4 × idx` (R81, R82, R92). -/
def PortReg.byteAddress (r : PortReg) : Nat := Config.hufBase + 4 * r.idx.toNat

/-- OUT_LEVEL of a FIFO of `n` bytes: the number, where 32 bits hold it (R35). DESIGN CHOICE (log entry 16): with an OUT_DEPTH of
2^32 or more, which R8 allows, a FIFO can hold more, and the value read then is free. -/
def levelWord (n : Nat) : Word := if n < 2 ^ 32 then BitVec.ofNat 32 n else Config.levelPastWord n

/-- The value a read of a register returns (R32 to R39, R84, R87; OUT_LEVEL past 2^32 − 1 bytes: log entry 16). -/
def readReg (r : PortReg) (s : State) : Word :=
  match r with
  | .id => Config.idWord
  | .status => s.status
  | .err => s.err.setWidth 32
  | .cmd => 0
  | .outData =>
    match s.outq with
    | [] => 0
    | head :: _ => 0#23 ++ 1#1 ++ head
  | .outLevel => levelWord s.outq.length
  | .pkNbitsLo => loHalf s.pkNbits
  | .pkNbitsHi => hiHalf s.pkNbits
  | .pkTotalLo => loHalf s.pkTotal
  | .pkTotalHi => hiHalf s.pkTotal
  | .upLimitLo => loHalf s.upLimit
  | .upLimitHi => hiHalf s.upLimit
  | .upPosLo => loHalf s.upPos
  | .upPosHi => hiHalf s.upPos
  | .upEndLo => loHalf s.upEnd
  | .upEndHi => hiHalf s.upEnd
  | .sel => s.sel.setWidth 32
  | .freqData => s.freqAt s.sel
  | .codeLen => (s.clenAt s.sel).setWidth 32
  | .numCodes => s.numCodes.setWidth 32
  | .nodeCount => s.nodeCount.setWidth 32
  | .upRaw => (s.upRawN ++ s.upRawB).setWidth 32
  | .pkAcc => s.acc.setWidth 32
  | .codeBits j => codeWord (s.codeAt s.sel) (s.clenAt s.sel).toNat j.val
  | .ldBits j => s.ldBits[j.val]

/-- What a read of a register does besides: a read of OUT_DATA removes the head byte, and nothing else has a side effect
(R35, R86). -/
def readEffect (r : PortReg) (s : State) : State :=
  if r = .outData then { s with outq := s.outq.tail } else s

/-- `MemRead(idx, 4)`: the value and the state after (R81, R83). -/
def portRead (idx : RegIdx) (s : State) : Word × State :=
  match regAt idx with
  | some r => (readReg r s, readEffect r s)
  | none => (0, s)

/-- A host write of a command word (R85): latched, or dropped with OVERRUN while one is pending. -/
def writeCmd (v : Word) (s : State) : State :=
  if s.pendV then raise .overrun s else { s with pendW := v, pendV := true }

/-- What a write of a register does (R33, R37 to R39, R84, R85); a write to a read-only register is ignored. -/
def writeReg (r : PortReg) (v : Word) (s : State) : State :=
  match r with
  | .id => s
  | .status => s
  | .err => clearErrors v s
  | .cmd => writeCmd v s
  | .outData => s
  | .outLevel => s
  | .pkNbitsLo => s
  | .pkNbitsHi => s
  | .pkTotalLo => s
  | .pkTotalHi => s
  | .upLimitLo => { s with upLimit := hiHalf s.upLimit ++ v }
  | .upLimitHi => { s with upLimit := v ++ loHalf s.upLimit }
  | .upPosLo => s
  | .upPosHi => s
  | .upEndLo => s
  | .upEndHi => s
  | .sel => { s with sel := v.setWidth 8 }
  | .freqData => s
  | .codeLen => s
  | .numCodes => s
  | .nodeCount => s
  | .upRaw => s
  | .pkAcc => s
  | .codeBits _ => s
  | .ldBits j => { s with ldBits := s.ldBits.set j.val v }

/-- `MemWrite(idx, 4, v)` (R81, R83). -/
def portWrite (idx : RegIdx) (v : Word) (s : State) : State :=
  match regAt idx with
  | some r => writeReg r v s
  | none => s

end Sys2Proof.Machine
end

