-- ==== Sys2Proof/Machine/HostStep.lean ====
section
/-! DEFINITION. The host agent's step and the platform's reset (spec/60_exceptions.md R260, R261, spec/30_encoding.md R118,
spec/70_reset_and_hazards.md R290). -/

namespace Sys2Proof.Machine

/-- The state after a read, with the value recorded in the host's trace (R118). -/
def hostRead (r : PortReg) (s : State) : State :=
  { (portRead r.idx s).2 with trace := s.trace ++ [⟨r.idx, (portRead r.idx s).1⟩] }

/-- A read at any word index, recorded. -/
def hostReadIdx (idx : RegIdx) (s : State) : State :=
  { (portRead idx s).2 with trace := s.trace ++ [⟨idx, (portRead idx s).1⟩] }

/-- One host step: one register-port access, which never waits (R261). POLL stays at its place until the BUSY it read is 0,
DRAIN until the VALID it read is 0 (R118). With no statement left the host performs no access. -/
def hostStep (s : State) : State :=
  match s.hostProg with
  | [] => s
  | .wr idx v :: rest => portWrite idx v { s with hostProg := rest }
  | .rd idx :: rest => hostReadIdx idx { s with hostProg := rest }
  | .poll :: rest =>
    if (readReg .status s).getLsbD 0 then hostRead .status s else hostRead .status { s with hostProg := rest }
  | .drain :: rest =>
    if (readReg .outData s).getLsbD 8 then hostRead .outData s else hostRead .outData { s with hostProg := rest }

/-- Reset asserted by the platform (R290): every element of R56 takes its reset value; a pending command and the bytes of the
FIFO are lost. The parameters, the host's own program and trace, and the model's own fields are not the core's and stay. -/
def assertReset (s : State) : State :=
  { State.resetWith s.params with
    draws := s.draws
    hostProg := s.hostProg
    trace := s.trace
    sched := s.sched }

/-- The bytes a run has put out: those its OUT_DATA reads returned with VALID = 1, in order (R118, DRAIN; R277). -/
def outputOf (trace : List ReadRecord) : List Byte :=
  (trace.filter (fun r => decide (r.idx = PortReg.outData.idx) && r.value.getLsbD 8)).map (fun r => r.value.setWidth 8)

end Sys2Proof.Machine
end

