-- ==== Sys2Proof/Machine/Step.lean ====
section
/-! DEFINITION. One step of the machine: an interleaving of host steps, core steps and resets, one at a time
(spec/20_memory.md R94, spec/60_exceptions.md R260, R263). -/

namespace Sys2Proof.Machine

/-- The step of a given turn. -/
def stepTurn (t : Turn) (s : State) : Host.Outcome State Fault Refusal :=
  match t with
  | .host => .next (hostStep s)
  | .core => coreStep s
  | .reset => .next (assertReset s)

/-- The turn that comes when the schedule names none: the core's if it is enabled (so the step an enabled core owes by weak
fairness, R263, is taken), else the host's. -/
def defaultTurn (s : State) : Turn := if coreEnabled s then .core else .host

/-- One step: the first turn of the schedule, or the default turn when the schedule is over (log entry 3). -/
def step (s : State) : Host.Outcome State Fault Refusal :=
  match s.sched with
  | [] => stepTurn (defaultTurn s) s
  | t :: rest => stepTurn t { s with sched := rest }

/-- The state in which the very next step is the core's and its command word is `w`: the host has written `w` to CMD
(R31, R34; log entry 6). -/
def State.withFetchWord (s : State) (nbits w : Nat) : State :=
  { s with
    pendV := true
    pendW := BitVec.ofNat 32 (w % 2 ^ nbits)
    sched := .core :: s.sched }

end Sys2Proof.Machine
end

