-- ==== Sys2Proof/Machine/HostProgram.lean ====
section
/-! DEFINITION. The statements of a host program and the host macros (spec/30_encoding.md R118, R119). A macro is a list of
statements and adds no behaviour. -/

namespace Sys2Proof.Machine

/-- `WR NAME, v` (R118). -/
def wr (r : PortReg) (v : Word) : List HostStmt := [.wr r.idx v]

/-- `RD NAME` (R118). -/
def rd (r : PortReg) : List HostStmt := [.rd r.idx]

/-- `CMD c`: write the word of `c`, then POLL (R118). -/
def cmd (i : Instr) : List HostStmt := wr .cmd (encode i) ++ [.poll]

/-- `COUNTS b0 .. bn` (R119). -/
def counts (bs : List Byte) : List HostStmt := bs.flatMap (fun b => cmd (.count b))

/-- `ENCS b0 .. bn` (R119). -/
def encs (bs : List Byte) : List HostStmt := bs.flatMap (fun b => cmd (.enc b))

/-- `DECBS p0 .. pm` (R119). -/
def decbs (ps : List Byte) : List HostStmt := ps.flatMap (fun p => cmd (.decb p))

/-- `SETLIM n` (R119). -/
def setlim (n : BitVec 64) : List HostStmt := wr .upLimitLo (loHalf n) ++ wr .upLimitHi (hiHalf n)

/-- `LDCODE sym, "c"` (R119): the eight words of the code, then LOADC. DESIGN CHOICE (log entry 15): for a bit string longer than
255 bits R119 gives no word, since R117's assembler refuses its LOADC; the model sends the length modulo 256, and the bits past
the 256th, for which there is no LD_BITS register, go nowhere. -/
def ldcode (sym : Byte) (c : Bits) : List HostStmt :=
  (List.finRange 8).flatMap (fun j => wr (.ldBits j) (loadWord c j.val)) ++ cmd (.loadc sym (BitVec.ofNat 8 c.length))

/-- `COMPRESS b0 .. bn` (R119). -/
def compress (bs : List Byte) : List HostStmt :=
  cmd .clear ++ counts bs ++ cmd .build ++ encs bs ++ cmd .flush

/-- `DECOMPRESS n, p0 .. pm` (R119). -/
def decompress (n : BitVec 64) (ps : List Byte) : List HostStmt :=
  setlim n ++ cmd .ustart ++ decbs ps ++ cmd .dend

end Sys2Proof.Machine
end

