-- ==== Sys2Proof/Safety.lean ====
section
/-! DEFINITION. The terms the claims use: sequences of commands, the packed form of a bit string, paths in the tree, and the
invariants of spec/10_state.md R55 (with R40, R47 and R51). -/

namespace Sys2Proof.Machine

/-! ### Sequences of commands -/

/-- The commands of a list, one after the other, each with the effect of its rule (a run in which the host drains the FIFO often
enough, R295, so that the room check of R262 never holds a command back). -/
def execAll : List Instr → State → Host.Outcome State Fault Refusal
  | [], s => .next s
  | i :: rest, s =>
    match exec i s with
    | .next t => execAll rest t
    | .fault r => .fault r
    | .refused r => .refused r

/-- The commands of a compress run (R293): CLEAR, one COUNT per byte, BUILD, one ENC per byte, FLUSH. -/
def compressCmds (S : List Byte) : List Instr :=
  .clear :: S.map .count ++ [.build] ++ S.map .enc ++ [.flush]

/-- The commands of a decompress run with a tree in place (R300): USTART, one DECB per packed byte, DEND. -/
def decompressCmds (P : List Byte) : List Instr := .ustart :: P.map .decb ++ [.dend]

/-! ### Errors -/

/-- Which commands may raise which error bit (R264's table; OVERRUN is raised by the host's write alone). -/
def mayRaise : ErrBit → Instr → Bool
  | .illegal, .putb _ _ => true
  | .freqOvf, .count _ => true
  | .noCode, .enc _ => true
  | .noTree, .decb _ => true
  | .badCode, .decb _ => true
  | .excess, .decb _ => true
  | .excess, .uraw _ => true
  | .short, .dend => true
  | .trunc, .dend => true
  | .bitcntOvf, .enc _ => true
  | .bitcntOvf, .putb _ _ => true
  | .load, .loadc _ _ => true
  | .seq, .count _ => true
  | .seq, .loadc _ _ => true
  | _, _ => false

/-! ### Bits and bytes -/

/-- Byte `k` of the packed form of `B`: bit `7 − (j mod 8)` is `B[j]` for the eight j with `j div 8 = k`, and 0 past the end of
`B` (R88, R201). -/
def packedByte (B : Bits) (k : Nat) : Byte :=
  (List.range 8).foldl (fun a j => setBit a (7 - j) (B.getD (8 * k + j) false)) 0

/-- The packed form of a bit string: `ceil(n/8)` bytes (R88, R201). -/
def packedBytes (B : Bits) : List Byte := (List.range ((B.length + 7) / 8)).map (packedByte B)

/-- `PackBits(c)` seen from outside (R200): the pending bits of the block followed by `c` fill whole bytes, which are pushed, and
the bits left over, padded with 0, are the new pending byte. -/
def appendedBlock (c : Bits) (s : State) : State :=
  let B := byteBits (s.pkNbits.toNat % 8) s.acc ++ c
  { s with
    outq := s.outq ++ (List.range (B.length / 8)).map (packedByte B)
    acc := packedByte B (B.length / 8)
    pkNbits := s.pkNbits + BitVec.ofNat 64 c.length }

/-- The bits that the commands ENC and PUTB append (R190, R205), read off the state's code table. -/
def appendedBits (s : State) : Instr → Bits
  | .enc sym => s.codeAt sym
  | .putb len val => putbBits len.toNat val
  | .nop | .clear | .count _ | .build | .tclr | .loadc _ _ | .flush | .ustart | .decb _ | .uraw _ | .dend => []

/-- A command that appends bits and is not turned away: an ENC of a symbol with a code, a PUTB of a legal length. -/
def appends (s : State) : Instr → Bool
  | .enc sym => decide (s.clenAt sym ≠ 0)
  | .putb len _ => decide (1 ≤ len.toNat ∧ len.toNat ≤ 16)
  | .nop | .clear | .count _ | .build | .tclr | .loadc _ _ | .flush | .ustart | .decb _ | .uraw _ | .dend => false

/-- The codes of a symbol sequence, concatenated in arrival order (R191). -/
def codesOf (s : State) (S : List Byte) : Bits := S.flatMap s.codeAt

/-- The bits a URAW command delivered: the first UP_RAWN bits of UP_RAWB, from bit 7 down (R223). -/
def State.rawBits (s : State) : Bits := byteBits s.upRawN.toNat s.upRawB

/-- URAW of each byte, and the bits delivered over the commands, concatenated (R223). -/
def urawAll : List Byte → State → Option (Bits × State)
  | [], s => some ([], s)
  | b :: bs, s =>
    match exec (.uraw b) s with
    | .next t => (urawAll bs t).map (fun r => (t.rawBits ++ r.1, r.2))
    | .fault _ => none
    | .refused _ => none

/-! ### Paths in the tree -/

/-- The node reached from `i` along a path, 0 going left and 1 going right (R11). -/
def Arena.walk (a : Arena) (i : NodeIdx) : Bits → Option NodeIdx
  | [] => some i
  | b :: bs =>
    match (a.at i).child b with
    | none => none
    | some j => Arena.walk a j bs

/-- `i` is the node at the end of path `p` from the root. -/
def State.at (s : State) (p : Bits) (i : NodeIdx) : Prop := Arena.walk s.node s.root p = some i

/-- Two bit strings of which one is a prefix of the other. -/
def comparable (c d : Bits) : Prop := c <+: d ∨ d <+: c

/-- How many leading bits of a code follow edges that the tree below `i` already has. -/
def Arena.sharedBits (a : Arena) (i : NodeIdx) : Bits → Nat
  | [] => 0
  | b :: bs =>
    match (a.at i).child b with
    | none => 0
    | some j => Arena.sharedBits a j bs + 1

/-- How many arena entries LOADC of the code `c` needs (R170): one per bit that follows no edge yet, and a root where there is
no tree. -/
def State.newNodes (s : State) (c : Bits) : Nat :=
  if s.rootV then c.length - Arena.sharedBits s.node s.root c else c.length + 1

/-- The number of symbols with a code. -/
def State.codeCount (s : State) : Nat := (allSyms.filter (fun sym => decide (s.clenAt sym ≠ 0))).length

/-- The sum of `FREQ[s] × |c s|` over the symbols with a nonzero count: the weighted path length of a code `c` (R14, R164). -/
def State.weightedLength (s : State) (c : Byte → Bits) : Nat :=
  (s.liveSyms.map (fun sym => (s.freqAt sym).toNat * (c sym).length)).sum

/-- A prefix code for the symbols with a nonzero count (R14, R164): no code is a prefix of another's. -/
def State.prefixCode (s : State) (c : Byte → Bits) : Prop :=
  ∀ a ∈ s.liveSyms, ∀ b ∈ s.liveSyms, a ≠ b → ¬ c a <+: c b

/-! ### The invariants -/

/-- R55 items 1 to 4 and its count of codes, with R43, R45, R47 and R51: what holds of the tree, the code table and the
cursor after every command. -/
structure State.TreeInv (s : State) : Prop where
  /-- R45, R46, R55.1: without a tree everything about it is cleared. -/
  absent : s.rootV = false → s.tstate = .empty ∧ s.root = 0 ∧ s.nodeCount = 0 ∧ ∀ sym, s.clenAt sym = 0
  /-- R55.1: with a tree, TSTATE says so and the root is in use. -/
  present : s.rootV = true → s.tstate ≠ .empty ∧ s.root.val < s.nodeCount.toNat
  /-- R43: at most NODE_CAP entries are in use. -/
  capacity : s.nodeCount.toNat ≤ Config.nodeCap
  /-- R55.2: every node reachable from the root is in use. -/
  reachedInUse : s.rootV = true → ∀ p i, s.at p i → i.val < s.nodeCount.toNat
  /-- R55.2: each node in use is reachable by exactly one path. -/
  reachedOnce : s.rootV = true → ∀ i : NodeIdx, i.val < s.nodeCount.toNat → ∃ p, s.at p i ∧ ∀ q, s.at q i → q = p
  /-- R55.3: a symbol has a code exactly when a leaf of the tree carries it. -/
  codedLeaf : s.rootV = true → ∀ sym, s.clenAt sym ≠ 0 ↔ ∃ p i f, s.at p i ∧ s.nodeAt i = .leaf sym f
  /-- R55.3: a code is the path to its leaf, but for a lone leaf root, whose code is "0" (R163). -/
  codePath : s.rootV = true → ∀ p i sym f, s.at p i → s.nodeAt i = .leaf sym f →
    s.codeAt sym = if p = [] then [false] else p
  /-- R47: CLEN is the length of CODE. -/
  codeLength : ∀ sym, (s.codeAt sym).length = (s.clenAt sym).toNat
  /-- R55.4: every internal node of a BUILT tree has both children. -/
  strict : s.tstate = .built → ∀ i : NodeIdx, i.val < s.nodeCount.toNat → ∀ f l r, s.nodeAt i = .internal f l r →
    l.isSome = true ∧ r.isSome = true
  /-- R160, R170: no internal node is a dead end; LOADC makes one only on the way to a leaf. -/
  fruitful : s.rootV = true → ∀ i : NodeIdx, i.val < s.nodeCount.toNat → ∀ f l r, s.nodeAt i = .internal f l r →
    l.isSome = true ∨ r.isSome = true
  /-- R55.4: the codes are prefix-free. -/
  prefixFree : ∀ a b, a ≠ b → s.clenAt a ≠ 0 → s.clenAt b ≠ 0 → ¬ s.codeAt a <+: s.codeAt b
  /-- R170: the root of a LOADED tree is internal. -/
  loadedRoot : s.tstate = .loaded → (s.nodeAt s.root).isLeaf = false
  /-- R51: the cursor is on the lone leaf root, or on an internal node in use. -/
  cursor : s.rootV = true →
    if (s.nodeAt s.root).isLeaf then s.cur = s.root
    else (s.nodeAt s.cur).isLeaf = false ∧ s.cur.val < s.nodeCount.toNat
  /-- R48, R55.5: NUM_CODES counts the symbols with a code. -/
  counted : s.numCodes.toNat = s.codeCount

/-- R49, R55.5: the unfilled bits of ACC, `ACC[7 − (PK_NBITS mod 8) : 0]`, are 0. -/
def State.PackerInv (s : State) : Prop := ∀ j, j ≤ 7 - s.pkNbits.toNat % 8 → s.acc.getLsbD j = false

/-- R50, R55.5: UP_POS never passes UP_END. -/
def State.UnpackerInv (s : State) : Prop := s.upPos.toNat ≤ s.upEnd.toNat

/-- R40: the FIFO holds 0 to OUT_DEPTH bytes. -/
def State.FifoInv (s : State) : Prop := s.outq.length ≤ s.params.outDepth

/-- A state as every run from reset leaves it (R55). -/
structure State.Inv (s : State) : Prop where
  tree : s.TreeInv
  packer : s.PackerInv
  unpacker : s.UnpackerInv
  fifo : s.FifoInv

/-- Two states that differ at most in arena entries at or above NODE_COUNT, which R42 says no rule reads. -/
def State.sameInUse (s t : State) : Prop :=
  t = { s with node := t.node } ∧ ∀ i : NodeIdx, i.val < s.nodeCount.toNat → t.nodeAt i = s.nodeAt i

/-! ### The end of a run -/

/-- R277: the host program has performed its last access and no command is pending. -/
def State.ended (s : State) : Bool := s.hostProg.isEmpty && !s.pendV

/-- How many of the `level` bytes in the FIFO a host program still reads while the core holds (R118, R295). POLL is where it stays:
BUSY reads 1 for as long as the core holds. -/
def readsWhileHeld : List HostStmt → Nat → Nat
  | [], _ => 0
  | .poll :: _, _ => 0
  | .wr _ _ :: rest, level => readsWhileHeld rest level
  | .rd idx :: rest, level =>
    if idx = PortReg.outData.idx ∧ 0 < level then readsWhileHeld rest (level - 1) + 1 else readsWhileHeld rest level
  | .drain :: _, level => level

/-- R262, R277, R295: a command is pending, and the FIFO lacks room for it however far the host's program gets while the core holds:
the program is over, or is at a POLL, or reads too few bytes. No reset is to come. The run then never ends: it hangs. -/
def State.hung (s : State) : Bool :=
  s.pendV && decide (Turn.reset ∉ s.sched) &&
    decide (s.params.outDepth - (s.outq.length - readsWhileHeld s.hostProg s.outq.length) < emitWord s.pendW s)

/-- R277, R297: a run that has ended with no error bit set, whose output the host may trust. -/
def State.safeEnd (s : State) : Bool := s.ended && decide (s.err = 0)

end Sys2Proof.Machine
end

