-- ==== Sys2Proof/Certificates/Slice0/Obligations.lean ====
section
/-! DEFINITION. The statements for the provers. Error bits are written as the ERR values of spec/10_state.md R33: bit n is
`2 ^ n`. A frame is written as an equation between records: `t = { s with f := t.f }` says that every field but `f` is as it
was, the host's side, the parameters and the model's own fields included. -/

open Sys2Proof Sys2Proof.Machine

/-! ### Reset, the register port, the host -/

/-- R56: every element of the table has its reset value, for every value of the parameters, and ID reads its constant. R56 leaves
the arena's entries unspecified, so nothing is said of them. -/
def Obligations.ResetLeavesTheTabledValues : Prop :=
  ∀ p : Params,
    let s := State.resetWith p
    s.pendV = false ∧ s.pendW = 0 ∧ s.err = 0 ∧ s.outq = [] ∧
    (∀ sym, s.freqAt sym = 0 ∧ s.clenAt sym = 0 ∧ s.codeAt sym = []) ∧
    s.nodeCount = 0 ∧ s.rootV = false ∧ s.root = 0 ∧ s.tstate = .empty ∧ s.numCodes = 0 ∧
    s.acc = 0 ∧ s.pkNbits = 0 ∧ s.pkTotal = 0 ∧
    s.upEnd = 0 ∧ s.upPos = 0 ∧ s.upRawB = 0 ∧ s.upRawN = 0 ∧ s.cur = 0 ∧
    s.sel = 0 ∧ s.upLimit = 0 ∧ (∀ j : Fin 8, readReg (.ldBits j) s = 0) ∧
    (portRead PortReg.id.idx s).1 = 0x48554646#32

/-- R290: a reset discards a pending command and every byte in the FIFO, gives every other element its value of R56 (which gives the
arena's entries none, and nothing is said of them), and the core accepts a CMD write at once. THE MODEL'S CHOICE, log entry 3: the
host's side, the parameters and the model's own fields are not the core's and stay. -/
def Obligations.ResetInputRestoresResetState : Prop :=
  ∀ (s : State) (rest : List Turn) (v : Word), s.sched = .reset :: rest →
    ∃ t, step s = .next t ∧
      t = { State.resetWith s.params with
            node := t.node, draws := s.draws, hostProg := s.hostProg, trace := s.trace, sched := rest } ∧
      t.pendV = false ∧ t.outq = [] ∧
      portWrite PortReg.cmd.idx v t = { t with pendV := true, pendW := v }

/-- R32: the fields of STATUS, its reserved bits and its reset value; a write to it is ignored. -/
def Obligations.StatusShowsItsFields : Prop :=
  (∀ s : State,
    (readReg .status s).getLsbD 0 = s.pendV ∧
    (readReg .status s).getLsbD 1 = s.rootV ∧
    (readReg .status s).extractLsb' 2 2 =
      (match s.tstate with | .empty => 0#2 | .built => 1#2 | .loaded => 2#2) ∧
    ((readReg .status s).getLsbD 4 = true ↔ s.rootV = false ∨ s.cur = s.root) ∧
    ((readReg .status s).getLsbD 5 = true ↔ s.err ≠ 0) ∧
    (readReg .status s).extractLsb' 6 26 = 0 ∧
    ∀ v, portWrite PortReg.status.idx v s = s) ∧
  readReg .status State.reset = 0x10#32

/-- R35: OUT_DATA shows and removes the head of a non-empty FIFO, and reads 0 with no change when it is empty; OUT_LEVEL is the
number of bytes, where its 32 bits hold it (past that the value is free, log entry 16). -/
def Obligations.OutDataReadPopsTheHead : Prop :=
  ∀ (s : State),
    (∀ b rest, s.outq = b :: rest →
      (portRead PortReg.outData.idx s).1 = 0x100#32 ||| b.setWidth 32 ∧
      (portRead PortReg.outData.idx s).2 = { s with outq := rest }) ∧
    (s.outq = [] → portRead PortReg.outData.idx s = (0, s)) ∧
    (s.outq.length < 2 ^ 32 → (portRead PortReg.outLevel.idx s).1.toNat = s.outq.length)

/-- R86: every read but OUT_DATA's is free of effects; writes to ERR, SEL, UP_LIMIT and LD_BITS are idempotent, and a write to
CMD is not: the second raises OVERRUN. -/
def Obligations.PortSideEffectsAreOutDataAndCmd : Prop :=
  ∀ (idx : RegIdx) (v : Word) (s : State),
    (idx ≠ PortReg.outData.idx → (portRead idx s).2 = s) ∧
    (idx ≠ PortReg.cmd.idx → portWrite idx v (portWrite idx v s) = portWrite idx v s) ∧
    portWrite PortReg.cmd.idx v (portWrite PortReg.cmd.idx v s) =
      { portWrite PortReg.cmd.idx v s with err := s.err ||| 0x002#12 }

/-- R83 and R84: reserved indices read 0 and ignore writes, read-only registers ignore writes, CMD reads 0, a read-write register
stores its defined bits and nothing else changes (LO is bits [31:0] of UP_LIMIT and HI bits [63:32]), and ERR is cleared where a 1
is written. -/
def Obligations.PortWritesRespectAccessTypes : Prop :=
  ∀ (s : State) (v : Word),
    (∀ idx : RegIdx, idx.toNat = 23 ∨ 40 ≤ idx.toNat → portRead idx s = (0, s) ∧ portWrite idx v s = s) ∧
    (∀ idx : RegIdx, idx.toNat < 32 → idx.toNat ∉ [2, 3, 10, 11, 16] → portWrite idx v s = s) ∧
    (portRead PortReg.cmd.idx s).1 = 0 ∧
    portWrite PortReg.err.idx v s = { s with err := s.err &&& ~~~(v.extractLsb' 0 12) } ∧
    portWrite PortReg.sel.idx v s = { s with sel := v.extractLsb' 0 8 } ∧
    (∃ t, portWrite PortReg.upLimitLo.idx v s = t ∧ t = { s with upLimit := t.upLimit } ∧
      t.upLimit.toNat = s.upLimit.toNat / 2 ^ 32 * 2 ^ 32 + v.toNat ∧
      readReg .upLimitLo t = v ∧ readReg .upLimitHi t = readReg .upLimitHi s) ∧
    (∃ t, portWrite PortReg.upLimitHi.idx v s = t ∧ t = { s with upLimit := t.upLimit } ∧
      t.upLimit.toNat = v.toNat * 2 ^ 32 + s.upLimit.toNat % 2 ^ 32 ∧
      readReg .upLimitHi t = v ∧ readReg .upLimitLo t = readReg .upLimitLo s) ∧
    ∀ j : Fin 8, ∃ t, portWrite (PortReg.ldBits j).idx v s = t ∧ t = { s with ldBits := t.ldBits } ∧
      ∀ i : Fin 8, t.ldBits[i] = (if i = j then v else s.ldBits[i]) ∧
        readReg (.ldBits i) t = if i = j then v else readReg (.ldBits i) s

/-- R85: a host write of CMD latches the word when none is pending, and is dropped with OVERRUN (bit 1) otherwise. -/
def Obligations.CmdWriteLatchesOrOverruns : Prop :=
  ∀ (v : Word) (s : State),
    (s.pendV = false → portWrite PortReg.cmd.idx v s = { s with pendV := true, pendW := v }) ∧
    (s.pendV = true → portWrite PortReg.cmd.idx v s = { s with err := s.err ||| 0x002#12 })

/-- R87: what the readout registers show, CODE_BITS bit by bit; and R82, R89: the registers that show an element of the state as it
is, a 64-bit element with bits [31:0] in LO and bits [63:32] in HI. -/
def Obligations.ReadoutsShowTheSelectedSymbol : Prop :=
  ∀ s : State,
    (readReg .freqData s = s.freqAt s.sel ∧
      (readReg .codeLen s).toNat = (s.clenAt s.sel).toNat ∧
      (∀ (j : Fin 8) (n : Nat), n < 32 →
        (readReg (.codeBits j) s).getLsbD (31 - n) =
          if 32 * j.val + n < (s.clenAt s.sel).toNat then (s.codeAt s.sel).getD (32 * j.val + n) false else false) ∧
      (readReg .numCodes s).toNat = s.numCodes.toNat ∧
      (readReg .nodeCount s).toNat = s.nodeCount.toNat ∧
      (readReg .upRaw s).toNat = 256 * s.upRawN.toNat + s.upRawB.toNat ∧
      (readReg .pkAcc s).toNat = s.acc.toNat) ∧
    readReg .id s = 0x48554646#32 ∧
    (readReg .err s).toNat = s.err.toNat ∧
    (readReg .sel s).toNat = s.sel.toNat ∧
    (∀ j : Fin 8, readReg (.ldBits j) s = s.ldBits[j]) ∧
    (readReg .pkNbitsLo s).toNat = s.pkNbits.toNat % 2 ^ 32 ∧ (readReg .pkNbitsHi s).toNat = s.pkNbits.toNat / 2 ^ 32 ∧
    (readReg .pkTotalLo s).toNat = s.pkTotal.toNat % 2 ^ 32 ∧ (readReg .pkTotalHi s).toNat = s.pkTotal.toNat / 2 ^ 32 ∧
    (readReg .upLimitLo s).toNat = s.upLimit.toNat % 2 ^ 32 ∧ (readReg .upLimitHi s).toNat = s.upLimit.toNat / 2 ^ 32 ∧
    (readReg .upPosLo s).toNat = s.upPos.toNat % 2 ^ 32 ∧ (readReg .upPosHi s).toNat = s.upPos.toNat / 2 ^ 32 ∧
    (readReg .upEndLo s).toNat = s.upEnd.toNat % 2 ^ 32 ∧ (readReg .upEndHi s).toNat = s.upEnd.toNat / 2 ^ 32

/-- R39: bit `i` of the load buffer is register `LD_BITS(i div 32)` bit `31 − (i mod 32)`, and a code written by LDCODE (R119) is
read back by LOADC. -/
def Obligations.LoadBufferBitOrder : Prop :=
  (∀ (ld : Vector Word 8) (i : Nat), i < 256 →
    (loadBuffer ld)[i]? = (ld[i / 32]?).map (fun w => w.getLsbD (31 - i % 32))) ∧
  ∀ c : Bits, c.length ≤ 255 →
    (loadBuffer (Vector.ofFn fun j : Fin 8 => loadWord c j.val)).take c.length = c

/-- R82: the rows of the map, each register at its index, CODE_BITSj at 24 + j and LD_BITSj at 32 + j, and no register at 23 and
40..63; names and indices are inverse to each other, and an access of the port at an index is an access of the register there. -/
def Obligations.RegisterMapIsExact : Prop :=
  regAt 0 = some .id ∧ regAt 1 = some .status ∧ regAt 2 = some .err ∧ regAt 3 = some .cmd ∧
  regAt 4 = some .outData ∧ regAt 5 = some .outLevel ∧ regAt 6 = some .pkNbitsLo ∧ regAt 7 = some .pkNbitsHi ∧
  regAt 8 = some .pkTotalLo ∧ regAt 9 = some .pkTotalHi ∧ regAt 10 = some .upLimitLo ∧ regAt 11 = some .upLimitHi ∧
  regAt 12 = some .upPosLo ∧ regAt 13 = some .upPosHi ∧ regAt 14 = some .upEndLo ∧ regAt 15 = some .upEndHi ∧
  regAt 16 = some .sel ∧ regAt 17 = some .freqData ∧ regAt 18 = some .codeLen ∧ regAt 19 = some .numCodes ∧
  regAt 20 = some .nodeCount ∧ regAt 21 = some .upRaw ∧ regAt 22 = some .pkAcc ∧
  (∀ j : Fin 8, regAt (BitVec.ofNat 6 (24 + j.val)) = some (.codeBits j)) ∧
  (∀ j : Fin 8, regAt (BitVec.ofNat 6 (32 + j.val)) = some (.ldBits j)) ∧
  (∀ idx : RegIdx, regAt idx = none ↔ idx.toNat = 23 ∨ 40 ≤ idx.toNat) ∧
  (∀ r : PortReg, regAt r.idx = some r) ∧
  ∀ (idx : RegIdx) (r : PortReg), regAt idx = some r →
    r.idx = idx ∧ ∀ (v : Word) (s : State), (portRead idx s).1 = readReg r s ∧ portWrite idx v s = writeReg r v s

/-- R118, R261: a host turn performs one access of its program and nothing else: it has the access's effect, takes the statement off
the program, and records the value read. POLL stays while BUSY reads 1, DRAIN until the FIFO reads empty, and a host whose program
is over changes nothing. That the reads of POLL and DRAIN are recorded as RD's are is THE MODEL'S READING, log entry 12. -/
def Obligations.HostTurnPerformsOneAccess : Prop :=
  ∀ (s : State) (p : List HostStmt) (turns : List Turn),
    (∀ idx v, step { s with hostProg := .wr idx v :: p, sched := .host :: turns } =
      .next (portWrite idx v { s with hostProg := p, sched := turns })) ∧
    (∀ idx, step { s with hostProg := .rd idx :: p, sched := .host :: turns } =
      .next { (portRead idx s).2 with
              hostProg := p, sched := turns, trace := s.trace ++ [⟨idx, (portRead idx s).1⟩] }) ∧
    step { s with hostProg := .poll :: p, sched := .host :: turns } =
      .next { s with
              hostProg := if s.pendV then .poll :: p else p, sched := turns, trace := s.trace ++ [⟨1, s.status⟩] } ∧
    step { s with hostProg := .drain :: p, sched := .host :: turns } =
      .next { s with
              outq := s.outq.tail, hostProg := if s.outq = [] then p else .drain :: p, sched := turns,
              trace := s.trace ++ [⟨4, (portRead PortReg.outData.idx s).1⟩] } ∧
    step { s with hostProg := [], sched := .host :: turns } = .next { s with hostProg := [], sched := turns }

/-! ### Command words and the core's step -/

/-- R111, R114: a word decodes to a command exactly when it is that command's word: no operand bit is dropped, no two commands
share a word, and no other word decodes. -/
def Obligations.DecodeAndEncodeAgree : Prop :=
  ∀ (w : Word) (i : Instr), decode w = .ok i ↔ encode i = w

/-- R112, R115: a word is no command exactly when its opcode is above 0x0C or a reserved bit of its opcode's format is set. -/
def Obligations.IllegalWordsAreExactlyReserved : Prop :=
  ∀ w : Word, (∃ e, decode w = .error e) ↔
    0x0C < (w >>> 24).toNat ∨
    ((w >>> 24).toNat ∈ [0x00, 0x01, 0x03, 0x04, 0x08, 0x09, 0x0C] ∧ w &&& 0xFFFFFF#32 ≠ 0) ∨
    ((w >>> 24).toNat ∈ [0x02, 0x06, 0x0A, 0x0B] ∧ w &&& 0xFFFF00#32 ≠ 0) ∨
    ((w >>> 24).toNat = 0x07 ∧ w &&& 0xE00000#32 ≠ 0) ∨
    ((w >>> 24).toNat = 0x05 ∧ w &&& 0xFF0000#32 ≠ 0)

/-- Words written out from R117's table and 95_test_vectors.md decode to the commands they stand for. -/
def Obligations.WrittenWordsDecode : Prop :=
  decode 0x00000000#32 = .ok .nop ∧
  decode 0x02000041#32 = .ok (.count 0x41) ∧
  decode 0x05000342#32 = .ok (.loadc 0x42 3) ∧
  decode 0x060000FF#32 = .ok (.enc 0xFF) ∧
  decode 0x0704000A#32 = .ok (.putb 4 0b1010) ∧
  decode 0x0A000010#32 = .ok (.decb 0x10) ∧
  decode 0x0C000000#32 = .ok .dend

/-- R112, R115: at a core turn a word that is no command raises ILLEGAL (bit 0), pushes nothing and is consumed; nothing else
changes, whatever the FIFO holds. -/
def Obligations.IllegalWordRaisesIllegalOnly : Prop :=
  ∀ (s : State) (turns : List Turn) (e : DecodeError), s.pendV = true → decode s.pendW = .error e →
    step { s with sched := .core :: turns } =
      .next { s with err := s.err ||| 0x001#12, pendV := false, sched := turns }

/-- R262, R263: at a core turn with a command pending and room for what it pushes, the step is the command's meaning on the state
of that moment, after which PEND_V is 0. An empty schedule gives an enabled core the turn (log entry 3). -/
def Obligations.StepRunsTheDecodedCommand : Prop :=
  ∀ (s : State) (turns : List Turn) (i : Instr), s.pendV = true → decode s.pendW = .ok i →
    (emit i { s with sched := turns } ≤ s.params.outDepth - s.outq.length →
      step { s with sched := .core :: turns } =
        (match exec i { s with sched := turns } with
          | .next t => .next { t with pendV := false }
          | .fault r => .fault r
          | .refused r => .refused r)) ∧
    (emit i { s with sched := [] } ≤ s.params.outDepth - s.outq.length →
      step { s with sched := [] } =
        (match exec i { s with sched := [] } with
          | .next t => .next { t with pendV := false }
          | .fault r => .fault r
          | .refused r => .refused r))

/-- R262 and R276: a core turn without room for what the pending command pushes, or with no command pending, changes nothing. -/
def Obligations.CoreHoldsOrIdles : Prop :=
  ∀ (s : State) (turns : List Turn),
    (s.pendV = false → step { s with sched := .core :: turns } = .next { s with sched := turns }) ∧
    (∀ i, decode s.pendW = .ok i → s.params.outDepth - s.outq.length < emit i { s with sched := turns } →
      step { s with sched := .core :: turns } = .next { s with sched := turns })

/-! ### Control and frequency counter -/

/-- R140: NOP changes nothing, and pushes no byte. -/
def Obligations.NopChangesNothing : Prop :=
  ∀ s : State, exec .nop s = .next s ∧ emit .nop s = 0

/-- R141, R291: after CLEAR every core element has the value of R56 but SEL, UP_LIMIT and LD_BITS, which keep theirs; PEND_V returns to
0 at the end of the core's turn (R263). That PEND_W is 0 too rests on R141's corner cases and R291 (log entry 14). R56 gives the
arena's entries no value, and CLEAR does not write them. -/
def Obligations.ClearReturnsToResetValues : Prop :=
  ∀ s : State, ∃ t, exec .clear s = .next t ∧
    t = { State.resetWith s.params with
          node := s.node, sel := s.sel, upLimit := s.upLimit, ldBits := s.ldBits, pendV := s.pendV,
          draws := s.draws, hostProg := s.hostProg, trace := s.trace, sched := s.sched } ∧
    t.err = 0 ∧ t.outq = [] ∧ emit .clear s = 0 ∧
    ∀ turns, s.pendV = true → decode s.pendW = .ok .clear →
      step { s with sched := .core :: turns } = .next { t with pendV := false, sched := turns }

/-- R150: COUNT raises SEQ (bit 11) while a tree exists, FREQ_OVF (bit 2) at 2^32 − 1, and else adds one to its own counter. -/
def Obligations.CountAddsOneOccurrence : Prop :=
  ∀ (sym : Byte) (s : State),
    (s.tstate ≠ .empty → exec (.count sym) s = .next { s with err := s.err ||| 0x800#12 }) ∧
    (s.tstate = .empty → (s.freqAt sym).toNat = 2 ^ 32 - 1 →
      exec (.count sym) s = .next { s with err := s.err ||| 0x004#12 }) ∧
    (s.tstate = .empty → (s.freqAt sym).toNat ≠ 2 ^ 32 - 1 →
      ∃ t, exec (.count sym) s = .next t ∧ t = { s with freq := t.freq } ∧
        (t.freqAt sym).toNat = (s.freqAt sym).toNat + 1 ∧ ∀ o, o ≠ sym → t.freqAt o = s.freqAt o)

/-- R150: the order of COUNT commands does not matter. -/
def Obligations.CountOrderDoesNotMatter : Prop :=
  ∀ (syms others : List Byte) (s : State), syms.Perm others →
    execAll (syms.map .count) s = execAll (others.map .count) s

/-- R151: in every step of the machine a counter keeps its value, or all are cleared to 0, or one counter below 2^32 − 1 grows by
one and the others keep theirs. -/
def Obligations.CountersOnlyGrowOrClear : Prop :=
  ∀ s t : State, step s = .next t →
    (∀ sym, t.freqAt sym = s.freqAt sym) ∨ (∀ sym, t.freqAt sym = 0) ∨
    ∃ sym, (t.freqAt sym).toNat = (s.freqAt sym).toNat + 1 ∧ ∀ o, o ≠ sym → t.freqAt o = s.freqAt o

/-! ### Tree builder and code table -/

/-- R161: `SelectMin` returns a node of Q of least NFREQ: under DETERMINISTIC the one of least index among them, under ANY one of
them whatever the draw, and every one of them for some draw. -/
def Obligations.SelectMinIsLightest : Prop :=
  ∀ (a : Arena) (q : List NodeIdx), q ≠ [] →
    (∀ pol draw, selectMin pol draw a q ∈ q ∧ ∀ j ∈ q, (a.at (selectMin pol draw a q)).nfreq ≤ (a.at j).nfreq) ∧
    (∀ draw, ∀ j ∈ q, (a.at j).nfreq = (a.at (selectMin .deterministic draw a q)).nfreq →
      selectMin .deterministic draw a q ≤ j) ∧
    (∀ i ∈ q, (∀ j ∈ q, (a.at i).nfreq ≤ (a.at j).nfreq) → ∃ draw, selectMin .any draw a q = i)

/-- R160, R163: BUILD of an empty table makes no tree and raises nothing; of a table with one nonzero entry it makes a lone leaf
root, whose symbol gets the code "0". -/
def Obligations.BuildOfNoneOrOneSymbol : Prop :=
  ∀ s : State,
    ((∀ sym, s.freqAt sym = 0) → ∃ t, exec .build s = .next t ∧
      t = { s with nodeCount := 0, rootV := false, root := 0, tstate := .empty, cur := 0, numCodes := 0,
                   clen := t.clen, code := t.code } ∧
      ∀ sym, t.clenAt sym = 0 ∧ t.codeAt sym = []) ∧
    (∀ sym, s.freqAt sym ≠ 0 → (∀ o, o ≠ sym → s.freqAt o = 0) → ∃ t, exec .build s = .next t ∧
      t = { s with nodeCount := 1, rootV := true, root := 0, tstate := .built, cur := 0, numCodes := 1,
                   clen := t.clen, code := t.code, node := t.node } ∧
      t.nodeAt 0 = .leaf sym ((s.freqAt sym).setWidth 40) ∧
      t.codeAt sym = [false] ∧ t.clenAt sym = 1 ∧ ∀ o, o ≠ sym → t.clenAt o = 0 ∧ t.codeAt o = [])

/-- R160, R164 item 3: BUILD always completes, whatever the state and the draws; exactly the symbols with a nonzero count have
codes, NUM_CODES = k and NODE_COUNT = 2k − 1 (0 for k = 0); the cursor is at the root, and nothing but the tree, the code table,
the cursor and the model's draw counter changes. -/
def Obligations.BuildCodesTheCountedSymbols : Prop :=
  ∀ s : State, ∃ t, exec .build s = .next t ∧
    t = { s with node := t.node, nodeCount := t.nodeCount, rootV := t.rootV, root := t.root, tstate := t.tstate,
                 clen := t.clen, code := t.code, numCodes := t.numCodes, cur := t.cur, draws := t.draws } ∧
    (∀ sym, t.clenAt sym ≠ 0 ↔ s.freqAt sym ≠ 0) ∧
    t.numCodes.toNat = s.liveSyms.length ∧
    t.nodeCount.toNat = 2 * s.liveSyms.length - 1 ∧
    (s.liveSyms ≠ [] → t.rootV = true ∧ t.tstate = .built ∧ t.root.val = t.nodeCount.toNat - 1) ∧
    t.cur = t.root

/-- R164 item 1: the codes BUILD makes are prefix-free, under either tie policy. -/
def Obligations.BuildCodesArePrefixFree : Prop :=
  ∀ s t : State, exec .build s = .next t → s.prefixCode t.codeAt

/-- R164 item 2: for at least two symbols the codes BUILD makes have the least weighted path length of all prefix codes, under
either tie policy and whatever the draws. -/
def Obligations.BuildCodesAreMinimal : Prop :=
  ∀ s t : State, exec .build s = .next t → 2 ≤ s.liveSyms.length →
    ∀ c : Byte → Bits, s.prefixCode c → s.weightedLength t.codeAt ≤ s.weightedLength c

/-- R164 item 4: under DETERMINISTIC the tree and the codes are a function of FREQ alone. -/
def Obligations.BuildIsAFunctionOfFreq : Prop :=
  ∀ s s' t t' : State, s.params.tiePolicy = .deterministic → s'.params.tiePolicy = .deterministic →
    s.freq = s'.freq → exec .build s = .next t → exec .build s' = .next t' →
    t.code = t'.code ∧ t.clen = t'.clen ∧ t.numCodes = t'.numCodes ∧ t.nodeCount = t'.nodeCount ∧
    t.rootV = t'.rootV ∧ t.root = t'.root ∧ t.tstate = t'.tstate ∧ t.cur = t'.cur ∧
    ∀ i : NodeIdx, i.val < t.nodeCount.toNat → t.nodeAt i = t'.nodeAt i

/-- R44, R164 item 5: the root's NFREQ is the sum of all counters: no sum of BUILD overflows. -/
def Obligations.BuildRootWeighsTheWholeTable : Prop :=
  ∀ s t : State, exec .build s = .next t → s.liveSyms ≠ [] →
    (t.nodeAt t.root).nfreq.toNat = (allSyms.map (fun sym => (s.freqAt sym).toNat)).sum

/-- R165: TCLR clears the tree, the code table and the cursor, and nothing else. -/
def Obligations.TclrClearsTreeAndCodes : Prop :=
  ∀ s : State, ∃ t, exec .tclr s = .next t ∧
    t = { s with nodeCount := 0, rootV := false, root := 0, tstate := .empty, cur := 0, numCodes := 0,
                 clen := t.clen, code := t.code } ∧
    ∀ sym, t.clenAt sym = 0 ∧ t.codeAt sym = []

/-- R170, R265: LOADC raises SEQ (bit 11) on a BUILT tree, and else LOAD (bit 10) for a length of 0 or a symbol that has a code;
in both cases nothing else changes. -/
def Obligations.LoadcChecksStateThenOperands : Prop :=
  ∀ (sym : Byte) (len : BitVec 8) (s : State),
    (s.tstate = .built → exec (.loadc sym len) s = .next { s with err := s.err ||| 0x800#12 }) ∧
    (s.tstate ≠ .built → len = 0 ∨ s.clenAt sym ≠ 0 →
      exec (.loadc sym len) s = .next { s with err := s.err ||| 0x400#12 })

/-- R170: "all or nothing": LOADC either raises one error bit and changes nothing else, or enters the code and raises nothing; it
changes nothing but the tree, the code table and the cursor. -/
def Obligations.LoadcIsAllOrNothing : Prop :=
  ∀ (sym : Byte) (len : BitVec 8) (s : State),
    exec (.loadc sym len) s = .next { s with err := s.err ||| 0x800#12 } ∨
    exec (.loadc sym len) s = .next { s with err := s.err ||| 0x400#12 } ∨
    ∃ t, exec (.loadc sym len) s = .next t ∧
      t = { s with node := t.node, nodeCount := t.nodeCount, rootV := true, root := t.root, tstate := .loaded,
                   clen := t.clen, code := t.code, numCodes := s.numCodes + 1, cur := t.root } ∧
      t.codeAt sym = (loadBuffer s.ldBits).take len.toNat ∧ t.clenAt sym = len ∧
      ∀ o, o ≠ sym → t.codeAt o = s.codeAt o ∧ t.clenAt o = s.clenAt o

/-- R170: in a state that keeps the tree invariant, LOADC of a legal length and a symbol without a code raises LOAD if the code is a
prefix of an existing one or the other way round, or if the arena would need more than 511 nodes; and else it enters the code. It
needs one node per bit that follows no existing edge, and a root where there is no tree. -/
def Obligations.LoadcTakesExactlyCompatibleCodes : Prop :=
  ∀ (sym : Byte) (len : BitVec 8) (s : State), s.TreeInv → s.tstate ≠ .built → len ≠ 0 → s.clenAt sym = 0 →
    ((∃ o, s.clenAt o ≠ 0 ∧ comparable (s.codeAt o) (loadCode len s)) →
      exec (.loadc sym len) s = .next { s with err := s.err ||| 0x400#12 }) ∧
    (511 < s.nodeCount.toNat + s.newNodes (loadCode len s) →
      exec (.loadc sym len) s = .next { s with err := s.err ||| 0x400#12 }) ∧
    ((∀ o, s.clenAt o ≠ 0 → ¬ comparable (s.codeAt o) (loadCode len s)) →
      s.nodeCount.toNat + s.newNodes (loadCode len s) ≤ 511 →
      ∃ t, exec (.loadc sym len) s = .next t ∧ t.tstate = .loaded ∧ t.rootV = true ∧ t.err = s.err ∧
        t.codeAt sym = loadCode len s ∧ t.clenAt sym = len ∧
        (∀ o, o ≠ sym → t.codeAt o = s.codeAt o ∧ t.clenAt o = s.clenAt o) ∧
        t.numCodes.toNat = s.numCodes.toNat + 1 ∧ t.cur = t.root ∧
        t.nodeCount.toNat = s.nodeCount.toNat + s.newNodes (loadCode len s))

/-! ### Encoder and packer -/

/-- R190, R200: ENC of a symbol without a code raises NO_CODE (bit 3); of one whose code does not fit the bit counter, BITCNT_OVF
(bit 9); no bit is appended and nothing else changes. -/
def Obligations.EncRaisesNoCodeOrOverflow : Prop :=
  ∀ (sym : Byte) (s : State),
    (s.clenAt sym = 0 → exec (.enc sym) s = .next { s with err := s.err ||| 0x008#12 }) ∧
    (s.clenAt sym ≠ 0 → 2 ^ 64 - 1 < s.pkNbits.toNat + (s.codeAt sym).length →
      exec (.enc sym) s = .next { s with err := s.err ||| 0x200#12 })

/-- R190, R200: ENC of a symbol with a code appends the code's bits to the block, most significant bit of each byte first, and
pushes each byte as it fills; only OUTQ, ACC and PK_NBITS change. -/
def Obligations.EncAppendsTheCode : Prop :=
  ∀ (sym : Byte) (s : State), s.PackerInv → s.clenAt sym ≠ 0 →
    s.pkNbits.toNat + (s.codeAt sym).length ≤ 2 ^ 64 - 1 →
    exec (.enc sym) s = .next (appendedBlock (s.codeAt sym) s)

/-- R191: the ENC commands of a sequence append its codes' concatenation, in that order. -/
def Obligations.EncSequenceAppendsConcatenation : Prop :=
  ∀ (S : List Byte) (s : State), s.PackerInv → (∀ x ∈ S, s.clenAt x ≠ 0) →
    s.pkNbits.toNat + (codesOf s S).length ≤ 2 ^ 64 - 1 →
    execAll (S.map .enc) s = .next (appendedBlock (codesOf s S) s)

/-- R205: PUTB raises ILLEGAL (bit 0) for a length of 0 or 17..31, BITCNT_OVF (bit 9) where the bits do not fit the counter, and
else appends VAL[LEN−1] .. VAL[0]; it pushes at most 2 bytes. -/
def Obligations.PutbAppendsItsLowBits : Prop :=
  ∀ (len : BitVec 5) (val : BitVec 16) (s : State),
    (len.toNat = 0 ∨ 17 ≤ len.toNat → exec (.putb len val) s = .next { s with err := s.err ||| 0x001#12 }) ∧
    (1 ≤ len.toNat → len.toNat ≤ 16 → 2 ^ 64 - 1 < s.pkNbits.toNat + len.toNat →
      exec (.putb len val) s = .next { s with err := s.err ||| 0x200#12 }) ∧
    (s.PackerInv → 1 ≤ len.toNat → len.toNat ≤ 16 → s.pkNbits.toNat + len.toNat ≤ 2 ^ 64 - 1 →
      ∃ bits t, bits.length = len.toNat ∧ (∀ j, j < len.toNat → bits[j]? = some (val.getLsbD (len.toNat - 1 - j))) ∧
        exec (.putb len val) s = .next t ∧ t = appendedBlock bits s ∧
        t.outq.length = s.outq.length + (s.pkNbits.toNat % 8 + len.toNat) / 8 ∧
        t.outq.length ≤ s.outq.length + 2)

/-- R207: FLUSH pushes the partial byte, if there is one, latches the exact bit count and starts a new block. -/
def Obligations.FlushClosesTheBlock : Prop :=
  ∀ s : State,
    (s.pkNbits.toNat % 8 = 0 → exec .flush s = .next { s with pkTotal := s.pkNbits, pkNbits := 0, acc := 0 }) ∧
    (s.pkNbits.toNat % 8 ≠ 0 → exec .flush s =
      .next { s with outq := s.outq ++ [s.acc], pkTotal := s.pkNbits, pkNbits := 0, acc := 0 })

/-- R201: the bits appended to an empty block by any split into ENC and PUTB commands, then FLUSH, come out as `ceil(n/8)` bytes,
bit `7 − (j mod 8)` of byte `j div 8` being bit j and every other bit 0, with PK_TOTAL = n. -/
def Obligations.PackingIsExact : Prop :=
  ∀ (cmds : List Instr) (s : State), s.pkNbits = 0 → s.acc = 0 → (∀ i ∈ cmds, appends s i = true) →
    (cmds.flatMap (appendedBits s)).length ≤ 2 ^ 64 - 1 →
    ∃ t, execAll (cmds ++ [.flush]) s = .next t ∧
      ∃ bytes : List Byte, t = { s with outq := s.outq ++ bytes, pkTotal := t.pkTotal } ∧
        t.pkTotal.toNat = (cmds.flatMap (appendedBits s)).length ∧
        bytes.length = ((cmds.flatMap (appendedBits s)).length + 7) / 8 ∧
        ∀ k b, bytes[k]? = some b → ∀ j, j < 8 →
          b.getLsbD (7 - j) = (cmds.flatMap (appendedBits s)).getD (8 * k + j) false

/-! ### Unpacker -/

/-- R220: USTART latches UP_LIMIT, starts at bit 0, clears UP_RAW and puts the cursor at the root; nothing else changes. -/
def Obligations.UstartLatchesTheLimit : Prop :=
  ∀ s : State, exec .ustart s =
    .next { s with upEnd := s.upLimit, upPos := 0, upRawB := 0, upRawN := 0, cur := s.root }

/-- R221, R222: URAW raises EXCESS (bit 6) when the block is complete; else it delivers min(8, UP_END − UP_POS) bits, keeps them
in place in UP_RAWB and forces the padding below them to 0. -/
def Obligations.UrawKeepsTheValidBits : Prop :=
  ∀ (byte : Byte) (s : State),
    (s.upPos = s.upEnd → exec (.uraw byte) s = .next { s with err := s.err ||| 0x040#12 }) ∧
    (s.upPos.toNat < s.upEnd.toNat → ∃ t, exec (.uraw byte) s = .next t ∧
      t = { s with upPos := t.upPos, upRawB := t.upRawB, upRawN := t.upRawN } ∧
      t.upRawN.toNat = min 8 (s.upEnd.toNat - s.upPos.toNat) ∧
      t.upPos.toNat = s.upPos.toNat + min 8 (s.upEnd.toNat - s.upPos.toNat) ∧
      ∀ j, j < 8 → t.upRawB.getLsbD j =
        (decide (8 - min 8 (s.upEnd.toNat - s.upPos.toNat) ≤ j) && byte.getLsbD j))

/-- R223: the packed form of any bit string, supplied by URAW after USTART with its exact length, gives the string back, raises no
error, and a DEND after it raises none. -/
def Obligations.UnpackingInvertsPacking : Prop :=
  ∀ (B : Bits) (s : State), B.length ≤ 2 ^ 64 - 1 → s.upLimit.toNat = B.length →
    ∃ t0 t t1, exec .ustart s = .next t0 ∧ urawAll (packedBytes B) t0 = some (B, t) ∧ t.err = s.err ∧
      t.upPos.toNat = B.length ∧ t.upEnd.toNat = B.length ∧ exec .dend t = .next t1 ∧ t1.err = s.err

/-! ### Decoder -/

/-- R240: one bit at a cursor on an internal node: an absent child raises BAD_CODE (bit 5) and returns to the root, a leaf pushes
its symbol and returns to the root, an internal child becomes the cursor. -/
def Obligations.DecodeBitWalksOneEdge : Prop :=
  ∀ (b : Bool) (s : State) (f : BitVec 40) (l r : Option NodeIdx),
    (s.nodeAt s.root).isLeaf = false → s.nodeAt s.cur = .internal f l r →
    ((if b then r else l) = none → decodeBit b s = some { s with err := s.err ||| 0x020#12, cur := s.root }) ∧
    (∀ ch sym g, (if b then r else l) = some ch → s.nodeAt ch = .leaf sym g →
      decodeBit b s = some { s with outq := s.outq ++ [sym], cur := s.root }) ∧
    (∀ ch, (if b then r else l) = some ch → (s.nodeAt ch).isLeaf = false → decodeBit b s = some { s with cur := ch })

/-- R241: with a lone leaf root every valid bit of the byte, whatever its value, pushes the root's symbol. -/
def Obligations.DecbOfALoneLeafRepeatsIt : Prop :=
  ∀ (byte sym : Byte) (f : BitVec 40) (s : State), s.rootV = true → s.nodeAt s.root = .leaf sym f →
    s.upPos.toNat < s.upEnd.toNat →
    ∃ t, exec (.decb byte) s = .next t ∧ t = { s with upPos := t.upPos, outq := t.outq } ∧
      t.upPos.toNat = s.upPos.toNat + min 8 (s.upEnd.toNat - s.upPos.toNat) ∧
      t.outq = s.outq ++ List.replicate (min 8 (s.upEnd.toNat - s.upPos.toNat)) sym

/-- R246: DECB raises EXCESS (bit 6) when the block is complete and changes nothing else; with bits to deliver and no tree it
consumes them and raises NO_TREE (bit 4). -/
def Obligations.DecbRaisesExcessOrNoTree : Prop :=
  ∀ (byte : Byte) (s : State),
    (s.upPos = s.upEnd → exec (.decb byte) s = .next { s with err := s.err ||| 0x040#12 }) ∧
    (s.upPos.toNat < s.upEnd.toNat → s.rootV = false →
      ∃ t, exec (.decb byte) s = .next t ∧ t = { s with upPos := t.upPos, err := s.err ||| 0x010#12 } ∧
        t.upPos.toNat = s.upPos.toNat + min 8 (s.upEnd.toNat - s.upPos.toNat))

/-- R246, R247: with bits to deliver, a tree, and the cursor where R51 says it is, DECB completes: it consumes its valid bits,
pushes the symbols of the leaves it reaches, at most one per bit, and raises at most BAD_CODE (bit 5); it is the walk of R240 over
the valid bits, from bit 7 down. -/
def Obligations.DecbDecodesItsValidBits : Prop :=
  ∀ (byte : Byte) (s : State), s.upPos.toNat < s.upEnd.toNat → s.rootV = true →
    ((s.nodeAt s.root).isLeaf = true ∨ (s.nodeAt s.cur).isLeaf = false) →
    ∃ t bits out, exec (.decb byte) s = .next t ∧
      t = { s with upPos := t.upPos, outq := s.outq ++ out, cur := t.cur, err := t.err } ∧
      t.upPos.toNat = s.upPos.toNat + min 8 (s.upEnd.toNat - s.upPos.toNat) ∧
      bits.length = min 8 (s.upEnd.toNat - s.upPos.toNat) ∧
      (∀ j, j < bits.length → bits[j]? = some (byte.getLsbD (7 - j))) ∧
      decodeBits bits { s with upPos := t.upPos } = some t ∧
      out.length ≤ bits.length ∧ (t.err = s.err ∨ t.err = s.err ||| 0x020#12)

/-- R240: BAD_CODE never arises from a BUILT tree. -/
def Obligations.BuiltTreeNeverGivesBadCode : Prop :=
  ∀ (byte : Byte) (s : State), s.TreeInv → s.tstate = .built → s.upPos.toNat < s.upEnd.toNat →
    ∃ t, exec (.decb byte) s = .next t ∧ t.err = s.err

/-- R248: DEND raises SHORT (bit 7) if fewer bits were supplied than declared, TRUNC (bit 8) if a tree exists and the cursor is
not at its root, both or neither; it returns the cursor to the root and changes nothing else. -/
def Obligations.DendChecksCompleteness : Prop :=
  ∀ s : State, ∃ t, exec .dend s = .next t ∧ t = { s with cur := s.root, err := t.err } ∧
    (s.upPos.toNat < s.upEnd.toNat → s.rootV = true → s.cur ≠ s.root → t.err = s.err ||| 0x180#12) ∧
    (s.upPos.toNat < s.upEnd.toNat → s.rootV = false ∨ s.cur = s.root → t.err = s.err ||| 0x080#12) ∧
    (s.upEnd.toNat ≤ s.upPos.toNat → s.rootV = true → s.cur ≠ s.root → t.err = s.err ||| 0x100#12) ∧
    (s.upEnd.toNat ≤ s.upPos.toNat → s.rootV = false ∨ s.cur = s.root → t.err = s.err)

/-- R249: a block made from a symbol sequence by its codes decodes, with the tree the codes came from (BUILT or LOADED), to exactly
that sequence, and nothing is raised. -/
def Obligations.DecodingReturnsTheSequence : Prop :=
  ∀ (S : List Byte) (s : State), s.TreeInv → s.rootV = true → (∀ x ∈ S, s.clenAt x ≠ 0) →
    (codesOf s S).length ≤ 2 ^ 64 - 1 → s.upLimit.toNat = (codesOf s S).length →
    ∃ t, execAll (decompressCmds (packedBytes (codesOf s S))) s = .next t ∧
      t.outq = s.outq ++ S ∧ t.err = s.err ∧ t.upPos = t.upEnd

/-- R192: the round trip, from any state, under either tie policy: a byte sequence in which no byte occurs 2^32 times or more (a
counter would saturate and COUNT raise FREQ_OVF, R151), counted, built, encoded and flushed, raises no error, and its packed bytes,
decoded with the retained tree and the latched bit count, give it back and raise none; the empty sequence and a sequence of one
repeated byte are no exceptions. -/
def Obligations.CompressThenDecompressRoundTrips : Prop :=
  ∀ (S : List Byte) (s : State), (∀ b, S.count b < 2 ^ 32) →
    ∃ t u, execAll (compressCmds S) s = .next t ∧ t.err = 0 ∧
      execAll (decompressCmds t.outq) { t with upLimit := t.pkTotal, outq := [] } = .next u ∧
      u.outq = S ∧ u.err = 0

/-! ### The whole machine -/

/-- R262, R195, R247: `Emit` is the number of bytes a command pushes, and it is at most 32; CLEAR empties the FIFO instead. -/
def Obligations.EmitCountsThePushedBytes : Prop :=
  ∀ (i : Instr) (s t : State), (∀ sym, (s.codeAt sym).length = (s.clenAt sym).toNat) → exec i s = .next t →
    emit i s ≤ 32 ∧ (i ≠ .clear → t.outq.length = s.outq.length + emit i s)

/-- R33, R264: an error bit, once set, stays set through every command but CLEAR and through every port write but a write of 1
to it; that write clears it. -/
def Obligations.ErrorBitsAreSticky : Prop :=
  (∀ (i : Instr) (s t : State) (e : ErrBit), i ≠ .clear → exec i s = .next t → e.isSet s.err = true →
    e.isSet t.err = true) ∧
  (∀ (idx : RegIdx) (v : Word) (s : State) (e : ErrBit), e.isSet s.err = true →
    idx ≠ PortReg.err.idx ∨ v.getLsbD e.num = false → e.isSet (portWrite idx v s).err = true) ∧
  (∀ (v : Word) (s : State) (e : ErrBit), v.getLsbD e.num = true →
    e.isSet (portWrite PortReg.err.idx v s).err = false)

/-- R264: a command raises only the error bits its row of the table names. -/
def Obligations.ErrorBitsComeFromTheirCommands : Prop :=
  ∀ (i : Instr) (s t : State) (e : ErrBit), exec i s = .next t → e.isSet s.err = false → e.isSet t.err = true →
    mayRaise e i = true

/-- R37 to R41, R47, R49 to R51, R53: what no command but the named ones writes. No command writes the operand registers, PEND_V, the
parameters or the host's side, and none but CLEAR writes PEND_W (log entry 14); the counters are COUNT's and CLEAR's; PK_TOTAL is
FLUSH's and CLEAR's; the tree and the code table are the tree builder's and CLEAR's; the packer, the unpacker, the cursor and the
FIFO are their own commands'; the model's draw counter is BUILD's. -/
def Obligations.CommandsWriteOnlyTheirUnits : Prop :=
  ∀ (i : Instr) (s t : State), exec i s = .next t →
    (t.sel = s.sel ∧ t.upLimit = s.upLimit ∧ t.ldBits = s.ldBits ∧ t.pendV = s.pendV ∧
      t.params = s.params ∧ t.hostProg = s.hostProg ∧ t.trace = s.trace ∧ t.sched = s.sched) ∧
    (i ≠ .clear → t.pendW = s.pendW) ∧
    ((∀ sym, i ≠ .count sym) → i ≠ .clear → t.freq = s.freq) ∧
    (i ≠ .flush → i ≠ .clear → t.pkTotal = s.pkTotal) ∧
    (i ≠ .build → i ≠ .tclr → i ≠ .clear → (∀ sym len, i ≠ .loadc sym len) →
      t.node = s.node ∧ t.nodeCount = s.nodeCount ∧ t.rootV = s.rootV ∧ t.root = s.root ∧ t.tstate = s.tstate ∧
      t.code = s.code ∧ t.clen = s.clen ∧ t.numCodes = s.numCodes) ∧
    ((∀ sym, i ≠ .enc sym) → (∀ len val, i ≠ .putb len val) → i ≠ .flush → i ≠ .clear →
      t.acc = s.acc ∧ t.pkNbits = s.pkNbits) ∧
    ((∀ b, i ≠ .decb b) → (∀ b, i ≠ .uraw b) → i ≠ .ustart → i ≠ .clear → t.upPos = s.upPos) ∧
    ((∀ b, i ≠ .uraw b) → i ≠ .ustart → i ≠ .clear → t.upRawB = s.upRawB ∧ t.upRawN = s.upRawN) ∧
    (i ≠ .ustart → i ≠ .clear → t.upEnd = s.upEnd) ∧
    (i ≠ .build → i ≠ .tclr → (∀ sym len, i ≠ .loadc sym len) → i ≠ .clear → i ≠ .ustart → (∀ b, i ≠ .decb b) → i ≠ .dend →
      t.cur = s.cur) ∧
    ((∀ sym, i ≠ .enc sym) → (∀ len val, i ≠ .putb len val) → i ≠ .flush → (∀ b, i ≠ .decb b) → i ≠ .clear →
      t.outq = s.outq) ∧
    (i ≠ .build → t.draws = s.draws)

/-- R55: the state after reset meets the invariants. -/
def Obligations.ResetMeetsTheInvariant : Prop :=
  ∀ p : Params, (State.resetWith p).Inv

/-- R55 items 1 to 4, R47, R48, R51: every step of the machine keeps the invariant of the tree, the code table and the cursor. -/
def Obligations.StepKeepsTheTreeInvariant : Prop :=
  ∀ s t : State, s.TreeInv → step s = .next t → t.TreeInv

/-- R55 item 5, R49, R50: every step keeps ACC's unfilled bits 0 and UP_POS at or below UP_END. -/
def Obligations.StepKeepsPackerAndUnpackerInvariants : Prop :=
  ∀ s t : State, s.PackerInv → s.UnpackerInv → step s = .next t → t.PackerInv ∧ t.UnpackerInv

/-- R40: every step keeps the FIFO within OUT_DEPTH bytes; the premise R47 is part of the tree invariant. -/
def Obligations.StepKeepsTheFifoBound : Prop :=
  ∀ s t : State, (∀ sym, (s.codeAt sym).length = (s.clenAt sym).toNat) → s.FifoInv → step s = .next t →
    t.FifoInv ∧ t.params = s.params

/-- R264: the core "never stops": from every state that keeps the tree invariant the machine takes a next step, whatever the
turn, the pending word and the FIFO. -/
def Obligations.MachineNeverStops : Prop :=
  ∀ s : State, s.TreeInv → ∃ t, step s = .next t

/-- R42, R43: arena entries at or above NODE_COUNT are read by no rule: two states that differ only there step to states that
differ only there. -/
def Obligations.UnusedArenaEntriesAreNeverRead : Prop :=
  ∀ s t : State, s.TreeInv → s.sameInUse t →
    ∃ s' t', step s = .next s' ∧ step t = .next t' ∧ s'.sameInUse t'
end

