-- ==== Sys2Proof/Laws/State.lean ====
section
/-! SUPPORT. One lemma per field per update of the state, and the table and arena reads after a write. -/

namespace Sys2Proof.Machine

/-! ### `setFreq` -/

@[simp] theorem setFreq_pendV (s : State) (sym : Byte) (v : BitVec 32) : (s.setFreq sym v).pendV = s.pendV := rfl
@[simp] theorem setFreq_pendW (s : State) (sym : Byte) (v : BitVec 32) : (s.setFreq sym v).pendW = s.pendW := rfl
@[simp] theorem setFreq_err (s : State) (sym : Byte) (v : BitVec 32) : (s.setFreq sym v).err = s.err := rfl
@[simp] theorem setFreq_outq (s : State) (sym : Byte) (v : BitVec 32) : (s.setFreq sym v).outq = s.outq := rfl
@[simp] theorem setFreq_node (s : State) (sym : Byte) (v : BitVec 32) : (s.setFreq sym v).node = s.node := rfl
@[simp] theorem setFreq_nodeCount (s : State) (sym : Byte) (v : BitVec 32) : (s.setFreq sym v).nodeCount = s.nodeCount := rfl
@[simp] theorem setFreq_rootV (s : State) (sym : Byte) (v : BitVec 32) : (s.setFreq sym v).rootV = s.rootV := rfl
@[simp] theorem setFreq_root (s : State) (sym : Byte) (v : BitVec 32) : (s.setFreq sym v).root = s.root := rfl
@[simp] theorem setFreq_tstate (s : State) (sym : Byte) (v : BitVec 32) : (s.setFreq sym v).tstate = s.tstate := rfl
@[simp] theorem setFreq_clen (s : State) (sym : Byte) (v : BitVec 32) : (s.setFreq sym v).clen = s.clen := rfl
@[simp] theorem setFreq_code (s : State) (sym : Byte) (v : BitVec 32) : (s.setFreq sym v).code = s.code := rfl
@[simp] theorem setFreq_numCodes (s : State) (sym : Byte) (v : BitVec 32) : (s.setFreq sym v).numCodes = s.numCodes := rfl
@[simp] theorem setFreq_acc (s : State) (sym : Byte) (v : BitVec 32) : (s.setFreq sym v).acc = s.acc := rfl
@[simp] theorem setFreq_pkNbits (s : State) (sym : Byte) (v : BitVec 32) : (s.setFreq sym v).pkNbits = s.pkNbits := rfl
@[simp] theorem setFreq_pkTotal (s : State) (sym : Byte) (v : BitVec 32) : (s.setFreq sym v).pkTotal = s.pkTotal := rfl
@[simp] theorem setFreq_upEnd (s : State) (sym : Byte) (v : BitVec 32) : (s.setFreq sym v).upEnd = s.upEnd := rfl
@[simp] theorem setFreq_upPos (s : State) (sym : Byte) (v : BitVec 32) : (s.setFreq sym v).upPos = s.upPos := rfl
@[simp] theorem setFreq_upRawB (s : State) (sym : Byte) (v : BitVec 32) : (s.setFreq sym v).upRawB = s.upRawB := rfl
@[simp] theorem setFreq_upRawN (s : State) (sym : Byte) (v : BitVec 32) : (s.setFreq sym v).upRawN = s.upRawN := rfl
@[simp] theorem setFreq_cur (s : State) (sym : Byte) (v : BitVec 32) : (s.setFreq sym v).cur = s.cur := rfl
@[simp] theorem setFreq_sel (s : State) (sym : Byte) (v : BitVec 32) : (s.setFreq sym v).sel = s.sel := rfl
@[simp] theorem setFreq_upLimit (s : State) (sym : Byte) (v : BitVec 32) : (s.setFreq sym v).upLimit = s.upLimit := rfl
@[simp] theorem setFreq_ldBits (s : State) (sym : Byte) (v : BitVec 32) : (s.setFreq sym v).ldBits = s.ldBits := rfl
@[simp] theorem setFreq_params (s : State) (sym : Byte) (v : BitVec 32) : (s.setFreq sym v).params = s.params := rfl
@[simp] theorem setFreq_draws (s : State) (sym : Byte) (v : BitVec 32) : (s.setFreq sym v).draws = s.draws := rfl
@[simp] theorem setFreq_hostProg (s : State) (sym : Byte) (v : BitVec 32) : (s.setFreq sym v).hostProg = s.hostProg := rfl
@[simp] theorem setFreq_trace (s : State) (sym : Byte) (v : BitVec 32) : (s.setFreq sym v).trace = s.trace := rfl
@[simp] theorem setFreq_sched (s : State) (sym : Byte) (v : BitVec 32) : (s.setFreq sym v).sched = s.sched := rfl

/-! ### `setCode` -/

@[simp] theorem setCode_pendV (s : State) (sym : Byte) (p : Bits) : (s.setCode sym p).pendV = s.pendV := rfl
@[simp] theorem setCode_pendW (s : State) (sym : Byte) (p : Bits) : (s.setCode sym p).pendW = s.pendW := rfl
@[simp] theorem setCode_err (s : State) (sym : Byte) (p : Bits) : (s.setCode sym p).err = s.err := rfl
@[simp] theorem setCode_outq (s : State) (sym : Byte) (p : Bits) : (s.setCode sym p).outq = s.outq := rfl
@[simp] theorem setCode_freq (s : State) (sym : Byte) (p : Bits) : (s.setCode sym p).freq = s.freq := rfl
@[simp] theorem setCode_node (s : State) (sym : Byte) (p : Bits) : (s.setCode sym p).node = s.node := rfl
@[simp] theorem setCode_nodeCount (s : State) (sym : Byte) (p : Bits) : (s.setCode sym p).nodeCount = s.nodeCount := rfl
@[simp] theorem setCode_rootV (s : State) (sym : Byte) (p : Bits) : (s.setCode sym p).rootV = s.rootV := rfl
@[simp] theorem setCode_root (s : State) (sym : Byte) (p : Bits) : (s.setCode sym p).root = s.root := rfl
@[simp] theorem setCode_tstate (s : State) (sym : Byte) (p : Bits) : (s.setCode sym p).tstate = s.tstate := rfl
@[simp] theorem setCode_numCodes (s : State) (sym : Byte) (p : Bits) : (s.setCode sym p).numCodes = s.numCodes := rfl
@[simp] theorem setCode_acc (s : State) (sym : Byte) (p : Bits) : (s.setCode sym p).acc = s.acc := rfl
@[simp] theorem setCode_pkNbits (s : State) (sym : Byte) (p : Bits) : (s.setCode sym p).pkNbits = s.pkNbits := rfl
@[simp] theorem setCode_pkTotal (s : State) (sym : Byte) (p : Bits) : (s.setCode sym p).pkTotal = s.pkTotal := rfl
@[simp] theorem setCode_upEnd (s : State) (sym : Byte) (p : Bits) : (s.setCode sym p).upEnd = s.upEnd := rfl
@[simp] theorem setCode_upPos (s : State) (sym : Byte) (p : Bits) : (s.setCode sym p).upPos = s.upPos := rfl
@[simp] theorem setCode_upRawB (s : State) (sym : Byte) (p : Bits) : (s.setCode sym p).upRawB = s.upRawB := rfl
@[simp] theorem setCode_upRawN (s : State) (sym : Byte) (p : Bits) : (s.setCode sym p).upRawN = s.upRawN := rfl
@[simp] theorem setCode_cur (s : State) (sym : Byte) (p : Bits) : (s.setCode sym p).cur = s.cur := rfl
@[simp] theorem setCode_sel (s : State) (sym : Byte) (p : Bits) : (s.setCode sym p).sel = s.sel := rfl
@[simp] theorem setCode_upLimit (s : State) (sym : Byte) (p : Bits) : (s.setCode sym p).upLimit = s.upLimit := rfl
@[simp] theorem setCode_ldBits (s : State) (sym : Byte) (p : Bits) : (s.setCode sym p).ldBits = s.ldBits := rfl
@[simp] theorem setCode_params (s : State) (sym : Byte) (p : Bits) : (s.setCode sym p).params = s.params := rfl
@[simp] theorem setCode_draws (s : State) (sym : Byte) (p : Bits) : (s.setCode sym p).draws = s.draws := rfl
@[simp] theorem setCode_hostProg (s : State) (sym : Byte) (p : Bits) : (s.setCode sym p).hostProg = s.hostProg := rfl
@[simp] theorem setCode_trace (s : State) (sym : Byte) (p : Bits) : (s.setCode sym p).trace = s.trace := rfl
@[simp] theorem setCode_sched (s : State) (sym : Byte) (p : Bits) : (s.setCode sym p).sched = s.sched := rfl

/-! ### `raise` -/

@[simp] theorem raise_pendV (e : ErrBit) (s : State) : (raise e s).pendV = s.pendV := rfl
@[simp] theorem raise_pendW (e : ErrBit) (s : State) : (raise e s).pendW = s.pendW := rfl
@[simp] theorem raise_err (e : ErrBit) (s : State) : (raise e s).err = s.err ||| e.mask := rfl
@[simp] theorem raise_outq (e : ErrBit) (s : State) : (raise e s).outq = s.outq := rfl
@[simp] theorem raise_freq (e : ErrBit) (s : State) : (raise e s).freq = s.freq := rfl
@[simp] theorem raise_node (e : ErrBit) (s : State) : (raise e s).node = s.node := rfl
@[simp] theorem raise_nodeCount (e : ErrBit) (s : State) : (raise e s).nodeCount = s.nodeCount := rfl
@[simp] theorem raise_rootV (e : ErrBit) (s : State) : (raise e s).rootV = s.rootV := rfl
@[simp] theorem raise_root (e : ErrBit) (s : State) : (raise e s).root = s.root := rfl
@[simp] theorem raise_tstate (e : ErrBit) (s : State) : (raise e s).tstate = s.tstate := rfl
@[simp] theorem raise_clen (e : ErrBit) (s : State) : (raise e s).clen = s.clen := rfl
@[simp] theorem raise_code (e : ErrBit) (s : State) : (raise e s).code = s.code := rfl
@[simp] theorem raise_numCodes (e : ErrBit) (s : State) : (raise e s).numCodes = s.numCodes := rfl
@[simp] theorem raise_acc (e : ErrBit) (s : State) : (raise e s).acc = s.acc := rfl
@[simp] theorem raise_pkNbits (e : ErrBit) (s : State) : (raise e s).pkNbits = s.pkNbits := rfl
@[simp] theorem raise_pkTotal (e : ErrBit) (s : State) : (raise e s).pkTotal = s.pkTotal := rfl
@[simp] theorem raise_upEnd (e : ErrBit) (s : State) : (raise e s).upEnd = s.upEnd := rfl
@[simp] theorem raise_upPos (e : ErrBit) (s : State) : (raise e s).upPos = s.upPos := rfl
@[simp] theorem raise_upRawB (e : ErrBit) (s : State) : (raise e s).upRawB = s.upRawB := rfl
@[simp] theorem raise_upRawN (e : ErrBit) (s : State) : (raise e s).upRawN = s.upRawN := rfl
@[simp] theorem raise_cur (e : ErrBit) (s : State) : (raise e s).cur = s.cur := rfl
@[simp] theorem raise_sel (e : ErrBit) (s : State) : (raise e s).sel = s.sel := rfl
@[simp] theorem raise_upLimit (e : ErrBit) (s : State) : (raise e s).upLimit = s.upLimit := rfl
@[simp] theorem raise_ldBits (e : ErrBit) (s : State) : (raise e s).ldBits = s.ldBits := rfl
@[simp] theorem raise_params (e : ErrBit) (s : State) : (raise e s).params = s.params := rfl
@[simp] theorem raise_draws (e : ErrBit) (s : State) : (raise e s).draws = s.draws := rfl
@[simp] theorem raise_hostProg (e : ErrBit) (s : State) : (raise e s).hostProg = s.hostProg := rfl
@[simp] theorem raise_trace (e : ErrBit) (s : State) : (raise e s).trace = s.trace := rfl
@[simp] theorem raise_sched (e : ErrBit) (s : State) : (raise e s).sched = s.sched := rfl

/-! ### `clearErrors` -/

@[simp] theorem clearErrors_pendV (v : Word) (s : State) : (clearErrors v s).pendV = s.pendV := rfl
@[simp] theorem clearErrors_pendW (v : Word) (s : State) : (clearErrors v s).pendW = s.pendW := rfl
@[simp] theorem clearErrors_err (v : Word) (s : State) : (clearErrors v s).err = s.err &&& ~~~(v.setWidth 12) := rfl
@[simp] theorem clearErrors_outq (v : Word) (s : State) : (clearErrors v s).outq = s.outq := rfl
@[simp] theorem clearErrors_freq (v : Word) (s : State) : (clearErrors v s).freq = s.freq := rfl
@[simp] theorem clearErrors_node (v : Word) (s : State) : (clearErrors v s).node = s.node := rfl
@[simp] theorem clearErrors_nodeCount (v : Word) (s : State) : (clearErrors v s).nodeCount = s.nodeCount := rfl
@[simp] theorem clearErrors_rootV (v : Word) (s : State) : (clearErrors v s).rootV = s.rootV := rfl
@[simp] theorem clearErrors_root (v : Word) (s : State) : (clearErrors v s).root = s.root := rfl
@[simp] theorem clearErrors_tstate (v : Word) (s : State) : (clearErrors v s).tstate = s.tstate := rfl
@[simp] theorem clearErrors_clen (v : Word) (s : State) : (clearErrors v s).clen = s.clen := rfl
@[simp] theorem clearErrors_code (v : Word) (s : State) : (clearErrors v s).code = s.code := rfl
@[simp] theorem clearErrors_numCodes (v : Word) (s : State) : (clearErrors v s).numCodes = s.numCodes := rfl
@[simp] theorem clearErrors_acc (v : Word) (s : State) : (clearErrors v s).acc = s.acc := rfl
@[simp] theorem clearErrors_pkNbits (v : Word) (s : State) : (clearErrors v s).pkNbits = s.pkNbits := rfl
@[simp] theorem clearErrors_pkTotal (v : Word) (s : State) : (clearErrors v s).pkTotal = s.pkTotal := rfl
@[simp] theorem clearErrors_upEnd (v : Word) (s : State) : (clearErrors v s).upEnd = s.upEnd := rfl
@[simp] theorem clearErrors_upPos (v : Word) (s : State) : (clearErrors v s).upPos = s.upPos := rfl
@[simp] theorem clearErrors_upRawB (v : Word) (s : State) : (clearErrors v s).upRawB = s.upRawB := rfl
@[simp] theorem clearErrors_upRawN (v : Word) (s : State) : (clearErrors v s).upRawN = s.upRawN := rfl
@[simp] theorem clearErrors_cur (v : Word) (s : State) : (clearErrors v s).cur = s.cur := rfl
@[simp] theorem clearErrors_sel (v : Word) (s : State) : (clearErrors v s).sel = s.sel := rfl
@[simp] theorem clearErrors_upLimit (v : Word) (s : State) : (clearErrors v s).upLimit = s.upLimit := rfl
@[simp] theorem clearErrors_ldBits (v : Word) (s : State) : (clearErrors v s).ldBits = s.ldBits := rfl
@[simp] theorem clearErrors_params (v : Word) (s : State) : (clearErrors v s).params = s.params := rfl
@[simp] theorem clearErrors_draws (v : Word) (s : State) : (clearErrors v s).draws = s.draws := rfl
@[simp] theorem clearErrors_hostProg (v : Word) (s : State) : (clearErrors v s).hostProg = s.hostProg := rfl
@[simp] theorem clearErrors_trace (v : Word) (s : State) : (clearErrors v s).trace = s.trace := rfl
@[simp] theorem clearErrors_sched (v : Word) (s : State) : (clearErrors v s).sched = s.sched := rfl

/-! ### `outPush` -/

@[simp] theorem outPush_pendV (b : Byte) (s : State) : (outPush b s).pendV = s.pendV := rfl
@[simp] theorem outPush_pendW (b : Byte) (s : State) : (outPush b s).pendW = s.pendW := rfl
@[simp] theorem outPush_err (b : Byte) (s : State) : (outPush b s).err = s.err := rfl
@[simp] theorem outPush_outq (b : Byte) (s : State) : (outPush b s).outq = s.outq ++ [b] := rfl
@[simp] theorem outPush_freq (b : Byte) (s : State) : (outPush b s).freq = s.freq := rfl
@[simp] theorem outPush_node (b : Byte) (s : State) : (outPush b s).node = s.node := rfl
@[simp] theorem outPush_nodeCount (b : Byte) (s : State) : (outPush b s).nodeCount = s.nodeCount := rfl
@[simp] theorem outPush_rootV (b : Byte) (s : State) : (outPush b s).rootV = s.rootV := rfl
@[simp] theorem outPush_root (b : Byte) (s : State) : (outPush b s).root = s.root := rfl
@[simp] theorem outPush_tstate (b : Byte) (s : State) : (outPush b s).tstate = s.tstate := rfl
@[simp] theorem outPush_clen (b : Byte) (s : State) : (outPush b s).clen = s.clen := rfl
@[simp] theorem outPush_code (b : Byte) (s : State) : (outPush b s).code = s.code := rfl
@[simp] theorem outPush_numCodes (b : Byte) (s : State) : (outPush b s).numCodes = s.numCodes := rfl
@[simp] theorem outPush_acc (b : Byte) (s : State) : (outPush b s).acc = s.acc := rfl
@[simp] theorem outPush_pkNbits (b : Byte) (s : State) : (outPush b s).pkNbits = s.pkNbits := rfl
@[simp] theorem outPush_pkTotal (b : Byte) (s : State) : (outPush b s).pkTotal = s.pkTotal := rfl
@[simp] theorem outPush_upEnd (b : Byte) (s : State) : (outPush b s).upEnd = s.upEnd := rfl
@[simp] theorem outPush_upPos (b : Byte) (s : State) : (outPush b s).upPos = s.upPos := rfl
@[simp] theorem outPush_upRawB (b : Byte) (s : State) : (outPush b s).upRawB = s.upRawB := rfl
@[simp] theorem outPush_upRawN (b : Byte) (s : State) : (outPush b s).upRawN = s.upRawN := rfl
@[simp] theorem outPush_cur (b : Byte) (s : State) : (outPush b s).cur = s.cur := rfl
@[simp] theorem outPush_sel (b : Byte) (s : State) : (outPush b s).sel = s.sel := rfl
@[simp] theorem outPush_upLimit (b : Byte) (s : State) : (outPush b s).upLimit = s.upLimit := rfl
@[simp] theorem outPush_ldBits (b : Byte) (s : State) : (outPush b s).ldBits = s.ldBits := rfl
@[simp] theorem outPush_params (b : Byte) (s : State) : (outPush b s).params = s.params := rfl
@[simp] theorem outPush_draws (b : Byte) (s : State) : (outPush b s).draws = s.draws := rfl
@[simp] theorem outPush_hostProg (b : Byte) (s : State) : (outPush b s).hostProg = s.hostProg := rfl
@[simp] theorem outPush_trace (b : Byte) (s : State) : (outPush b s).trace = s.trace := rfl
@[simp] theorem outPush_sched (b : Byte) (s : State) : (outPush b s).sched = s.sched := rfl

/-! ### `unpackAdvance` -/

@[simp] theorem unpackAdvance_pendV (s : State) : (unpackAdvance s).pendV = s.pendV := rfl
@[simp] theorem unpackAdvance_pendW (s : State) : (unpackAdvance s).pendW = s.pendW := rfl
@[simp] theorem unpackAdvance_err (s : State) : (unpackAdvance s).err = s.err := rfl
@[simp] theorem unpackAdvance_outq (s : State) : (unpackAdvance s).outq = s.outq := rfl
@[simp] theorem unpackAdvance_freq (s : State) : (unpackAdvance s).freq = s.freq := rfl
@[simp] theorem unpackAdvance_node (s : State) : (unpackAdvance s).node = s.node := rfl
@[simp] theorem unpackAdvance_nodeCount (s : State) : (unpackAdvance s).nodeCount = s.nodeCount := rfl
@[simp] theorem unpackAdvance_rootV (s : State) : (unpackAdvance s).rootV = s.rootV := rfl
@[simp] theorem unpackAdvance_root (s : State) : (unpackAdvance s).root = s.root := rfl
@[simp] theorem unpackAdvance_tstate (s : State) : (unpackAdvance s).tstate = s.tstate := rfl
@[simp] theorem unpackAdvance_clen (s : State) : (unpackAdvance s).clen = s.clen := rfl
@[simp] theorem unpackAdvance_code (s : State) : (unpackAdvance s).code = s.code := rfl
@[simp] theorem unpackAdvance_numCodes (s : State) : (unpackAdvance s).numCodes = s.numCodes := rfl
@[simp] theorem unpackAdvance_acc (s : State) : (unpackAdvance s).acc = s.acc := rfl
@[simp] theorem unpackAdvance_pkNbits (s : State) : (unpackAdvance s).pkNbits = s.pkNbits := rfl
@[simp] theorem unpackAdvance_pkTotal (s : State) : (unpackAdvance s).pkTotal = s.pkTotal := rfl
@[simp] theorem unpackAdvance_upEnd (s : State) : (unpackAdvance s).upEnd = s.upEnd := rfl
@[simp] theorem unpackAdvance_upPos (s : State) : (unpackAdvance s).upPos = s.upPos + BitVec.ofNat 64 s.upValid := rfl
@[simp] theorem unpackAdvance_upRawB (s : State) : (unpackAdvance s).upRawB = s.upRawB := rfl
@[simp] theorem unpackAdvance_upRawN (s : State) : (unpackAdvance s).upRawN = s.upRawN := rfl
@[simp] theorem unpackAdvance_cur (s : State) : (unpackAdvance s).cur = s.cur := rfl
@[simp] theorem unpackAdvance_sel (s : State) : (unpackAdvance s).sel = s.sel := rfl
@[simp] theorem unpackAdvance_upLimit (s : State) : (unpackAdvance s).upLimit = s.upLimit := rfl
@[simp] theorem unpackAdvance_ldBits (s : State) : (unpackAdvance s).ldBits = s.ldBits := rfl
@[simp] theorem unpackAdvance_params (s : State) : (unpackAdvance s).params = s.params := rfl
@[simp] theorem unpackAdvance_draws (s : State) : (unpackAdvance s).draws = s.draws := rfl
@[simp] theorem unpackAdvance_hostProg (s : State) : (unpackAdvance s).hostProg = s.hostProg := rfl
@[simp] theorem unpackAdvance_trace (s : State) : (unpackAdvance s).trace = s.trace := rfl
@[simp] theorem unpackAdvance_sched (s : State) : (unpackAdvance s).sched = s.sched := rfl

/-! ### `treeClear` -/

@[simp] theorem treeClear_pendV (s : State) : (treeClear s).pendV = s.pendV := rfl
@[simp] theorem treeClear_pendW (s : State) : (treeClear s).pendW = s.pendW := rfl
@[simp] theorem treeClear_err (s : State) : (treeClear s).err = s.err := rfl
@[simp] theorem treeClear_outq (s : State) : (treeClear s).outq = s.outq := rfl
@[simp] theorem treeClear_freq (s : State) : (treeClear s).freq = s.freq := rfl
@[simp] theorem treeClear_node (s : State) : (treeClear s).node = s.node := rfl
@[simp] theorem treeClear_nodeCount (s : State) : (treeClear s).nodeCount = 0 := rfl
@[simp] theorem treeClear_rootV (s : State) : (treeClear s).rootV = false := rfl
@[simp] theorem treeClear_root (s : State) : (treeClear s).root = 0 := rfl
@[simp] theorem treeClear_tstate (s : State) : (treeClear s).tstate = .empty := rfl
@[simp] theorem treeClear_clen (s : State) : (treeClear s).clen = Vector.replicate 256 0 := rfl
@[simp] theorem treeClear_code (s : State) : (treeClear s).code = Vector.replicate 256 [] := rfl
@[simp] theorem treeClear_numCodes (s : State) : (treeClear s).numCodes = 0 := rfl
@[simp] theorem treeClear_acc (s : State) : (treeClear s).acc = s.acc := rfl
@[simp] theorem treeClear_pkNbits (s : State) : (treeClear s).pkNbits = s.pkNbits := rfl
@[simp] theorem treeClear_pkTotal (s : State) : (treeClear s).pkTotal = s.pkTotal := rfl
@[simp] theorem treeClear_upEnd (s : State) : (treeClear s).upEnd = s.upEnd := rfl
@[simp] theorem treeClear_upPos (s : State) : (treeClear s).upPos = s.upPos := rfl
@[simp] theorem treeClear_upRawB (s : State) : (treeClear s).upRawB = s.upRawB := rfl
@[simp] theorem treeClear_upRawN (s : State) : (treeClear s).upRawN = s.upRawN := rfl
@[simp] theorem treeClear_cur (s : State) : (treeClear s).cur = 0 := rfl
@[simp] theorem treeClear_sel (s : State) : (treeClear s).sel = s.sel := rfl
@[simp] theorem treeClear_upLimit (s : State) : (treeClear s).upLimit = s.upLimit := rfl
@[simp] theorem treeClear_ldBits (s : State) : (treeClear s).ldBits = s.ldBits := rfl
@[simp] theorem treeClear_params (s : State) : (treeClear s).params = s.params := rfl
@[simp] theorem treeClear_draws (s : State) : (treeClear s).draws = s.draws := rfl
@[simp] theorem treeClear_hostProg (s : State) : (treeClear s).hostProg = s.hostProg := rfl
@[simp] theorem treeClear_trace (s : State) : (treeClear s).trace = s.trace := rfl
@[simp] theorem treeClear_sched (s : State) : (treeClear s).sched = s.sched := rfl

/-! ### `retire` -/

@[simp] theorem retire_pendV (s : State) : (retire s).pendV = false := rfl
@[simp] theorem retire_pendW (s : State) : (retire s).pendW = s.pendW := rfl
@[simp] theorem retire_err (s : State) : (retire s).err = s.err := rfl
@[simp] theorem retire_outq (s : State) : (retire s).outq = s.outq := rfl
@[simp] theorem retire_freq (s : State) : (retire s).freq = s.freq := rfl
@[simp] theorem retire_node (s : State) : (retire s).node = s.node := rfl
@[simp] theorem retire_nodeCount (s : State) : (retire s).nodeCount = s.nodeCount := rfl
@[simp] theorem retire_rootV (s : State) : (retire s).rootV = s.rootV := rfl
@[simp] theorem retire_root (s : State) : (retire s).root = s.root := rfl
@[simp] theorem retire_tstate (s : State) : (retire s).tstate = s.tstate := rfl
@[simp] theorem retire_clen (s : State) : (retire s).clen = s.clen := rfl
@[simp] theorem retire_code (s : State) : (retire s).code = s.code := rfl
@[simp] theorem retire_numCodes (s : State) : (retire s).numCodes = s.numCodes := rfl
@[simp] theorem retire_acc (s : State) : (retire s).acc = s.acc := rfl
@[simp] theorem retire_pkNbits (s : State) : (retire s).pkNbits = s.pkNbits := rfl
@[simp] theorem retire_pkTotal (s : State) : (retire s).pkTotal = s.pkTotal := rfl
@[simp] theorem retire_upEnd (s : State) : (retire s).upEnd = s.upEnd := rfl
@[simp] theorem retire_upPos (s : State) : (retire s).upPos = s.upPos := rfl
@[simp] theorem retire_upRawB (s : State) : (retire s).upRawB = s.upRawB := rfl
@[simp] theorem retire_upRawN (s : State) : (retire s).upRawN = s.upRawN := rfl
@[simp] theorem retire_cur (s : State) : (retire s).cur = s.cur := rfl
@[simp] theorem retire_sel (s : State) : (retire s).sel = s.sel := rfl
@[simp] theorem retire_upLimit (s : State) : (retire s).upLimit = s.upLimit := rfl
@[simp] theorem retire_ldBits (s : State) : (retire s).ldBits = s.ldBits := rfl
@[simp] theorem retire_params (s : State) : (retire s).params = s.params := rfl
@[simp] theorem retire_draws (s : State) : (retire s).draws = s.draws := rfl
@[simp] theorem retire_hostProg (s : State) : (retire s).hostProg = s.hostProg := rfl
@[simp] theorem retire_trace (s : State) : (retire s).trace = s.trace := rfl
@[simp] theorem retire_sched (s : State) : (retire s).sched = s.sched := rfl

/-! ### Table and arena reads -/

@[simp] theorem freqAt_setFreq_same (s : State) (sym : Byte) (v : BitVec 32) : (s.setFreq sym v).freqAt sym = v := by
  simp [State.freqAt, State.setFreq]

theorem freqAt_setFreq_other (s : State) (sym o : Byte) (v : BitVec 32) (h : o ≠ sym) :
    (s.setFreq sym v).freqAt o = s.freqAt o := by
  have hne : sym.toNat ≠ o.toNat := fun hh => h (BitVec.eq_of_toNat_eq hh.symm)
  simp [State.freqAt, State.setFreq, Vector.getElem_set_ne _ _ hne]

@[simp] theorem codeAt_setCode_same (s : State) (sym : Byte) (p : Bits) : (s.setCode sym p).codeAt sym = p := by
  simp [State.codeAt, State.setCode]

@[simp] theorem clenAt_setCode_same (s : State) (sym : Byte) (p : Bits) :
    (s.setCode sym p).clenAt sym = BitVec.ofNat 8 p.length := by
  simp [State.clenAt, State.setCode]

theorem codeAt_setCode_other (s : State) (sym o : Byte) (p : Bits) (h : o ≠ sym) :
    (s.setCode sym p).codeAt o = s.codeAt o := by
  have hne : sym.toNat ≠ o.toNat := fun hh => h (BitVec.eq_of_toNat_eq hh.symm)
  simp [State.codeAt, State.setCode, Vector.getElem_set_ne _ _ hne]

theorem clenAt_setCode_other (s : State) (sym o : Byte) (p : Bits) (h : o ≠ sym) :
    (s.setCode sym p).clenAt o = s.clenAt o := by
  have hne : sym.toNat ≠ o.toNat := fun hh => h (BitVec.eq_of_toNat_eq hh.symm)
  simp [State.clenAt, State.setCode, Vector.getElem_set_ne _ _ hne]

@[simp] theorem Arena.at_put_same (a : Arena) (i : NodeIdx) (n : Node) : (a.put i n).at i = n := by
  simp [Arena.at, Arena.put]

theorem Arena.at_put_other (a : Arena) (i j : NodeIdx) (n : Node) (h : j ≠ i) : (a.put i n).at j = a.at j := by
  have hne : i.val ≠ j.val := fun hh => h (Fin.ext hh.symm)
  simp [Arena.at, Arena.put, Vector.getElem_set_ne _ _ hne]

@[simp] theorem treeClear_clenAt (s : State) (sym : Byte) : (treeClear s).clenAt sym = 0 := by
  simp [State.clenAt, treeClear]

@[simp] theorem treeClear_codeAt (s : State) (sym : Byte) : (treeClear s).codeAt sym = [] := by
  simp [State.codeAt, treeClear]

theorem mem_allSyms (sym : Byte) : sym ∈ allSyms :=
  List.mem_map.mpr ⟨sym.toNat, List.mem_range.mpr (byte_lt_nsym sym), by simp⟩

theorem allSyms_length : allSyms.length = 256 := by simp [allSyms]

theorem allSyms_nodup : allSyms.Nodup := by
  refine List.Nodup.map_on ?_ List.nodup_range
  intro a ha b hb h
  have := congrArg BitVec.toNat h
  simp only [List.mem_range, BitVec.toNat_ofNat] at *
  omega

theorem mem_liveSyms (s : State) (sym : Byte) : sym ∈ s.liveSyms ↔ s.freqAt sym ≠ 0 := by
  simp [State.liveSyms, mem_allSyms]

theorem liveSyms_nodup (s : State) : s.liveSyms.Nodup := allSyms_nodup.filter _

theorem liveSyms_length_le (s : State) : s.liveSyms.length ≤ 256 :=
  (List.length_filter_le _ _).trans allSyms_length.le

@[simp] theorem idxOf_val (n : Nat) (h : n < Config.nodeCap) : (idxOf n).val = n := Nat.mod_eq_of_lt h

end Sys2Proof.Machine
end

