-- ==== Sys2Proof/Laws/Errors.lean ====
section
/-! SUPPORT. Raising and clearing error bits (spec/60_exceptions.md R264 to R268). -/

namespace Sys2Proof.Machine

theorem ErrBit.num_lt (e : ErrBit) : e.num < 12 := by cases e <;> decide

theorem ErrBit.num_injective {e f : ErrBit} (h : e.num = f.num) : e = f := by
  cases e <;> cases f <;> first | rfl | exact absurd h (by decide)

theorem ErrBit.isSet_mask (e f : ErrBit) : f.isSet e.mask = decide (f = e) := by
  cases e <;> cases f <;> decide

theorem ErrBit.isSet_or (e : ErrBit) (a b : BitVec 12) : e.isSet (a ||| b) = (e.isSet a || e.isSet b) :=
  BitVec.getLsbD_or

/-- Raising a bit sets that bit and keeps the others (R268: "simply sets its own bit"). -/
theorem isSet_raise (e f : ErrBit) (s : State) : f.isSet (raise e s).err = (f.isSet s.err || decide (f = e)) := by
  rw [raise_err, ErrBit.isSet_or, ErrBit.isSet_mask]

/-- A second occurrence of a set bit is not counted (R268). -/
theorem raise_twice (e : ErrBit) (s : State) : raise e (raise e s) = raise e s := by
  simp [raise, BitVec.or_assoc]

/-- The order in which two bits are raised does not matter. -/
theorem raise_comm (e f : ErrBit) (s : State) : raise e (raise f s) = raise f (raise e s) := by
  simp only [raise, BitVec.or_assoc, BitVec.or_comm e.mask]

/-! The ERR value of every bit, as R33 numbers them. -/

theorem raise_illegal (s : State) : raise .illegal s = { s with err := s.err ||| 0x001#12 } := rfl
theorem raise_overrun (s : State) : raise .overrun s = { s with err := s.err ||| 0x002#12 } := rfl
theorem raise_freqOvf (s : State) : raise .freqOvf s = { s with err := s.err ||| 0x004#12 } := rfl
theorem raise_noCode (s : State) : raise .noCode s = { s with err := s.err ||| 0x008#12 } := rfl
theorem raise_noTree (s : State) : raise .noTree s = { s with err := s.err ||| 0x010#12 } := rfl
theorem raise_badCode (s : State) : raise .badCode s = { s with err := s.err ||| 0x020#12 } := rfl
theorem raise_excess (s : State) : raise .excess s = { s with err := s.err ||| 0x040#12 } := rfl
theorem raise_short (s : State) : raise .short s = { s with err := s.err ||| 0x080#12 } := rfl
theorem raise_trunc (s : State) : raise .trunc s = { s with err := s.err ||| 0x100#12 } := rfl
theorem raise_bitcntOvf (s : State) : raise .bitcntOvf s = { s with err := s.err ||| 0x200#12 } := rfl
theorem raise_load (s : State) : raise .load s = { s with err := s.err ||| 0x400#12 } := rfl
theorem raise_seq (s : State) : raise .seq s = { s with err := s.err ||| 0x800#12 } := rfl

end Sys2Proof.Machine
end

