-- ==== Sys2Proof/Laws/Operands.lean ====
section
/-! SUPPORT. The bit strings of the operands: their lengths and their bits (spec/30_encoding.md R113, spec/45_unpacker.md R221,
spec/10_state.md R39), and the bits of the byte helpers. -/

namespace Sys2Proof.Machine

@[simp] theorem putbBits_length (len : Nat) (val : BitVec 16) : (putbBits len val).length = len := by simp [putbBits]

@[simp] theorem byteBits_length (nv : Nat) (b : Byte) : (byteBits nv b).length = nv := by simp [byteBits]

@[simp] theorem wordBits_length (w : Word) : (wordBits w).length = 32 := by simp [wordBits]

theorem putbBits_getElem? (len : Nat) (val : BitVec 16) (j : Nat) (h : j < len) :
    (putbBits len val)[j]? = some (val.getLsbD (len - 1 - j)) := by
  simp [putbBits, h]

theorem byteBits_getElem? (nv : Nat) (b : Byte) (j : Nat) (h : j < nv) :
    (byteBits nv b)[j]? = some (b.getLsbD (7 - j)) := by
  simp [byteBits, h]

theorem wordBits_getElem? (w : Word) (j : Nat) (h : j < 32) : (wordBits w)[j]? = some (w.getLsbD (31 - j)) := by
  simp [wordBits, h]

theorem wordBits_flatMap_length (ws : List Word) : (ws.flatMap wordBits).length = 32 * ws.length := by
  induction ws with
  | nil => rfl
  | cons w ws ih => simp only [List.flatMap_cons, List.length_append, wordBits_length, List.length_cons, ih]; omega

@[simp] theorem loadBuffer_length (ld : Vector Word 8) : (loadBuffer ld).length = 256 := by
  rw [loadBuffer, wordBits_flatMap_length, Vector.length_toList]

theorem loadCode_length (len : BitVec 8) (s : State) : (loadCode len s).length = len.toNat := by
  have := len.isLt
  simp only [loadCode, List.length_take, loadBuffer_length]
  omega

/-- A byte after `setBit`: the bit set has the new value and the others keep theirs. -/
theorem setBit_getLsbD (a : Byte) (pos j : Nat) (b : Bool) (h : j < 8) :
    (setBit a pos b).getLsbD j = if j = pos then b else a.getLsbD j := by
  cases b <;> simp only [setBit, Bool.false_eq_true, if_false, if_true] <;> by_cases hj : j = pos <;>
    simp [hj, BitVec.getLsbD_twoPow] <;> omega

theorem maskByte_getLsbD (nv : Nat) (b : Byte) (j : Nat) (h : j < 8) :
    (maskByte nv b).getLsbD j = (decide (8 - nv ≤ j) && b.getLsbD j) := by
  by_cases hn : 8 - nv ≤ j
  · have : ¬ j < 8 - nv := by omega
    have hlt : j - (8 - nv) < 8 := by omega
    have hff : (0xFF#8).getLsbD (j - (8 - nv)) = true := by
      generalize j - (8 - nv) = m at hlt ⊢
      interval_cases m <;> rfl
    simp [maskByte, h, hn, this, hff]
  · have : j < 8 - nv := by omega
    simp [maskByte, hn, this]

/-- Two bytes with the same eight bits are equal. -/
theorem byte_ext {a b : Byte} (h : ∀ j, j < 8 → a.getLsbD j = b.getLsbD j) : a = b :=
  BitVec.eq_of_getLsbD_eq fun j hj => h j hj

/-- A fold that sets the bits of a byte, seen bit by bit. -/
theorem setBits_getLsbD (f : Nat → Bool) (n : Nat) (hn : n ≤ 8) (j : Nat) (hj : j < 8) :
    ((List.range n).foldl (fun a k => setBit a (7 - k) (f k)) (0 : Byte)).getLsbD (7 - j) =
      (decide (j < n) && f j) := by
  induction n with
  | zero => simp
  | succ n ih =>
    rw [List.range_succ, List.foldl_append, List.foldl_cons, List.foldl_nil, setBit_getLsbD _ _ _ _ (by omega),
      ih (by omega)]
    by_cases h : j = n
    · simp [h]
    · have h1 : 7 - j ≠ 7 - n := by omega
      have h2 : (j < n + 1) ↔ (j < n) := by omega
      simp [h1, h2]

/-- Bit `7 − j` of byte `k` of the packed form is bit `8k + j` of the string (R201). -/
theorem packedByte_getLsbD (B : Bits) (k j : Nat) (hj : j < 8) :
    (packedByte B k).getLsbD (7 - j) = B.getD (8 * k + j) false := by
  have h := setBits_getLsbD (fun j => B.getD (8 * k + j) false) 8 (by omega) j hj
  rw [decide_eq_true hj, Bool.true_and] at h
  exact h

@[simp] theorem packedBytes_length (B : Bits) : (packedBytes B).length = (B.length + 7) / 8 := by simp [packedBytes]

/-- A byte sequence is at most 256 times as long as its commonest byte is frequent: what bounds a run whose counters fit (R192). -/
theorem length_le_of_count_le {S : List Byte} {n : Nat} (h : ∀ b, S.count b ≤ n) : S.length ≤ 256 * n := by
  have key : ∀ ks T : List Byte, (∀ b, T.count b ≤ n) → (∀ b ∈ T, b ∈ ks) → T.length ≤ ks.length * n := by
    intro ks
    induction ks with
    | nil =>
      intro T _ hT
      have : T = [] := List.eq_nil_iff_forall_not_mem.mpr fun b hb => by simpa using hT b hb
      simp [this]
    | cons k ks ih =>
      intro T hc hT
      have hrest := ih (T.filter (fun b => decide (b ≠ k)))
        (fun b => Nat.le_trans ((List.filter_sublist).count_le b) (hc b))
        (fun b hb => by
          obtain ⟨hb, hk⟩ := List.mem_filter.mp hb
          exact (List.mem_cons.mp (hT b hb)).resolve_left (by simpa using hk))
      have hsplit : T.length = T.count k + (T.filter (fun b => decide (b ≠ k))).length := by
        rw [List.count_eq_length_filter, List.length_eq_length_filter_add (fun b => b == k)]
        simp [BEq.beq]
      have := hc k
      rw [List.length_cons, Nat.succ_mul]
      omega
  have := key allSyms S h (fun b _ => by
    simp only [allSyms, List.mem_map, List.mem_range]
    exact ⟨b.toNat, b.isLt, by simp⟩)
  simpa [allSyms] using this

end Sys2Proof.Machine
end

