-- ==== Sys2Proof/Laws/Packer.lean ====
section
/-! SUPPORT. What the packer's append primitive can do (spec/44_packer.md R200): its frame, its count, and its split. -/

namespace Sys2Proof.Machine

theorem packBit_eq (b : Bool) (s : State) :
    packBit b s =
      if (s.pkNbits + 1).toNat % 8 = 0 then
        { s with
          outq := s.outq ++ [setBit s.acc (7 - s.pkNbits.toNat % 8) b]
          acc := 0
          pkNbits := s.pkNbits + 1 }
      else { s with acc := setBit s.acc (7 - s.pkNbits.toNat % 8) b, pkNbits := s.pkNbits + 1 } := rfl

/-- One appended bit changes ACC, PK_NBITS and OUTQ alone, and counts one bit. -/
theorem packBit_frame (b : Bool) (s : State) :
    ∃ a q, packBit b s = { s with acc := a, pkNbits := s.pkNbits + 1, outq := s.outq ++ q } := by
  rw [packBit_eq]
  split
  · exact ⟨_, _, rfl⟩
  · exact ⟨setBit s.acc (7 - s.pkNbits.toNat % 8) b, [], by rw [List.append_nil]⟩

/-- Appending a bit string changes ACC, PK_NBITS and OUTQ alone, and counts its bits. -/
theorem packAll_frame (c : Bits) (s : State) :
    ∃ a q, packAll c s = { s with acc := a, pkNbits := s.pkNbits + BitVec.ofNat 64 c.length, outq := s.outq ++ q } := by
  induction c generalizing s with
  | nil => exact ⟨s.acc, [], by simp [packAll]⟩
  | cons b bs ih =>
    obtain ⟨a, q, h⟩ := packBit_frame b s
    obtain ⟨a', q', h'⟩ := ih (packBit b s)
    refine ⟨a', q ++ q', ?_⟩
    have hlen : BitVec.ofNat 64 (bs.length + 1) = 1 + BitVec.ofNat 64 bs.length := by
      rw [BitVec.ofNat_add, BitVec.add_comm]; rfl
    rw [packAll, h', h]
    rw [List.length_cons, hlen, ← BitVec.add_assoc, List.append_assoc]

theorem packAll_append (c d : Bits) (s : State) : packAll (c ++ d) s = packAll d (packAll c s) := by
  induction c generalizing s with
  | nil => rfl
  | cons b bs ih => exact ih _

/-- `PackBits` either appends everything or raises BITCNT_OVF and appends nothing (R200). -/
theorem packBits_cases (c : Bits) (s : State) :
    (s.pkNbits.toNat + c.length ≤ Config.bitCountMax ∧ packBits c s = packAll c s) ∨
    (Config.bitCountMax < s.pkNbits.toNat + c.length ∧ packBits c s = raise .bitcntOvf s) := by
  unfold packBits State.packFits
  by_cases h : s.pkNbits.toNat + c.length ≤ Config.bitCountMax
  · exact .inl ⟨h, by simp [h]⟩
  · exact .inr ⟨by omega, by simp [h]⟩

/-- The count of a block after an append that fits. -/
theorem packAll_pkNbits_toNat (c : Bits) (s : State) (h : s.pkNbits.toNat + c.length ≤ Config.bitCountMax) :
    (packAll c s).pkNbits.toNat = s.pkNbits.toNat + c.length := by
  obtain ⟨a, q, e⟩ := packAll_frame c s
  have hmax : Config.bitCountMax = 2 ^ 64 - 1 := rfl
  rw [e]
  simp only [BitVec.toNat_add, BitVec.toNat_ofNat]
  omega

end Sys2Proof.Machine
end

