-- ==== Sys2Proof/Laws/Port.lean ====
section
/-! SUPPORT. What a host access can do (spec/20_memory.md R82 to R86). -/

namespace Sys2Proof.Machine

/-- A read changes the FIFO alone. -/
theorem portRead_frame (idx : RegIdx) (s : State) : ∃ q, (portRead idx s).2 = { s with outq := q } ∧
    (q = s.outq ∨ q = s.outq.tail) := by
  unfold portRead
  cases regAt idx with
  | none => exact ⟨s.outq, rfl, .inl rfl⟩
  | some r =>
    by_cases h : r = .outData
    · exact ⟨s.outq.tail, by simp [readEffect, h], .inr rfl⟩
    · exact ⟨s.outq, by simp [readEffect, h], .inl rfl⟩

/-- A write changes ERR, the latch and the operand registers alone. -/
theorem portWrite_frame (idx : RegIdx) (v : Word) (s : State) :
    ∃ t : State, portWrite idx v s =
      { s with
        err := t.err
        pendV := t.pendV
        pendW := t.pendW
        sel := t.sel
        upLimit := t.upLimit
        ldBits := t.ldBits } := by
  refine ⟨portWrite idx v s, ?_⟩
  unfold portWrite
  cases regAt idx with
  | none => rfl
  | some r => cases r <;> first | rfl | (unfold writeReg writeCmd; dsimp only; split <;> rfl)

/-- A host turn keeps everything but the FIFO, ERR, the latch, the operand registers and the host's own side. -/
theorem hostStep_frame (s : State) :
    ∃ t : State, hostStep s =
      { s with
        outq := t.outq
        err := t.err
        pendV := t.pendV
        pendW := t.pendW
        sel := t.sel
        upLimit := t.upLimit
        ldBits := t.ldBits
        hostProg := t.hostProg
        trace := t.trace } := by
  refine ⟨hostStep s, ?_⟩
  have hrd : ∀ (idx : RegIdx) (u : State), ∃ q, hostReadIdx idx u =
      { u with outq := q, trace := u.trace ++ [⟨idx, (portRead idx u).1⟩] } := by
    intro idx u
    obtain ⟨q, hq, -⟩ := portRead_frame idx u
    exact ⟨q, by rw [hostReadIdx, hq]⟩
  have hrd' : ∀ (r : PortReg) (u : State), hostRead r u = hostReadIdx r.idx u := fun _ _ => rfl
  unfold hostStep
  split
  · rfl
  · rename_i idx v rest _
    obtain ⟨t, ht⟩ := portWrite_frame idx v { s with hostProg := rest }
    rw [ht]
  · rename_i idx rest _
    obtain ⟨q, hq⟩ := hrd idx { s with hostProg := rest }
    rw [hq]
  · rename_i rest _
    simp only [hrd']
    split
    · obtain ⟨q, hq⟩ := hrd PortReg.status.idx s
      rw [hq]
    · obtain ⟨q, hq⟩ := hrd PortReg.status.idx { s with hostProg := rest }
      rw [hq]
  · rename_i rest _
    simp only [hrd']
    split
    · obtain ⟨q, hq⟩ := hrd PortReg.outData.idx s
      rw [hq]
    · obtain ⟨q, hq⟩ := hrd PortReg.outData.idx { s with hostProg := rest }
      rw [hq]

/-- A read removes the head of the FIFO at OUT_DATA and changes nothing elsewhere (R35, R86). -/
theorem portRead_snd (idx : RegIdx) (s : State) :
    (portRead idx s).2 = if idx = PortReg.outData.idx then { s with outq := s.outq.tail } else s := by
  have hmap : ∀ idx : RegIdx, regAt idx = some .outData ↔ idx = PortReg.outData.idx := by decide
  have h := hmap idx
  unfold portRead
  cases hr : regAt idx with
  | none =>
    rw [hr] at h
    rw [if_neg (fun hi => by simp at h; exact h hi)]
  | some r =>
    rw [hr, Option.some.injEq] at h
    simp only [readEffect, h]

/-- STATUS bit 0 is BUSY (R32). -/
theorem status_busy (s : State) : s.status.getLsbD 0 = s.pendV := by
  unfold State.status
  rw [BitVec.getLsbD_append]
  simp

/-- OUT_DATA bit 8 is VALID (R35). -/
theorem outData_valid (s : State) : (readReg .outData s).getLsbD 8 = true ↔ s.outq ≠ [] := by
  unfold readReg
  cases s.outq with
  | nil => simp
  | cons b q => simp only [BitVec.getLsbD_append]; simp

/-- While a command is pending no write changes the latch (R85). -/
theorem portWrite_pending (idx : RegIdx) (v : Word) {s : State} (h : s.pendV = true) :
    (portWrite idx v s).pendV = true ∧ (portWrite idx v s).pendW = s.pendW := by
  unfold portWrite
  cases regAt idx with
  | none => exact ⟨h, rfl⟩
  | some r => cases r <;> simp [writeReg, writeCmd, clearErrors, raise, h]

/-- A FIFO level below 2^32 reads as the number of bytes (R35). -/
theorem levelWord_toNat {n : Nat} (h : n < 2 ^ 32) : (levelWord n).toNat = n := by
  rw [levelWord, if_pos h, BitVec.toNat_ofNat, Nat.mod_eq_of_lt h]

end Sys2Proof.Machine
end

