-- ==== Sys2Proof/Laws/Tree.lean ====
section
/-! SUPPORT. What the tree builder's operations can do (spec/42_tree.md): their frames, their counts, and the cases of
LOADC's walk. -/

namespace Sys2Proof.Machine

/-! ### BUILD -/

/-- Filling in codes changes CODE and CLEN alone. -/
theorem genCodes_frame (depth : Nat) (i : NodeIdx) (p : Bits) (s : State) :
    ∃ c l, genCodes depth i p s = { s with code := c, clen := l } := by
  induction depth generalizing i p s with
  | zero => exact ⟨s.code, s.clen, rfl⟩
  | succ depth ih =>
    unfold genCodes
    cases s.nodeAt i with
    | leaf sym f => exact ⟨_, _, rfl⟩
    | internal f l r =>
      cases l with
      | none =>
        cases r with
        | none => exact ⟨s.code, s.clen, rfl⟩
        | some k => exact ih k _ s
      | some j =>
        obtain ⟨c, n, hj⟩ := ih j (p ++ [false]) s
        cases r with
        | none => exact ⟨c, n, hj⟩
        | some k =>
          obtain ⟨c', n', hk⟩ := ih k (p ++ [true]) (genCodes depth j (p ++ [false]) s)
          exact ⟨c', n', by simp only [hk]; rw [hj]⟩

@[simp] theorem genCodes_node (depth : Nat) (i : NodeIdx) (p : Bits) (s : State) :
    (genCodes depth i p s).node = s.node := by
  obtain ⟨c, l, h⟩ := genCodes_frame depth i p s
  rw [h]

/-- A merge takes the next free index. -/
@[simp] theorem mergeOnce_fresh (pol : TiePolicy) (draw : Nat → Nat) (m : Merge) :
    (mergeOnce pol draw m).fresh = m.fresh + 1 := rfl

/-- `SelectMin` of a nonempty collection finds a node of least frequency, so the lightest are not none. -/
theorem lightest_ne_nil (a : Arena) (i : NodeIdx) (q : List NodeIdx) : lightest a (i :: q) ≠ [] := by
  have key : ∀ (q : List NodeIdx) (i : NodeIdx), ∃ j ∈ i :: q, (a.at j).nfreq = minNfreq a i q := by
    intro q
    induction q with
    | nil => exact fun i => ⟨i, by simp, rfl⟩
    | cons j rest ih =>
      intro i
      unfold minNfreq
      dsimp only
      split
      · exact ⟨i, by simp, rfl⟩
      · obtain ⟨k, hk, h⟩ := ih j
        exact ⟨k, List.mem_cons_of_mem _ hk, h⟩
  obtain ⟨j, hj, h⟩ := key q i
  intro hnil
  have : j ∈ lightest a (i :: q) := by simp only [lightest, List.mem_filter, hj, h, decide_true, and_self]
  simp [hnil] at this

/-- The lightest nodes are nodes of the collection. -/
theorem mem_of_mem_lightest {a : Arena} {q : List NodeIdx} {j : NodeIdx} (h : j ∈ lightest a q) : j ∈ q := by
  cases q with
  | nil => simp [lightest] at h
  | cons i rest => exact (List.mem_filter.mp h).1

theorem leastIdx_mem (i : NodeIdx) (q : List NodeIdx) : leastIdx i q ∈ i :: q := by
  induction q generalizing i with
  | nil => simp [leastIdx]
  | cons j rest ih =>
    rw [leastIdx]
    rcases min_choice i (leastIdx j rest) with h | h <;> rw [h]
    · simp
    · exact List.mem_cons_of_mem _ (ih j)

/-- `SelectMin` returns a node of a nonempty collection, under either policy and whatever the draw (R161). -/
theorem selectMin_mem (pol : TiePolicy) (draw : Nat) (a : Arena) (q : List NodeIdx) (h : q ≠ []) :
    selectMin pol draw a q ∈ q := by
  unfold selectMin
  cases hl : lightest a q with
  | nil =>
    cases q with
    | nil => exact absurd rfl h
    | cons i rest => exact absurd hl (lightest_ne_nil a i rest)
  | cons i rest =>
    apply mem_of_mem_lightest (a := a)
    rw [hl]
    cases pol with
    | deterministic => exact leastIdx_mem i rest
    | any =>
      have hlt : draw % (rest.length + 1) < (i :: rest).length := Nat.mod_lt _ (Nat.succ_pos _)
      simp only [List.getD_eq_getElem?_getD, List.getElem?_eq_getElem hlt, Option.getD_some]
      exact List.getElem_mem hlt

/-- A merge of at least two nodes makes the collection one shorter. -/
theorem mergeOnce_queue_length (pol : TiePolicy) (draw : Nat → Nat) (m : Merge) (h : 1 < m.queue.length) :
    (mergeOnce pol draw m).queue.length = m.queue.length - 1 := by
  have ha := selectMin_mem pol (draw m.draws) m.arena m.queue (by intro hn; simp [hn] at h)
  have hl := List.length_erase_of_mem ha
  have hb := selectMin_mem pol (draw (m.draws + 1)) m.arena (m.queue.erase (selectMin pol (draw m.draws) m.arena m.queue))
    (by intro hn; rw [hn] at hl; simp at hl; omega)
  have hl' := List.length_erase_of_mem hb
  simp only [mergeOnce, List.length_append, List.length_singleton, hl', hl]
  omega

/-- The merge engine ends with one node left, having taken one free index per merge (R161). -/
theorem mergeLoop_ends (pol : TiePolicy) (draw : Nat → Nat) (turns : Nat) (m : Merge) (h0 : m.queue ≠ [])
    (h : m.queue.length ≤ turns + 1) :
    (mergeLoop pol draw turns m).queue.length = 1 ∧
      (mergeLoop pol draw turns m).fresh = m.fresh + (m.queue.length - 1) := by
  have hpos := List.length_pos_iff.mpr h0
  induction turns generalizing m with
  | zero => exact ⟨by simp only [mergeLoop]; omega, by simp only [mergeLoop]; omega⟩
  | succ turns ih =>
    unfold mergeLoop
    split
    · rename_i hlt
      have hq := mergeOnce_queue_length pol draw m hlt
      have hne : (mergeOnce pol draw m).queue ≠ [] := List.length_pos_iff.mp (by omega)
      obtain ⟨h1, h2⟩ := ih (mergeOnce pol draw m) hne (by omega) (by omega)
      exact ⟨h1, by rw [h2, mergeOnce_fresh, hq]; omega⟩
    · exact ⟨by omega, by omega⟩

/-- `Merge(k)` leaves NODE_COUNT = 2k − 1 and one node in Q (R161). -/
theorem mergeAll_ends (pol : TiePolicy) (draw : Nat → Nat) (k draws : Nat) (a : Arena) (hk : k ≠ 0) :
    (mergeAll pol draw k draws a).queue.length = 1 ∧ (mergeAll pol draw k draws a).fresh = 2 * k - 1 := by
  have hlen : (leafIndices k).length = k := by simp [leafIndices]
  have := mergeLoop_ends pol draw k ⟨a, leafIndices k, k, draws⟩ (List.length_pos_iff.mp (by simp only [hlen]; omega))
    (by simp only [hlen]; omega)
  refine ⟨this.1, ?_⟩
  rw [mergeAll, this.2]
  simp only [hlen]
  omega

/-- BUILD changes the tree, the code table, the cursor and the draw counter alone (R160). -/
theorem buildWith_frame (draw : Nat → Nat) (s : State) :
    ∃ t : State, buildWith draw s =
      { s with
        node := t.node
        nodeCount := t.nodeCount
        rootV := t.rootV
        root := t.root
        tstate := t.tstate
        clen := t.clen
        code := t.code
        numCodes := t.numCodes
        cur := t.cur
        draws := t.draws } := by
  refine ⟨buildWith draw s, ?_⟩
  unfold buildWith
  cases s.liveSyms with
  | nil => rfl
  | cons a rest =>
    cases rest with
    | nil => rfl
    | cons b rest =>
      simp only []
      obtain ⟨c, l, h⟩ := genCodes_frame Config.nodeCap
        (idxOf ((mergeAll s.params.tiePolicy draw (a :: b :: rest).length s.draws
          (writeLeaves s.freqAt (a :: b :: rest) 0 (treeClear s).node)).fresh - 1)) []
        { treeClear s with
          node := (mergeAll s.params.tiePolicy draw (a :: b :: rest).length s.draws
            (writeLeaves s.freqAt (a :: b :: rest) 0 (treeClear s).node)).arena
          nodeCount := BitVec.ofNat 10 (mergeAll s.params.tiePolicy draw (a :: b :: rest).length s.draws
            (writeLeaves s.freqAt (a :: b :: rest) 0 (treeClear s).node)).fresh
          root := idxOf ((mergeAll s.params.tiePolicy draw (a :: b :: rest).length s.draws
            (writeLeaves s.freqAt (a :: b :: rest) 0 (treeClear s).node)).fresh - 1)
          rootV := true
          tstate := .built
          cur := idxOf ((mergeAll s.params.tiePolicy draw (a :: b :: rest).length s.draws
            (writeLeaves s.freqAt (a :: b :: rest) 0 (treeClear s).node)).fresh - 1)
          draws := (mergeAll s.params.tiePolicy draw (a :: b :: rest).length s.draws
            (writeLeaves s.freqAt (a :: b :: rest) 0 (treeClear s).node)).draws }
      rw [h]
      rfl

/-! ### LOADC -/

/-- Everything one turn of LOADC's walk can do when it does not raise LOAD (R170): make the leaf, make an internal node and go on
from it, or go on from an existing internal child. -/
theorem loadWalk_cases {sym : Byte} {side : Bool} {rest : Bits} {cur : NodeIdx} {a a' : Arena} {cnt cnt' : Nat}
    (h : loadWalk sym (side :: rest) cur a cnt = some (a', cnt')) :
    (a.at cur).isLeaf = false ∧
    (((a.at cur).child side = none ∧ cnt < Config.nodeCap ∧
        ((rest = [] ∧ cnt' = cnt + 1 ∧
          a' = (a.put (idxOf cnt) (.leaf sym 0)).put cur ((a.at cur).setChild side (idxOf cnt))) ∨
        (rest ≠ [] ∧
          loadWalk sym rest (idxOf cnt)
            ((a.put (idxOf cnt) (.internal 0 none none)).put cur ((a.at cur).setChild side (idxOf cnt)))
            (cnt + 1) = some (a', cnt')))) ∨
      ∃ ch, (a.at cur).child side = some ch ∧ rest ≠ [] ∧ (a.at ch).isLeaf = false ∧
        loadWalk sym rest ch a cnt = some (a', cnt')) := by
  unfold loadWalk at h
  cases hc : a.at cur with
  | leaf y f => simp [hc] at h
  | internal f l r =>
    refine ⟨rfl, ?_⟩
    simp only [hc] at h
    cases hch : (Node.internal f l r).child side with
    | none =>
      simp only [hch] at h
      split at h
      · simp at h
      · rename_i hcap
        refine .inl ⟨rfl, Nat.lt_of_not_le hcap, ?_⟩
        cases rest with
        | nil =>
          simp only [List.isEmpty_nil, if_true, Option.some.injEq, Prod.mk.injEq] at h
          exact .inl ⟨rfl, h.2.symm, h.1.symm⟩
        | cons b bs =>
          simp only [List.isEmpty_cons, Bool.false_eq_true, if_false] at h
          exact .inr ⟨by simp, h⟩
    | some ch =>
      simp only [hch] at h
      split at h
      · simp at h
      · rename_i hno
        simp only [Bool.or_eq_true, not_or, Bool.not_eq_true] at hno
        refine .inr ⟨ch, rfl, ?_, hno.2, h⟩
        intro hn
        simp [hn] at hno

/-- LOADC's walk takes at most one free entry per bit, at least one, and never more than the arena holds (R170). -/
theorem loadWalk_count {sym : Byte} {c : Bits} {cur : NodeIdx} {a a' : Arena} {cnt cnt' : Nat}
    (h : loadWalk sym c cur a cnt = some (a', cnt')) :
    cnt < cnt' ∧ cnt' ≤ cnt + c.length ∧ cnt' ≤ Config.nodeCap := by
  induction c generalizing cur a cnt with
  | nil => simp [loadWalk] at h
  | cons side rest ih =>
    rcases (loadWalk_cases h).2 with ⟨-, hcap, ⟨hr, hc, -⟩ | ⟨-, hw⟩⟩ | ⟨ch, -, -, -, hw⟩
    · subst hr hc
      exact ⟨by omega, by simp, by omega⟩
    · have := ih hw
      exact ⟨by omega, by simp only [List.length_cons]; omega, this.2.2⟩
    · have := ih hw
      exact ⟨by omega, by simp only [List.length_cons]; omega, this.2.2⟩

end Sys2Proof.Machine
end

