-- ==== Sys2Proof/Laws/Walker.lean ====
section
/-! SUPPORT. What the code-tree walker can do (spec/46_decoder.md R240, R241). -/

namespace Sys2Proof.Machine

/-- Everything one decoded bit can do (R240, R241), with the tree's part of each case. -/
theorem decodeBit_cases {b : Bool} {s t : State} (h : decodeBit b s = some t) :
    (∃ sym f, s.nodeAt s.root = .leaf sym f ∧ t = outPush sym s) ∨
    ((s.nodeAt s.root).isLeaf = false ∧ (s.nodeAt s.cur).isLeaf = false ∧
      ((s.nodeAt s.cur).child b = none ∧ t = { raise .badCode s with cur := s.root } ∨
      ∃ ch, (s.nodeAt s.cur).child b = some ch ∧
        ((∃ sym f, s.nodeAt ch = .leaf sym f ∧ t = { outPush sym s with cur := s.root }) ∨
          ((s.nodeAt ch).isLeaf = false ∧ t = { s with cur := ch })))) := by
  unfold decodeBit at h
  cases hr : s.nodeAt s.root with
  | leaf sym f =>
    rw [hr] at h
    exact .inl ⟨sym, f, rfl, (Option.some.inj h).symm⟩
  | internal g l r =>
    refine .inr ⟨rfl, ?_⟩
    rw [hr] at h
    cases hc : s.nodeAt s.cur with
    | leaf sym f => simp [hc] at h
    | internal f l' r' =>
      refine ⟨rfl, ?_⟩
      simp only [hc] at h
      cases hch : (Node.internal f l' r').child b with
      | none =>
        rw [hch] at h
        exact .inl ⟨rfl, (Option.some.inj h).symm⟩
      | some ch =>
        rw [hch] at h
        refine .inr ⟨ch, rfl, ?_⟩
        cases hn : s.nodeAt ch with
        | leaf sym f' =>
          simp only [hn] at h
          exact .inl ⟨sym, f', rfl, (Option.some.inj h).symm⟩
        | internal f' l'' r'' =>
          simp only [hn] at h
          exact .inr ⟨rfl, (Option.some.inj h).symm⟩

/-- The walker stops only with the cursor on a leaf below an internal root, which R51 rules out. -/
theorem decodeBit_none {b : Bool} {s : State} (h : decodeBit b s = none) :
    (s.nodeAt s.root).isLeaf = false ∧ (s.nodeAt s.cur).isLeaf = true := by
  unfold decodeBit at h
  cases hr : s.nodeAt s.root with
  | leaf sym f => simp [hr] at h
  | internal g l r =>
    cases hc : s.nodeAt s.cur with
    | leaf sym f => exact ⟨rfl, rfl⟩
    | internal f l' r' =>
      rw [hr, hc] at h
      cases hch : (Node.internal f l' r').child b with
      | none => simp [hch] at h
      | some ch => cases hn : s.nodeAt ch <;> simp [hch, hn] at h

/-- One decoded bit changes ERR, OUTQ and CUR alone; it pushes at most one byte and raises at most BAD_CODE. -/
theorem decodeBit_frame {b : Bool} {s t : State} (h : decodeBit b s = some t) :
    ∃ out, t = { s with outq := s.outq ++ out, err := t.err, cur := t.cur } ∧ out.length ≤ 1 ∧
      (t.err = s.err ∨ t.err = s.err ||| ErrBit.badCode.mask) := by
  rcases decodeBit_cases h with ⟨sym, f, -, rfl⟩ | ⟨-, -, ⟨-, rfl⟩ | ⟨ch, -, ⟨sym, f, -, rfl⟩ | ⟨-, rfl⟩⟩⟩
  · exact ⟨[sym], by simp [outPush], by simp, .inl rfl⟩
  · exact ⟨[], by simp [raise], by simp, .inr rfl⟩
  · exact ⟨[sym], by simp [outPush], by simp, .inl rfl⟩
  · exact ⟨[], by simp, by simp, .inl rfl⟩

/-- The decoded bits of a byte change ERR, OUTQ and CUR alone; they push at most one byte each and raise at most BAD_CODE. -/
theorem decodeBits_frame {bs : Bits} {s t : State} (h : decodeBits bs s = some t) :
    ∃ out, t = { s with outq := s.outq ++ out, err := t.err, cur := t.cur } ∧ out.length ≤ bs.length ∧
      (t.err = s.err ∨ t.err = s.err ||| ErrBit.badCode.mask) := by
  induction bs generalizing s with
  | nil =>
    cases Option.some.inj h
    exact ⟨[], by simp, by simp, .inl rfl⟩
  | cons b bs ih =>
    unfold decodeBits at h
    cases hb : decodeBit b s with
    | none => simp [hb] at h
    | some u =>
      simp only [hb] at h
      obtain ⟨out, hu, hl, he⟩ := decodeBit_frame hb
      obtain ⟨out', ht, hl', he'⟩ := ih h
      refine ⟨out ++ out', ?_, by simp only [List.length_append, List.length_cons]; omega, ?_⟩
      · rw [hu] at ht
        simpa [List.append_assoc] using ht
      · rcases he with he | he <;> rcases he' with he' | he' <;> rw [he', he]
        · exact .inl rfl
        · exact .inr rfl
        · exact .inr rfl
        · exact .inr (by rw [BitVec.or_assoc, BitVec.or_self])

theorem decodeBits_append (bs cs : Bits) (s : State) :
    decodeBits (bs ++ cs) s = (decodeBits bs s).bind (decodeBits cs) := by
  induction bs generalizing s with
  | nil => rfl
  | cons b bs ih =>
    simp only [List.cons_append, decodeBits]
    cases decodeBit b s with
    | none => rfl
    | some t => exact ih t

/-- The walker keeps the cursor off the leaves, and so never stops: from a state with the cursor where R51 says, all bits decode. -/
theorem decodeBits_total (bs : Bits) (s : State)
    (h : (s.nodeAt s.root).isLeaf = true ∨ (s.nodeAt s.cur).isLeaf = false) : ∃ t, decodeBits bs s = some t := by
  induction bs generalizing s with
  | nil => exact ⟨s, rfl⟩
  | cons b bs ih =>
    cases hb : decodeBit b s with
    | none =>
      obtain ⟨h1, h2⟩ := decodeBit_none hb
      simp [h1, h2] at h
    | some u =>
      obtain ⟨t, ht⟩ := ih u (by
        rcases decodeBit_cases hb with ⟨sym, f, hr, rfl⟩ | ⟨hr, hc, ⟨-, rfl⟩ | ⟨ch, -, ⟨sym, f, -, rfl⟩ | ⟨hn, rfl⟩⟩⟩
        · exact .inl (congrArg Node.isLeaf hr)
        · exact .inr hr
        · exact .inr hr
        · exact .inr hn)
      exact ⟨t, by simp only [decodeBits, hb, ht]⟩

/-- What one bit does to the walker depends on the tree, the root and the cursor alone, and so does whether it pushes a byte. -/
theorem decodeBit_congr {s t : State} (b : Bool) (hn : t.node = s.node) (hr : t.root = s.root) (hc : t.cur = s.cur) :
    (decodeBit b s = none ∧ decodeBit b t = none) ∨
    ∃ s' t', decodeBit b s = some s' ∧ decodeBit b t = some t' ∧ t'.node = s'.node ∧ t'.root = s'.root ∧ t'.cur = s'.cur ∧
      (t.outq.length < t'.outq.length ↔ s.outq.length < s'.outq.length) := by
  have hat : ∀ i, t.nodeAt i = s.nodeAt i := fun i => by rw [State.nodeAt, State.nodeAt, hn]
  unfold decodeBit
  rw [hat, hat t.cur, hr, hc]
  cases s.nodeAt s.root with
  | leaf sym f => exact .inr ⟨_, _, rfl, rfl, hn, hr, hc, by simp [outPush]⟩
  | internal f l r =>
    cases s.nodeAt s.cur with
    | leaf sym g => exact .inl ⟨rfl, rfl⟩
    | internal g l r =>
      dsimp only
      cases (Node.internal g l r).child b with
      | none => exact .inr ⟨_, _, rfl, rfl, hn, hr, rfl, by simp [raise]⟩
      | some ch =>
        dsimp only
        rw [hat]
        cases s.nodeAt ch with
        | leaf sym h => exact .inr ⟨_, _, rfl, rfl, hn, hr, rfl, by simp [outPush]⟩
        | internal h l r => exact .inr ⟨_, _, rfl, rfl, hn, rfl, rfl, by simp only [Nat.lt_irrefl]⟩

/-- How many bytes a walk pushes depends on the tree, the root and the cursor alone. -/
theorem decodePushes_congr {s t : State} (bs : Bits) (hn : t.node = s.node) (hr : t.root = s.root) (hc : t.cur = s.cur) :
    decodePushes bs t = decodePushes bs s := by
  induction bs generalizing s t with
  | nil => rfl
  | cons b bs ih =>
    unfold decodePushes
    rcases decodeBit_congr b hn hr hc with ⟨h1, h2⟩ | ⟨s', t', h1, h2, hn', hr', hc', hp⟩
    · rw [h1, h2]
    · rw [h1, h2]
      dsimp only
      rw [ih hn' hr' hc']
      simp only [hp]

end Sys2Proof.Machine
end

