-- ==== Sys2Proof/Laws/Step.lean ====
section
/-! SUPPORT. What a step of the machine can be: the inversion lemma that every whole-machine proof starts from
(spec/20_memory.md R94, spec/60_exceptions.md R262, R263), and the cases of the meanings with several outcomes. -/

namespace Sys2Proof.Machine

/-- The end of a core step gives a next state exactly when the command's meaning does, with the latch released. -/
theorem retireOutcome_next {o : Host.Outcome State Fault Refusal} {t : State} (h : retireOutcome o = .next t) :
    ∃ u, o = .next u ∧ t = retire u := by
  cases o with
  | next u => exact ⟨u, rfl, (Host.Outcome.next.inj h).symm⟩
  | fault r => cases h
  | refused r => cases h

/-- Everything a core turn can do: nothing, when the core is not enabled; ILLEGAL, for a word that is no command; or the command. -/
theorem coreStep_cases {s t : State} (h : coreStep s = .next t) :
    (coreEnabled s = false ∧ t = s) ∨
    (coreEnabled s = true ∧ (∃ e, decode s.pendW = .error e) ∧ t = retire (raise .illegal s)) ∨
    (coreEnabled s = true ∧ ∃ i u, decode s.pendW = .ok i ∧ exec i s = .next u ∧ t = retire u) := by
  unfold coreStep at h
  cases he : coreEnabled s with
  | false =>
    rw [he] at h
    exact .inl ⟨rfl, (Host.Outcome.next.inj h).symm⟩
  | true =>
    rw [he, if_pos rfl] at h
    unfold executeWord at h
    cases hd : decode s.pendW with
    | error e =>
      rw [hd] at h
      exact .inr (.inl ⟨rfl, ⟨e, rfl⟩, (Host.Outcome.next.inj h).symm⟩)
    | ok i =>
      rw [hd] at h
      obtain ⟨u, hu, ht⟩ := retireOutcome_next h
      exact .inr (.inr ⟨rfl, i, u, rfl, hu, ht⟩)

/-- Everything a step can be: a host turn, a core turn or a reset, from the state with that turn taken off the schedule. -/
theorem step_cases {s t : State} (h : step s = .next t) :
    ∃ turns, (t = hostStep { s with sched := turns }) ∨ (coreStep { s with sched := turns } = .next t) ∨
      (t = assertReset { s with sched := turns }) := by
  unfold step at h
  cases hs : s.sched with
  | nil =>
    refine ⟨[], ?_⟩
    have hself : ({ s with sched := [] } : State) = s := by rw [← hs]
    rw [hself]
    rw [hs] at h
    simp only [defaultTurn] at h
    split at h
    · exact .inr (.inl h)
    · exact .inl (Host.Outcome.next.inj h).symm
  | cons turn rest =>
    refine ⟨rest, ?_⟩
    rw [hs] at h
    cases turn with
    | host => exact .inl (Host.Outcome.next.inj h).symm
    | core => exact .inr (.inl h)
    | reset => exact .inr (.inr (Host.Outcome.next.inj h).symm)

/-- Everything COUNT can do (R150). -/
theorem execCount_cases (sym : Byte) (s : State) :
    (s.tstate ≠ .empty ∧ execCount sym s = .next (raise .seq s)) ∨
    (s.tstate = .empty ∧ s.freqAt sym = 0xFFFFFFFF#32 ∧ execCount sym s = .next (raise .freqOvf s)) ∨
    (s.tstate = .empty ∧ s.freqAt sym ≠ 0xFFFFFFFF#32 ∧
      execCount sym s = .next (s.setFreq sym (s.freqAt sym + 1))) := by
  by_cases h1 : s.tstate = .empty <;> by_cases h2 : s.freqAt sym = 0xFFFFFFFF#32 <;> simp [execCount, h1, h2]

/-- Everything LOADC can do (R170): SEQ, LOAD, or the code entered with the tree that the walk made. -/
theorem execLoadc_cases (sym : Byte) (len : BitVec 8) (s : State) :
    (s.tstate = .built ∧ execLoadc sym len s = .next (raise .seq s)) ∨
    (s.tstate ≠ .built ∧ (len = 0 ∨ s.clenAt sym ≠ 0 ∨ loadTree sym (loadCode len s) s = none) ∧
      execLoadc sym len s = .next (raise .load s)) ∨
    (s.tstate ≠ .built ∧ len ≠ 0 ∧ s.clenAt sym = 0 ∧ ∃ root a cnt,
      loadTree sym (loadCode len s) s = some (root, a, cnt) ∧
      execLoadc sym len s = .next { (s.setCode sym (loadCode len s)) with
        node := a
        nodeCount := BitVec.ofNat 10 cnt
        root := root
        rootV := true
        tstate := .loaded
        numCodes := s.numCodes + 1
        cur := root }) := by
  unfold execLoadc
  by_cases h1 : s.tstate = .built
  · exact .inl ⟨h1, by simp [h1]⟩
  · by_cases h2 : len = 0 ∨ s.clenAt sym ≠ 0
    · refine .inr (.inl ⟨h1, ?_, by rw [if_neg h1, if_pos h2]⟩)
      rcases h2 with h | h
      · exact .inl h
      · exact .inr (.inl h)
    · rw [if_neg h1, if_neg h2]
      simp only [not_or, not_not] at h2
      cases h3 : loadTree sym (loadCode len s) s with
      | none => exact .inr (.inl ⟨h1, .inr (.inr rfl), rfl⟩)
      | some r =>
        obtain ⟨root, a, cnt⟩ := r
        exact .inr (.inr ⟨h1, h2.1, h2.2, root, a, cnt, rfl, rfl⟩)

/-- Everything DECB can do (R246): EXCESS, NO_TREE, the walk over the valid bits, or a stop with the cursor on a leaf. -/
theorem execDecb_cases (byte : Byte) (s : State) :
    (s.upLeft = 0 ∧ execDecb byte s = .next (raise .excess s)) ∨
    (s.upLeft ≠ 0 ∧ s.rootV = false ∧ execDecb byte s = .next (raise .noTree (unpackAdvance s))) ∨
    (s.upLeft ≠ 0 ∧ s.rootV = true ∧ ∃ t, decodeBits (byteBits s.upValid byte) (unpackAdvance s) = some t ∧
      execDecb byte s = .next t) ∨
    (s.upLeft ≠ 0 ∧ s.rootV = true ∧ decodeBits (byteBits s.upValid byte) (unpackAdvance s) = none ∧
      execDecb byte s = .fault .cursorOnLeaf) := by
  unfold execDecb
  by_cases h1 : s.upLeft = 0
  · exact .inl ⟨h1, by rw [if_pos h1]⟩
  · cases h2 : s.rootV with
    | false => exact .inr (.inl ⟨h1, rfl, by rw [if_neg h1, if_pos rfl]⟩)
    | true =>
      rw [if_neg h1, if_neg (by simp)]
      cases h3 : decodeBits (byteBits s.upValid byte) (unpackAdvance s) with
      | some t => exact .inr (.inr (.inl ⟨h1, rfl, t, rfl, rfl⟩))
      | none => exact .inr (.inr (.inr ⟨h1, rfl, rfl, rfl⟩))

/-- `Emit` reads the code table, the packer, the unpacker, the tree and the cursor, none of which the port writes (R262). -/
theorem emitWord_congr (w : Word) {s t : State} (hclen : t.clen = s.clen) (hpk : t.pkNbits = s.pkNbits)
    (hend : t.upEnd = s.upEnd) (hpos : t.upPos = s.upPos) (hv : t.rootV = s.rootV) (hn : t.node = s.node)
    (hr : t.root = s.root) (hc : t.cur = s.cur) : emitWord w t = emitWord w s := by
  have hleft : t.upLeft = s.upLeft := by simp only [State.upLeft, hend, hpos]
  have hvalid : t.upValid = s.upValid := by simp only [State.upValid, hleft]
  have hclenAt : ∀ sym, t.clenAt sym = s.clenAt sym := fun sym => by simp only [State.clenAt, hclen]
  have hfits : ∀ n, t.packFits n = s.packFits n := fun n => by simp only [State.packFits, hpk]
  unfold emitWord
  cases decode w with
  | error e => rfl
  | ok i =>
    cases i <;> simp only [emit, hclenAt, hpk, hfits, hleft, hvalid, hv]
    rename_i byte
    have hpush : decodePushes (byteBits s.upValid byte) (unpackAdvance t) =
        decodePushes (byteBits s.upValid byte) (unpackAdvance s) := decodePushes_congr _ hn hr hc
    rw [hpush]

end Sys2Proof.Machine
end

