-- ==== Sys2Proof/Laws/Hang.lean ====
section
/-! SUPPORT. The run that hangs (spec/60_exceptions.md R262, R277): while the host polls, or reads too little, the core holds for
ever. -/

namespace Sys2Proof.Machine

/-- What `hung` says, in full. -/
theorem hung_iff (s : State) : s.hung = true ↔ s.pendV = true ∧ Turn.reset ∉ s.sched ∧
    s.params.outDepth - (s.outq.length - readsWhileHeld s.hostProg s.outq.length) < emitWord s.pendW s := by
  simp only [State.hung, Bool.and_eq_true, decide_eq_true_eq, and_assoc]

/-- A held core takes no step, however far the host has got (R262). -/
theorem hung_not_enabled {s : State} (h : s.hung = true) : coreEnabled s = false := by
  simp only [State.hung, Bool.and_eq_true, decide_eq_true_eq] at h
  simp only [coreEnabled, h.1.1, Bool.true_and, decide_eq_false_iff_not]
  omega

/-- A hang does not depend on the turns to come, as long as none of them is a reset. -/
theorem hung_setSched {s : State} {turns : List Turn} (h : s.hung = true) (ht : Turn.reset ∉ turns) :
    ({ s with sched := turns } : State).hung = true := by
  obtain ⟨hv, -, hroom⟩ := (hung_iff s).mp h
  have he : emitWord s.pendW { s with sched := turns } = emitWord s.pendW s :=
    emitWord_congr _ rfl rfl rfl rfl rfl rfl rfl rfl
  exact (hung_iff _).mpr ⟨hv, ht, by simpa only [he] using hroom⟩

/-- No access of the host ends a hang: each uses up what of its program it does, and no more room is to come (R262, R277). -/
theorem hostStep_hung {s : State} (h : s.hung = true) : (hostStep s).hung = true := by
  obtain ⟨hv, hturns, hroom⟩ := (hung_iff s).mp h
  have key : ∀ t : State, t.pendV = true → t.sched = s.sched → t.params = s.params →
      emitWord t.pendW t = emitWord s.pendW s →
      t.outq.length - readsWhileHeld t.hostProg t.outq.length =
        s.outq.length - readsWhileHeld s.hostProg s.outq.length → t.hung = true := by
    intro t h1 h2 h3 h4 h5
    exact (hung_iff t).mpr ⟨h1, h2 ▸ hturns, by rw [h3, h4, h5]; exact hroom⟩
  have hread : ∀ (p : List HostStmt) (idx : RegIdx),
      (if idx = PortReg.outData.idx then s.outq.tail else s.outq).length -
          readsWhileHeld p (if idx = PortReg.outData.idx then s.outq.tail else s.outq).length =
        s.outq.length - readsWhileHeld s.hostProg s.outq.length →
      (hostReadIdx idx { s with hostProg := p }).hung = true := by
    intro p idx hl
    rw [hostReadIdx, portRead_snd]
    by_cases hi : idx = PortReg.outData.idx
    · rw [if_pos hi] at hl ⊢
      exact key _ hv rfl rfl (emitWord_congr _ rfl rfl rfl rfl rfl rfl rfl rfl) hl
    · rw [if_neg hi] at hl ⊢
      exact key _ hv rfl rfl (emitWord_congr _ rfl rfl rfl rfl rfl rfl rfl rfl) hl
  have hsame : ∀ p, s.hostProg = p → ({ s with hostProg := p } : State) = s := fun p hp => by rw [← hp]
  have hread' : ∀ (r : PortReg) (u : State), hostRead r u = hostReadIdx r.idx u := fun _ _ => rfl
  unfold hostStep
  split
  · exact h
  · rename_i idx v rest hp
    obtain ⟨h1, h2⟩ := portWrite_pending idx v (s := { s with hostProg := rest }) hv
    obtain ⟨t, ht⟩ := portWrite_frame idx v { s with hostProg := rest }
    rw [ht] at h1 h2 ⊢
    refine key _ h1 rfl rfl ?_ (by rw [hp]; rfl)
    rw [h2]
    exact emitWord_congr _ rfl rfl rfl rfl rfl rfl rfl rfl
  · rename_i idx rest hp
    refine hread rest idx ?_
    rw [hp, readsWhileHeld]
    by_cases hi : idx = PortReg.outData.idx
    · cases s.outq with
      | nil => simp [hi]
      | cons b q => simp [hi, Nat.add_sub_add_right]
    · simp [hi]
  · rename_i rest hp
    have hbusy : (readReg .status s).getLsbD 0 = true := by rw [readReg, status_busy, hv]
    rw [if_pos hbusy, hread', ← hsame _ rfl]
    exact hread _ _ (by rw [if_neg (by decide)])
  · rename_i rest hp
    rw [hread', hread']
    by_cases hq : s.outq = []
    · rw [if_neg (fun hvalid => (outData_valid s).mp hvalid hq)]
      exact hread rest _ (by rw [hp, hq]; simp)
    · rw [if_pos ((outData_valid s).mpr hq), ← hsame _ rfl]
      exact hread _ _ (by rw [hp]; simp [readsWhileHeld])

/-- A run that hangs hangs for ever: it has a next step, and every step leaves it hung (R262, R277). -/
theorem step_of_hung {s : State} (h : s.hung = true) : ∃ t, step s = .next t ∧ t.hung = true := by
  obtain ⟨-, hturns, -⟩ := (hung_iff s).mp h
  have hen := hung_not_enabled h
  unfold step
  cases hs : s.sched with
  | nil => exact ⟨hostStep s, by simp only [defaultTurn, hen]; rfl, hostStep_hung h⟩
  | cons turn rest =>
    rw [hs] at hturns
    have hrest := hung_setSched h (fun hm => hturns (List.mem_cons_of_mem _ hm) : Turn.reset ∉ rest)
    cases turn with
    | host => exact ⟨_, rfl, hostStep_hung hrest⟩
    | reset => exact absurd List.mem_cons_self hturns
    | core => exact ⟨_, by simp [stepTurn, coreStep, hung_not_enabled hrest], hrest⟩

end Sys2Proof.Machine
end

