-- ==== Sys2Proof/Laws/PerInstr.lean ====
section
/-! SUPPORT. Facts about every command as syntax, one lemma per constructor (spec/30_encoding.md R110, R111). -/

namespace Sys2Proof.Laws.ReservedZero

/-- A command's word has an opcode of the map, and every bit that the opcode's format reserves is 0 (R111). -/
def Statement (i : Instr) : Prop :=
  ∃ fmt make, opcodeRow (opcodeField (encode i)).toNat = some (fmt, make) ∧ encode i &&& fmt.reservedMask = 0#32

/-- Two words with the same 32 bits are equal. -/
theorem word_ext {v w : Word} (h : ∀ j, j < 32 → v.getLsbD j = w.getLsbD j) : v = w :=
  BitVec.eq_of_getLsbD_eq fun j hj => h j hj

theorem opcodeField_wordS (opc sym : Byte) : opcodeField (wordS opc sym) = opc := by
  apply BitVec.eq_of_getLsbD_eq
  intro j hj
  interval_cases j <;> simp [opcodeField, wordS]

theorem opcodeField_wordP (opc : Byte) (len : BitVec 5) (val : BitVec 16) : opcodeField (wordP opc len val) = opc := by
  apply BitVec.eq_of_getLsbD_eq
  intro j hj
  interval_cases j <;> simp [opcodeField, wordP]

theorem opcodeField_wordL (opc : Byte) (len sym : BitVec 8) : opcodeField (wordL opc len sym) = opc := by
  apply BitVec.eq_of_getLsbD_eq
  intro j hj
  interval_cases j <;> simp [opcodeField, wordL]

theorem wordS_reserved (opc sym : Byte) : wordS opc sym &&& Format.s.reservedMask = 0#32 := by
  apply word_ext
  intro j hj
  interval_cases j <;> simp [wordS, Format.reservedMask]

theorem wordP_reserved (opc : Byte) (len : BitVec 5) (val : BitVec 16) :
    wordP opc len val &&& Format.p.reservedMask = 0#32 := by
  apply word_ext
  intro j hj
  interval_cases j <;> simp [wordP, Format.reservedMask]

theorem wordL_reserved (opc : Byte) (len sym : BitVec 8) : wordL opc len sym &&& Format.l.reservedMask = 0#32 := by
  apply word_ext
  intro j hj
  interval_cases j <;> simp [wordL, Format.reservedMask]

theorem nop : Statement .nop := ⟨_, _, rfl, by decide⟩
theorem clear : Statement .clear := ⟨_, _, rfl, by decide⟩
theorem count (sym : Byte) : Statement (.count sym) :=
  ⟨_, _, by rw [encode, opcodeField_wordS]; rfl, wordS_reserved _ _⟩
theorem build : Statement .build := ⟨_, _, rfl, by decide⟩
theorem tclr : Statement .tclr := ⟨_, _, rfl, by decide⟩
theorem loadc (sym : Byte) (len : BitVec 8) : Statement (.loadc sym len) :=
  ⟨_, _, by rw [encode, opcodeField_wordL]; rfl, wordL_reserved _ _ _⟩
theorem enc (sym : Byte) : Statement (.enc sym) :=
  ⟨_, _, by rw [encode, opcodeField_wordS]; rfl, wordS_reserved _ _⟩
theorem putb (len : BitVec 5) (val : BitVec 16) : Statement (.putb len val) :=
  ⟨_, _, by rw [encode, opcodeField_wordP]; rfl, wordP_reserved _ _ _⟩
theorem flush : Statement .flush := ⟨_, _, rfl, by decide⟩
theorem ustart : Statement .ustart := ⟨_, _, rfl, by decide⟩
theorem decb (byte : Byte) : Statement (.decb byte) :=
  ⟨_, _, by rw [encode, opcodeField_wordS]; rfl, wordS_reserved _ _⟩
theorem uraw (byte : Byte) : Statement (.uraw byte) :=
  ⟨_, _, by rw [encode, opcodeField_wordS]; rfl, wordS_reserved _ _⟩
theorem dend : Statement .dend := ⟨_, _, rfl, by decide⟩

end Sys2Proof.Laws.ReservedZero
end

