-- ==== Sys2Proof/Tests/Slice0.lean ====
section
/-! SUPPORT. The model's own tests. Expected values are spec/95_test_vectors.md's (the vector is named), or are read off the rule
named; no value is the model's own answer. Then the witnesses: a concrete input for the hypotheses of every statement of
Certificates/Slice0/Obligations.lean that has any, clause by clause. -/

set_option Elab.async false

namespace Sys2Proof.Machine.Tests

open Sys2Proof Sys2Proof.Machine

/-! ### Helpers -/

/-- The next state, or the given one where there is none. -/
def nextOr (d : State) : Host.Outcome State Fault Refusal → State
  | .next s => s
  | .fault _ => d
  | .refused _ => d

/-- Whether an outcome is a next state. -/
def isNext : Host.Outcome State Fault Refusal → Bool
  | .next _ => true
  | .fault _ => false
  | .refused _ => false

/-- One command's meaning on a small state. -/
def run (i : Instr) (s : State) : State := nextOr s (exec i s)

/-- Counts 'A' 3 and 'B' 1 (T13). -/
def countedAB : State := (State.reset.setFreq 0x41 3).setFreq 0x42 1

/-- The tree and code table of T21: leaves 'A' and 'B' below node 2. -/
def builtAB : State :=
  { (countedAB.setCode 0x41 [false]).setCode 0x42 [true] with
    node := (((Vector.replicate 511 Node.zero).set 0 (.leaf 0x41 3)).set 1 (.leaf 0x42 1)).set 2
      (.internal 4 (some 0) (some 1))
    nodeCount := 3
    rootV := true
    root := 2
    tstate := .built
    numCodes := 2
    cur := 2 }

/-- The tree and code table of T30: the one code "0" of 'A'. -/
def loadedA : State :=
  { State.reset.setCode 0x41 [false] with
    node := ((Vector.replicate 511 Node.zero).set 0 (.internal 0 (some 1) none)).set 1 (.leaf 0x41 0)
    nodeCount := 2
    rootV := true
    root := 0
    tstate := .loaded
    numCodes := 1
    cur := 0 }

/-- A lone leaf 'A' of count 4 (T22). -/
def loneA : State :=
  { (State.reset.setFreq 0x41 4).setCode 0x41 [false] with
    node := (Vector.replicate 511 Node.zero).set 0 (.leaf 0x41 4)
    nodeCount := 1
    rootV := true
    root := 0
    tstate := .built
    numCodes := 1
    cur := 0 }

/-- A block of the given bit count to unpack. -/
def unpacking (n : Nat) (s : State) : State := { s with upLimit := BitVec.ofNat 64 n, upEnd := BitVec.ofNat 64 n }

/-! ### Encoding: a word of every command, written out from R111, R114 and R117 -/

theorem test_decode_nop : decode 0x00000000#32 = .ok .nop := by rfl
theorem test_decode_clear : decode 0x01000000#32 = .ok .clear := by rfl
theorem test_decode_count : decode 0x020000FF#32 = .ok (.count 0xFF) := by rfl
theorem test_decode_build : decode 0x03000000#32 = .ok .build := by rfl
theorem test_decode_tclr : decode 0x04000000#32 = .ok .tclr := by rfl
theorem test_decode_loadc : decode 0x05000342#32 = .ok (.loadc 0x42 3) := by rfl
theorem test_decode_enc : decode 0x06000041#32 = .ok (.enc 0x41) := by rfl
theorem test_decode_putb : decode 0x0710ABCD#32 = .ok (.putb 16 0xABCD) := by rfl
theorem test_decode_flush : decode 0x08000000#32 = .ok .flush := by rfl
theorem test_decode_ustart : decode 0x09000000#32 = .ok .ustart := by rfl
theorem test_decode_decb : decode 0x0A000010#32 = .ok (.decb 0x10) := by rfl
theorem test_decode_uraw : decode 0x0B00001F#32 = .ok (.uraw 0x1F) := by rfl
theorem test_decode_dend : decode 0x0C000000#32 = .ok .dend := by rfl

/-- T90 to T94: words that are no command, each refused by name. -/
theorem test_decode_illegal :
    decode 0x00000001#32 = .error (.reservedBits 0x00000001) ∧ decode 0x0D000000#32 = .error (.unknownOpcode 0x0D) ∧
    decode 0xFF000000#32 = .error (.unknownOpcode 0xFF) ∧ decode 0x02000141#32 = .error (.reservedBits 0x02000141) ∧
    decode 0x05010041#32 = .error (.reservedBits 0x05010041) ∧
    decode 0x07200001#32 = .error (.reservedBits 0x07200001) := by
  refine ⟨?_, ?_, ?_, ?_, ?_, ?_⟩ <;> rfl

/-- The WellFormed smoke: an ill-formed term for each check, and the terms at the edges of the legal ranges. -/
theorem test_wellFormed :
    (Instr.putb 0 1).wellFormed = false ∧ (Instr.putb 17 1).wellFormed = false ∧ (Instr.loadc 0x41 0).wellFormed = false ∧
    (Instr.putb 1 1).wellFormed = true ∧ (Instr.putb 16 1).wellFormed = true ∧
    (Instr.loadc 0x41 255).wellFormed = true := by decide

/-! ### Reset and the register port -/

/-- T1, T2, T4. -/
theorem test_reset_reads :
    (portRead 0 State.reset).1 = 0x48554646#32 ∧ (portRead 1 State.reset).1 = 0x10#32 ∧
    (portRead 4 State.reset).1 = 0#32 := by decide

/-- T8: ERR = 0x140, a write of 0x040 leaves 0x100. -/
theorem test_err_w1c : (portWrite 2 0x040#32 { State.reset with err := 0x140 }).err = 0x100#12 := by decide

/-- After T26, SEL = 0x42 with code "001": CODE_BITS0 = 0x20000000. -/
theorem test_code_bits :
    readReg (.codeBits 0) { State.reset.setCode 0x42 [false, false, true] with sel := 0x42 } = 0x20000000#32 := by
  decide +kernel

/-- T99: the head byte of a full FIFO reads as 0x1FF and is removed. -/
theorem test_out_data :
    (portRead 4 { State.reset with outq := [0xFF, 0x55] }).1 = 0x1FF#32 ∧
    (portRead 4 { State.reset with outq := [0xFF, 0x55] }).2.outq = [0x55] := by decide

/-- LDCODE of "001" writes LD_BITS0 = 0x20000000 (T37). -/
theorem test_load_word : loadWord [false, false, true] 0 = 0x20000000#32 := by decide

/-! ### The commands -/

/-- T10: NOP is executed by a core step and leaves no trace but the released latch. -/
theorem test_nop_step :
    (nextOr State.reset (step (State.reset.withFetchWord 32 0))).pendV = false ∧
    isNext (step (State.reset.withFetchWord 32 0)) = true := by decide +kernel

/-- T12. -/
theorem test_clear : (run .clear { State.reset with err := 0x808, outq := [1, 2, 3], sel := 0x41 }).err = 0 ∧
    (run .clear { State.reset with err := 0x808, outq := [1, 2, 3], sel := 0x41 }).outq = [] ∧
    (run .clear { State.reset with err := 0x808, outq := [1, 2, 3], sel := 0x41 }).sel = 0x41 := by decide

/-- T15, T16: the counter saturates with FREQ_OVF. -/
theorem test_count_saturates :
    (run (.count 0x41) (State.reset.setFreq 0x41 0xFFFFFFFE)).freqAt 0x41 = 0xFFFFFFFF#32 ∧
    (run (.count 0x41) (State.reset.setFreq 0x41 0xFFFFFFFE)).err = 0 ∧
    (run (.count 0x41) (State.reset.setFreq 0x41 0xFFFFFFFF)).freqAt 0x41 = 0xFFFFFFFF#32 ∧
    (run (.count 0x41) (State.reset.setFreq 0x41 0xFFFFFFFF)).err = 0x004#12 := by decide +kernel

/-- T21: the tree and the codes of "AAAB". -/
theorem test_build_two :
    (run .build countedAB).nodeAt 2 = .internal 4 (some 0) (some 1) ∧ (run .build countedAB).root = 2 ∧
    (run .build countedAB).codeAt 0x41 = [false] ∧ (run .build countedAB).codeAt 0x42 = [true] ∧
    (run .build countedAB).nodeCount = 3 ∧ (run .build countedAB).status = 0x16#32 := by decide +kernel

/-- T23: four equal counts, ties broken by index. -/
theorem test_build_ties :
    let s := run .build ((((State.reset.setFreq 0x41 1).setFreq 0x42 1).setFreq 0x43 1).setFreq 0x44 1)
    s.codeAt 0x41 = [true, true] ∧ s.codeAt 0x42 = [true, false] ∧ s.codeAt 0x43 = [false, true] ∧
      s.codeAt 0x44 = [false, false] ∧ s.nodeAt 5 = .internal 2 (some 3) (some 2) := by decide +kernel

/-- T20: TCLR keeps the counts. -/
theorem test_tclr : (run .tclr builtAB).status = 0x10#32 ∧ (run .tclr builtAB).freqAt 0x41 = 3 := by decide +kernel

/-- T31: the second code of a loaded tree. -/
theorem test_loadc :
    let s := run (.loadc 0x42 1) { loadedA with ldBits := (Vector.replicate 8 0).set 0 0x80000000 }
    s.nodeAt 0 = .internal 0 (some 1) (some 2) ∧ s.nodeAt 2 = .leaf 0x42 0 ∧ s.nodeCount = 3 ∧ s.numCodes = 2 := by
  decide +kernel

/-- T32, in short: "01" below the leaf of "0" is a prefix conflict. -/
theorem test_loadc_conflict :
    let s := run (.loadc 0x43 2) { loadedA with ldBits := (Vector.replicate 8 0).set 0 0x40000000 }
    s.err = 0x400#12 ∧ s.nodeCount = 2 := by decide +kernel

/-- T44, its eighth row: 7 bits pending as 0x90, the code "1" completes the byte 0x91. -/
theorem test_enc_pushes :
    let s := run (.enc 0x41) { State.reset.setCode 0x41 [true] with pkNbits := 7, acc := 0x90 }
    s.outq = [0x91] ∧ s.acc = 0 ∧ s.pkNbits = 8 := by decide +kernel

/-- T53, T55. -/
theorem test_putb :
    (run (.putb 16 0xABCD) State.reset).outq = [0xAB, 0xCD] ∧ (run (.putb 1 0xFFFE) State.reset).acc = 0 ∧
    (run (.putb 1 0xFFFE) State.reset).pkNbits = 1 := by decide +kernel

/-- T58: an append past 2^64 − 1 bits appends nothing. -/
theorem test_putb_overflow :
    (run (.putb 3 5) { State.reset with pkNbits := 0xFFFFFFFFFFFFFFFE }).err = 0x200#12 ∧
    (run (.putb 3 5) { State.reset with pkNbits := 0xFFFFFFFFFFFFFFFE }).pkNbits = 0xFFFFFFFFFFFFFFFE#64 := by
  decide +kernel

/-- R207's example: PK_NBITS = 23, ACC = 0x22. -/
theorem test_flush :
    (run .flush { State.reset with pkNbits := 23, acc := 0x22 }).outq = [0x22] ∧
    (run .flush { State.reset with pkNbits := 23, acc := 0x22 }).pkTotal = 23 := by decide

/-- T61. -/
theorem test_ustart : (run .ustart { State.reset with upLimit := 4, upPos := 3, upRawB := 7 }).upEnd = 4 ∧
    (run .ustart { State.reset with upLimit := 4, upPos := 3, upRawB := 7 }).upPos = 0 ∧
    (run .ustart { State.reset with upLimit := 4, upPos := 3, upRawB := 7 }).upRawB = 0 := by decide

/-- T62, T63. -/
theorem test_uraw :
    (run (.uraw 0x1F) (unpacking 4 State.reset)).upRawB = 0x10 ∧
    (run (.uraw 0x1F) (unpacking 4 State.reset)).upRawN = 4 ∧
    (run (.uraw 0x00) { unpacking 4 State.reset with upPos := 4 }).err = 0x040#12 := by decide

/-- T70: four valid bits of 0x10 decode to "AAAB". -/
theorem test_decb : (run (.decb 0x10) (unpacking 4 builtAB)).outq = [0x41, 0x41, 0x41, 0x42] := by decide +kernel

/-- T78: an absent child raises BAD_CODE and decoding goes on from the root. -/
theorem test_decb_bad_code :
    (run (.decb 0x40) (unpacking 3 loadedA)).outq = [0x41, 0x41] ∧
    (run (.decb 0x40) (unpacking 3 loadedA)).err = 0x020#12 := by decide +kernel

/-- T80, T83: SHORT; TRUNC with the cursor back at the root. -/
theorem test_dend :
    (run .dend { unpacking 23 builtAB with upPos := 8 }).err = 0x080#12 ∧
    (run .dend { builtAB with cur := 1 }).err = 0x100#12 ∧ (run .dend { builtAB with cur := 1 }).cur = 2 := by
  decide +kernel

/-- Every row of the opcode table runs as the first instruction after reset. -/
theorem test_every_row_runs :
    [0x00000000, 0x01000000, 0x02000041, 0x03000000, 0x04000000, 0x05000141, 0x06000041, 0x0704000A, 0x08000000,
      0x09000000, 0x0A000010, 0x0B00001F, 0x0C000000].all
      (fun w => isNext (step (State.reset.withFetchWord 32 w)) && (decodeTableWord 32 w).isSome) = true := by
  decide +kernel

/-- T95: two CMD writes with no core step between: the second raises OVERRUN. -/
theorem test_overrun :
    (portWrite 3 0x02000042 (portWrite 3 0x02000041 State.reset)).err = 0x002#12 ∧
    (portWrite 3 0x02000042 (portWrite 3 0x02000041 State.reset)).pendW = 0x02000041 := by decide

/-! ### Witnesses: reset, the port, the core's step -/

theorem witness_ResetInputRestoresResetState :
    ({ State.reset with sched := [.reset, .core], pendV := true, outq := [1] } : State).sched = .reset :: [.core] := by
  rfl

theorem witness_OutDataReadPopsTheHead :
    ({ State.reset with outq := [7, 8] } : State).outq = 7 :: [8] ∧ State.reset.outq = [] ∧
    ({ State.reset with outq := [7, 8] } : State).outq.length < 2 ^ 32 := by decide

theorem witness_PortSideEffectsAreOutDataAndCmd :
    (5 : RegIdx) ≠ PortReg.outData.idx ∧ (16 : RegIdx) ≠ PortReg.cmd.idx := by decide

/-- Each clause at the ends of its ranges: 23, 40 and 63 are reserved, 0 and 31 are read-only. -/
theorem witness_PortWritesRespectAccessTypes :
    ((23 : RegIdx).toNat = 23 ∨ 40 ≤ (23 : RegIdx).toNat) ∧ ((40 : RegIdx).toNat = 23 ∨ 40 ≤ (40 : RegIdx).toNat) ∧
    ((63 : RegIdx).toNat = 23 ∨ 40 ≤ (63 : RegIdx).toNat) ∧
    ((0 : RegIdx).toNat < 32 ∧ (0 : RegIdx).toNat ∉ [2, 3, 10, 11, 16]) ∧
    ((31 : RegIdx).toNat < 32 ∧ (31 : RegIdx).toNat ∉ [2, 3, 10, 11, 16]) := by decide

theorem witness_CmdWriteLatchesOrOverruns :
    State.reset.pendV = false ∧ ({ State.reset with pendV := true } : State).pendV = true := by decide

/-- A code of 33 bits: CODE_BITS1 shows bit 32 and, past the length, 0. -/
theorem witness_ReadoutsShowTheSelectedSymbol :
    let s := { State.reset.setCode 0x42 (List.replicate 33 true) with sel := 0x42 }
    32 * 1 + 0 < (s.clenAt s.sel).toNat ∧ ¬ 32 * 1 + 1 < (s.clenAt s.sel).toNat ∧
    readReg (.codeBits 1) s = 0x80000000#32 := by decide +kernel

theorem witness_LoadBufferBitOrder : 255 < 256 ∧ (List.replicate 255 true).length ≤ 255 :=
  ⟨by decide, Nat.le_of_eq List.length_replicate⟩

/-- A 64-bit element whose halves differ. -/
theorem test_wide_reads :
    readReg .pkNbitsLo { State.reset with pkNbits := 0x0000000100000002 } = 2 ∧
    readReg .pkNbitsHi { State.reset with pkNbits := 0x0000000100000002 } = 1 := by decide

theorem witness_RegisterMapIsExact : regAt 31 = some (.codeBits 7) ∧ regAt 39 = some (.ldBits 7) := by decide

/-- R117's assembler: its three examples, and operands it turns away. -/
theorem test_assemble :
    (assemble "COUNT" [0x41]).map encode = some 0x02000041#32 ∧
    (assemble "PUTB" [4, 0b1010]).map encode = some 0x0704000A#32 ∧
    (assemble "LOADC" [0x42, 3]).map encode = some 0x05000342#32 ∧
    assemble "COUNT" [256] = none ∧ assemble "PUTB" [17, 0] = none ∧ assemble "PUTB" [4, 0x10000] = none ∧
    assemble "LOADC" [0x42, 0] = none := by decide

theorem witness_IllegalWordRaisesIllegalOnly :
    ({ State.reset with pendV := true, pendW := 0x0D000000 } : State).pendV = true ∧
    decode ({ State.reset with pendV := true, pendW := 0x0D000000 } : State).pendW = .error (.unknownOpcode 0x0D) ∧
    decode ({ State.reset with pendV := true, pendW := 0x07200001 } : State).pendW =
      .error (.reservedBits 0x07200001) := by
  refine ⟨rfl, rfl, rfl⟩

/-- T98's state: 64 bytes in the FIFO and `PUTB 8, 0x55` pending. With one byte less, the same command has room. -/
def fullFifo (n : Nat) : State :=
  { State.reset with outq := List.replicate n 0xFF, pendV := true, pendW := 0x07080055 }

theorem witness_StepRunsTheDecodedCommand :
    (fullFifo 63).pendV = true ∧ decode (fullFifo 63).pendW = .ok (.putb 8 0x55) ∧
    emit (.putb 8 0x55) { fullFifo 63 with sched := [.core] } ≤ (fullFifo 63).params.outDepth - (fullFifo 63).outq.length ∧
    emit (.putb 8 0x55) { fullFifo 63 with sched := [] } ≤
      (fullFifo 63).params.outDepth - (fullFifo 63).outq.length := by
  refine ⟨rfl, rfl, by decide, by decide⟩

theorem witness_CoreHoldsOrIdles :
    State.reset.pendV = false ∧ decode (fullFifo 64).pendW = .ok (.putb 8 0x55) ∧
    (fullFifo 64).params.outDepth - (fullFifo 64).outq.length < emit (.putb 8 0x55) { fullFifo 64 with sched := [] } := by
  refine ⟨rfl, rfl, by decide⟩

theorem witness_ClearReturnsToResetValues :
    ({ State.reset with pendV := true, pendW := 0x01000000 } : State).pendV = true ∧
    decode ({ State.reset with pendV := true, pendW := 0x01000000 } : State).pendW = .ok .clear := ⟨rfl, rfl⟩

/-- R262, R277: with 64 bytes in the FIFO and `PUTB 8, 0x55` pending, a host that is over or polls hangs, and one that reads a byte
or drains does not. -/
theorem test_hung :
    (fullFifo 64).hung = true ∧ { fullFifo 64 with hostProg := [.poll, .drain] }.hung = true ∧
    { fullFifo 64 with hostProg := [.rd 5, .rd 4, .poll] }.hung = false ∧
    { fullFifo 64 with hostProg := [.drain] }.hung = false ∧ (fullFifo 63).hung = false := by decide +kernel

/-! ### Witnesses: counting and building -/

theorem witness_CountAddsOneOccurrence :
    builtAB.tstate ≠ .empty ∧
    ((State.reset.setFreq 0x41 0xFFFFFFFF).tstate = .empty ∧
      ((State.reset.setFreq 0x41 0xFFFFFFFF).freqAt 0x41).toNat = 2 ^ 32 - 1) ∧
    ((State.reset.setFreq 0x41 0xFFFFFFFE).tstate = .empty ∧
      ((State.reset.setFreq 0x41 0xFFFFFFFE).freqAt 0x41).toNat ≠ 2 ^ 32 - 1) := by decide +kernel

theorem witness_CountOrderDoesNotMatter : List.Perm ([0x41, 0x42] : List Byte) [0x42, 0x41] := by decide

/-- One step for each way the counters can go: unchanged, cleared, one grown. -/
theorem witness_CountersOnlyGrowOrClear :
    isNext (step (countedAB.withFetchWord 32 0)) = true ∧ isNext (step (countedAB.withFetchWord 32 0x01000000)) = true ∧
    (nextOr countedAB (step (countedAB.withFetchWord 32 0x02000041))).freqAt 0x41 = 4 := by decide +kernel

theorem witness_SelectMinIsLightest :
    ([0, 1] : List NodeIdx) ≠ [] ∧ (1 : NodeIdx) ∈ ([0, 1] : List NodeIdx) ∧
    (∀ j ∈ ([0, 1] : List NodeIdx), (Arena.at builtAB.node 1).nfreq ≤ (Arena.at builtAB.node j).nfreq) ∧
    selectMin .deterministic 0 builtAB.node [0, 1] = 1 := by decide +kernel

theorem witness_BuildOfNoneOrOneSymbol :
    (∀ sym, State.reset.freqAt sym = 0) ∧ (State.reset.setFreq 0x41 4).freqAt 0x41 ≠ 0 ∧
    (∀ o, o ≠ 0x41 → (State.reset.setFreq 0x41 4).freqAt o = 0) := by decide +kernel

theorem witness_BuildCodesArePrefixFree : ∃ t, exec .build countedAB = .next t := ⟨_, rfl⟩

theorem witness_BuildCodesAreMinimal :
    (∃ t, exec .build countedAB = .next t) ∧ 2 ≤ countedAB.liveSyms.length ∧
    ∃ c : Byte → Bits, countedAB.prefixCode c := by
  refine ⟨⟨_, rfl⟩, by decide +kernel, fun b => [b.getLsbD 0], ?_⟩
  have h : countedAB.liveSyms = [0x41, 0x42] := by decide +kernel
  intro a ha b hb hne
  rw [h] at ha hb
  simp only [List.mem_cons, List.not_mem_nil, or_false] at ha hb
  rcases ha with rfl | rfl <;> rcases hb with rfl | rfl <;> first | exact absurd rfl hne | decide

theorem witness_BuildIsAFunctionOfFreq :
    countedAB.params.tiePolicy = .deterministic ∧ { builtAB with pkNbits := 9 }.params.tiePolicy = .deterministic ∧
    countedAB.freq = { builtAB with pkNbits := 9 }.freq ∧ (∃ t, exec .build countedAB = .next t) ∧
    ∃ t, exec .build { builtAB with pkNbits := 9 } = .next t := ⟨rfl, rfl, rfl, ⟨_, rfl⟩, ⟨_, rfl⟩⟩

theorem witness_BuildRootWeighsTheWholeTable :
    (∃ t, exec .build countedAB = .next t) ∧ countedAB.liveSyms ≠ [] := ⟨⟨_, rfl⟩, by decide +kernel⟩

theorem witness_LoadcChecksStateThenOperands :
    builtAB.tstate = .built ∧ loadedA.tstate ≠ .built ∧ (0 : BitVec 8) = 0 ∧ loadedA.clenAt 0x41 ≠ 0 := by
  decide +kernel

/-! ### Witnesses: the tree invariant -/

/-- A walk from a leaf goes nowhere. -/
theorem walk_of_leaf {a : Arena} {i j : NodeIdx} {p : Bits} (hl : (a.at i).isLeaf = true)
    (h : Arena.walk a i p = some j) : p = [] ∧ j = i := by
  cases p with
  | nil => exact ⟨rfl, (Option.some.inj h).symm⟩
  | cons b bs =>
    unfold Arena.walk at h
    cases hn : a.at i with
    | leaf y f => simp [hn, Node.child] at h
    | internal f l r => simp [hn, Node.isLeaf] at hl

/-- The paths of T21's tree. -/
theorem at_builtAB (p : Bits) (i : NodeIdx) :
    builtAB.at p i ↔ (p = [] ∧ i = 2) ∨ (p = [false] ∧ i = 0) ∨ (p = [true] ∧ i = 1) := by
  constructor
  · intro h
    cases p with
    | nil => exact .inl ⟨rfl, (Option.some.inj h).symm⟩
    | cons b bs =>
      cases b with
      | false =>
        obtain ⟨rfl, rfl⟩ := walk_of_leaf (a := builtAB.node) (i := 0) (by decide +kernel) h
        exact .inr (.inl ⟨rfl, rfl⟩)
      | true =>
        obtain ⟨rfl, rfl⟩ := walk_of_leaf (a := builtAB.node) (i := 1) (by decide +kernel) h
        exact .inr (.inr ⟨rfl, rfl⟩)
  · rintro (⟨rfl, rfl⟩ | ⟨rfl, rfl⟩ | ⟨rfl, rfl⟩) <;> rfl

theorem builtAB_nodes : builtAB.nodeAt 0 = .leaf 0x41 3 ∧ builtAB.nodeAt 1 = .leaf 0x42 1 ∧
    builtAB.nodeAt 2 = .internal 4 (some 0) (some 1) := by decide +kernel

theorem builtAB_inUse (i : NodeIdx) (h : i.val < builtAB.nodeCount.toNat) : i = 0 ∨ i = 1 ∨ i = 2 := by
  have h3 : i.val < 3 := h
  have : i.val = 0 ∨ i.val = 1 ∨ i.val = 2 := by omega
  rcases this with h | h | h
  · exact .inl (Fin.ext h)
  · exact .inr (.inl (Fin.ext h))
  · exact .inr (.inr (Fin.ext h))

/-- The tree of T21 meets the tree invariant. -/
theorem builtAB_inv : builtAB.TreeInv := by
  obtain ⟨n0, n1, n2⟩ := builtAB_nodes
  refine ⟨fun h => absurd h (by decide), fun _ => by decide, by decide, ?_, ?_, ?_, ?_, by decide +kernel, ?_, ?_, ?_,
    fun h => absurd h (by decide), fun _ => by decide +kernel, by decide +kernel⟩
  · intro _ p i h
    rcases (at_builtAB p i).mp h with ⟨-, rfl⟩ | ⟨-, rfl⟩ | ⟨-, rfl⟩ <;> decide
  · intro _ i h
    rcases builtAB_inUse i h with rfl | rfl | rfl
    · exact ⟨[false], rfl, fun q hq => by simpa using (at_builtAB q 0).mp hq⟩
    · exact ⟨[true], rfl, fun q hq => by simpa using (at_builtAB q 1).mp hq⟩
    · exact ⟨[], rfl, fun q hq => by simpa using (at_builtAB q 2).mp hq⟩
  · intro _ sym
    have hc : ∀ sym, builtAB.clenAt sym ≠ 0 ↔ sym = 0x41 ∨ sym = 0x42 := by decide +kernel
    rw [hc]
    constructor
    · rintro (rfl | rfl)
      · exact ⟨[false], 0, 3, rfl, n0⟩
      · exact ⟨[true], 1, 1, rfl, n1⟩
    · rintro ⟨p, i, f, h, hn⟩
      rcases (at_builtAB p i).mp h with ⟨-, rfl⟩ | ⟨-, rfl⟩ | ⟨-, rfl⟩
      · rw [n2] at hn; cases hn
      · rw [n0] at hn; cases hn; exact .inl rfl
      · rw [n1] at hn; cases hn; exact .inr rfl
  · intro _ p i sym f h hn
    rcases (at_builtAB p i).mp h with ⟨rfl, rfl⟩ | ⟨rfl, rfl⟩ | ⟨rfl, rfl⟩
    · rw [n2] at hn; cases hn
    · rw [n0] at hn; cases hn; decide +kernel
    · rw [n1] at hn; cases hn; decide +kernel
  · intro _ i h f l r hn
    rcases builtAB_inUse i h with rfl | rfl | rfl
    · rw [n0] at hn; cases hn
    · rw [n1] at hn; cases hn
    · rw [n2] at hn; cases hn; exact ⟨rfl, rfl⟩
  · intro _ i h f l r hn
    rcases builtAB_inUse i h with rfl | rfl | rfl
    · rw [n0] at hn; cases hn
    · rw [n1] at hn; cases hn
    · rw [n2] at hn; cases hn; exact .inl rfl
  · have hc : ∀ sym, builtAB.clenAt sym ≠ 0 → sym = 0x41 ∨ sym = 0x42 := by decide +kernel
    intro a b hne ha hb
    rcases hc a ha with rfl | rfl <;> rcases hc b hb with rfl | rfl <;>
      first | exact absurd rfl hne | decide +kernel

/-- The paths of T30's tree. -/
theorem at_loadedA (p : Bits) (i : NodeIdx) : loadedA.at p i ↔ (p = [] ∧ i = 0) ∨ (p = [false] ∧ i = 1) := by
  constructor
  · intro h
    cases p with
    | nil => exact .inl ⟨rfl, (Option.some.inj h).symm⟩
    | cons b bs =>
      cases b with
      | false =>
        obtain ⟨rfl, rfl⟩ := walk_of_leaf (a := loadedA.node) (i := 1) (by decide +kernel) h
        exact .inr ⟨rfl, rfl⟩
      | true =>
        have hn : (Arena.at loadedA.node loadedA.root).child true = none := by decide +kernel
        unfold State.at Arena.walk at h
        rw [hn] at h
        cases h
  · rintro (⟨rfl, rfl⟩ | ⟨rfl, rfl⟩) <;> rfl

theorem loadedA_nodes : loadedA.nodeAt 0 = .internal 0 (some 1) none ∧ loadedA.nodeAt 1 = .leaf 0x41 0 := by
  decide +kernel

theorem loadedA_inUse (i : NodeIdx) (h : i.val < loadedA.nodeCount.toNat) : i = 0 ∨ i = 1 := by
  have h2 : i.val < 2 := h
  have : i.val = 0 ∨ i.val = 1 := by omega
  rcases this with h | h
  · exact .inl (Fin.ext h)
  · exact .inr (Fin.ext h)

/-- The tree of T30 meets the tree invariant. -/
theorem loadedA_inv : loadedA.TreeInv := by
  obtain ⟨n0, n1⟩ := loadedA_nodes
  refine ⟨fun h => absurd h (by decide), fun _ => by decide, by decide, ?_, ?_, ?_, ?_, by decide +kernel,
    fun h => absurd h (by decide), ?_, ?_, fun _ => by decide +kernel, fun _ => by decide +kernel, by decide +kernel⟩
  · intro _ p i h
    rcases (at_loadedA p i).mp h with ⟨-, rfl⟩ | ⟨-, rfl⟩ <;> decide
  · intro _ i h
    rcases loadedA_inUse i h with rfl | rfl
    · exact ⟨[], rfl, fun q hq => by simpa using (at_loadedA q 0).mp hq⟩
    · exact ⟨[false], rfl, fun q hq => by simpa using (at_loadedA q 1).mp hq⟩
  · intro _ sym
    have hc : ∀ sym, loadedA.clenAt sym ≠ 0 ↔ sym = 0x41 := by decide +kernel
    rw [hc]
    constructor
    · rintro rfl
      exact ⟨[false], 1, 0, rfl, n1⟩
    · rintro ⟨p, i, f, h, hn⟩
      rcases (at_loadedA p i).mp h with ⟨-, rfl⟩ | ⟨-, rfl⟩
      · rw [n0] at hn; cases hn
      · rw [n1] at hn; cases hn; rfl
  · intro _ p i sym f h hn
    rcases (at_loadedA p i).mp h with ⟨rfl, rfl⟩ | ⟨rfl, rfl⟩
    · rw [n0] at hn; cases hn
    · rw [n1] at hn; cases hn; decide +kernel
  · intro _ i h f l r hn
    rcases loadedA_inUse i h with rfl | rfl
    · rw [n0] at hn; cases hn; exact .inl rfl
    · rw [n1] at hn; cases hn
  · have hc : ∀ sym, loadedA.clenAt sym ≠ 0 → sym = 0x41 := by decide +kernel
    intro a b hne ha hb
    exact absurd ((hc a ha).trans (hc b hb).symm) hne

/-! A nearly full arena: 'A' has the 255-bit code "0…0", 'B' the code "10", and 258 entries are in use. -/

/-- The entries of that arena: the chain of 'A' from the root to 255, then the two nodes of 'B'. -/
def chainNode (i : NodeIdx) : Node :=
  if i.val = 0 then .internal 0 (some 1) (some 256)
  else if i.val < 255 then .internal 0 (some (idxOf (i.val + 1))) none
  else if i.val = 255 then .leaf 0x41 0
  else if i.val = 256 then .internal 0 (some 257) none
  else if i.val = 257 then .leaf 0x42 0
  else Node.zero

/-- The tree and code table of the two codes, with a load buffer of ones. -/
def chained : State :=
  { (State.reset.setCode 0x41 (List.replicate 255 false)).setCode 0x42 [true, false] with
    node := Vector.ofFn chainNode
    nodeCount := 258
    rootV := true
    root := 0
    tstate := .loaded
    numCodes := 2
    cur := 0
    ldBits := Vector.replicate 8 0xFFFFFFFF }

theorem chained_nodeAt (i : NodeIdx) : chained.nodeAt i = chainNode i := by
  show (Vector.ofFn chainNode)[i.val]'i.isLt = chainNode i
  rw [Vector.getElem_ofFn]

theorem chained_at_node (i : NodeIdx) : Arena.at chained.node i = chainNode i := chained_nodeAt i

/-- A chain entry below the root leads to the next by a 0 and nowhere by a 1; the last is a leaf. -/
theorem chainNode_child (i : NodeIdx) (h : 1 ≤ i.val) (h' : i.val ≤ 255) (b : Bool) :
    (chainNode i).child b = if b = false ∧ i.val < 255 then some (idxOf (i.val + 1)) else none := by
  unfold chainNode
  rw [if_neg (by omega)]
  by_cases hi : i.val < 255
  · rw [if_pos hi]
    cases b <;> simp [Node.child, hi]
  · rw [if_neg hi, if_pos (by omega)]
    simp [Node.child, hi]

theorem idxOf_val {n : Nat} (h : n < 511) : (idxOf n).val = n := Nat.mod_eq_of_lt h

/-- The walks down the chain of 'A'. -/
theorem walk_chain (p : Bits) (i j : NodeIdx) (h : 1 ≤ i.val) (h' : i.val ≤ 255) :
    Arena.walk chained.node i p = some j ↔ i.val ≤ j.val ∧ j.val ≤ 255 ∧ p = List.replicate (j.val - i.val) false := by
  induction p generalizing i with
  | nil =>
    simp only [Arena.walk, Option.some.injEq, List.nil_eq, List.replicate_eq_nil_iff]
    exact ⟨fun e => by subst e; exact ⟨by omega, h', by omega⟩, fun e => Fin.ext (by omega)⟩
  | cons b bs ih =>
    unfold Arena.walk
    rw [chained_at_node, chainNode_child i h h']
    by_cases hb : b = false ∧ i.val < 255
    · rw [if_pos hb]
      have hv : (idxOf (i.val + 1)).val = i.val + 1 := idxOf_val (by omega)
      refine (ih (idxOf (i.val + 1)) (by omega) (by omega)).trans ?_
      rw [hv]
      constructor
      · rintro ⟨h1, h2, rfl⟩
        refine ⟨by omega, h2, ?_⟩
        rw [hb.1, ← List.replicate_succ]
        congr 1
        omega
      · rintro ⟨h1, h2, h3⟩
        have hlen := congrArg List.length h3
        simp only [List.length_cons, List.length_replicate] at hlen
        refine ⟨by omega, h2, ?_⟩
        rw [show j.val - i.val = (j.val - (i.val + 1)) + 1 by omega, List.replicate_succ, List.cons.injEq] at h3
        exact h3.2
    · rw [if_neg hb]
      refine ⟨fun e => (by cases e), ?_⟩
      rintro ⟨h1, h2, h3⟩
      have hlen := congrArg List.length h3
      simp only [List.length_cons, List.length_replicate] at hlen
      rw [show j.val - i.val = (j.val - (i.val + 1)) + 1 by omega, List.replicate_succ, List.cons.injEq] at h3
      exact absurd ⟨h3.1, by omega⟩ hb

/-- The paths of the tree. -/
theorem at_chained (p : Bits) (i : NodeIdx) : chained.at p i ↔
    (i.val ≤ 255 ∧ p = List.replicate i.val false) ∨ (i = 256 ∧ p = [true]) ∨ (i = 257 ∧ p = [true, false]) := by
  show Arena.walk chained.node 0 p = some i ↔ _
  have n0 : chainNode 0 = .internal 0 (some 1) (some 256) := rfl
  have n256 : chainNode 256 = .internal 0 (some 257) none := rfl
  have n257 : chainNode 257 = .leaf 0x42 0 := rfl
  cases p with
  | nil =>
    constructor
    · intro h
      cases h
      exact .inl ⟨by decide, rfl⟩
    · rintro (⟨-, h⟩ | ⟨-, h⟩ | ⟨-, h⟩)
      · have h0 : i.val = 0 := by simpa using congrArg List.length h.symm
        exact congrArg some (Fin.ext h0.symm)
      · cases h
      · cases h
  | cons b bs =>
    unfold Arena.walk
    rw [chained_at_node, n0]
    cases b with
    | false =>
      refine (walk_chain bs 1 i (by decide) (by decide)).trans ?_
      constructor
      · rintro ⟨h1, h2, rfl⟩
        refine .inl ⟨h2, ?_⟩
        rw [← List.replicate_succ]
        congr 1
        have : (1 : NodeIdx).val = 1 := rfl
        omega
      · rintro (⟨h1, h2⟩ | ⟨-, h⟩ | ⟨-, h⟩)
        · have hlen := congrArg List.length h2
          simp only [List.length_cons, List.length_replicate] at hlen
          have h1v : (1 : NodeIdx).val = 1 := rfl
          refine ⟨by omega, h1, ?_⟩
          rw [show i.val = (i.val - (1 : NodeIdx).val) + 1 by omega, List.replicate_succ, List.cons.injEq] at h2
          exact h2.2
        · cases h
        · cases h
    | true =>
      constructor
      · intro h
        cases bs with
        | nil => cases h; exact .inr (.inl ⟨rfl, rfl⟩)
        | cons c cs =>
          simp only [Node.child] at h
          unfold Arena.walk at h
          rw [chained_at_node, n256] at h
          cases c with
          | true => cases h
          | false =>
            cases cs with
            | nil => cases h; exact .inr (.inr ⟨rfl, rfl⟩)
            | cons d ds =>
              simp only [Node.child] at h
              unfold Arena.walk at h
              rw [chained_at_node, n257] at h
              cases h
      · rintro (⟨-, h⟩ | ⟨rfl, h⟩ | ⟨rfl, h⟩)
        · cases hi : i.val with
          | zero => rw [hi] at h; cases h
          | succ n => rw [hi, List.replicate_succ] at h; cases h
        · cases h; rfl
        · cases h
          simp only [Node.child]
          unfold Arena.walk
          rw [chained_at_node, n256]
          rfl

theorem chained_codes : chained.codeAt 0x41 = List.replicate 255 false ∧ chained.codeAt 0x42 = [true, false] ∧
    (∀ sym, chained.clenAt sym ≠ 0 ↔ sym = 0x41 ∨ sym = 0x42) := by decide +kernel

/-- The leaves of the tree. -/
theorem chainNode_leaf {i : NodeIdx} {sym : Byte} {f : BitVec 40} (h : chainNode i = .leaf sym f) :
    (i = 255 ∧ sym = 0x41) ∨ (i = 257 ∧ sym = 0x42) := by
  unfold chainNode at h
  split at h
  · cases h
  split at h
  · cases h
  split at h
  · cases h
    exact .inl ⟨Fin.ext ‹_›, rfl⟩
  split at h
  · cases h
  split at h
  · cases h
    exact .inr ⟨Fin.ext ‹_›, rfl⟩
  · cases h

/-- The nearly full tree meets the tree invariant. -/
theorem chained_inv : chained.TreeInv := by
  obtain ⟨ca, cb, hc⟩ := chained_codes
  have hcount : chained.nodeCount.toNat = 258 := rfl
  refine ⟨fun h => absurd h (by decide), fun _ => by decide, by decide, ?_, ?_, ?_, ?_, by decide +kernel,
    fun h => absurd h (by decide), ?_, ?_, fun _ => ?_, fun _ => ?_, by decide +kernel⟩
  · intro _ p i h
    rcases (at_chained p i).mp h with ⟨hi, -⟩ | ⟨rfl, -⟩ | ⟨rfl, -⟩
    · omega
    · decide
    · decide
  · intro _ i h
    rw [hcount] at h
    have : i.val ≤ 255 ∨ i = 256 ∨ i = 257 := by
      rcases Nat.lt_or_ge i.val 256 with h1 | h1
      · exact .inl (by omega)
      · rcases Nat.lt_or_ge i.val 257 with h2 | h2
        · exact .inr (.inl (Fin.ext (by show i.val = 256; omega)))
        · exact .inr (.inr (Fin.ext (by show i.val = 257; omega)))
    rcases this with hi | rfl | rfl
    · refine ⟨_, (at_chained _ i).mpr (.inl ⟨hi, rfl⟩), fun q hq => ?_⟩
      rcases (at_chained q i).mp hq with ⟨-, h⟩ | ⟨h, -⟩ | ⟨h, -⟩
      · exact h
      · rw [h] at hi; exact absurd hi (by decide)
      · rw [h] at hi; exact absurd hi (by decide)
    · refine ⟨_, (at_chained _ _).mpr (.inr (.inl ⟨rfl, rfl⟩)), fun q hq => ?_⟩
      rcases (at_chained q 256).mp hq with ⟨h, -⟩ | ⟨-, h⟩ | ⟨h, -⟩
      · exact absurd h (by decide)
      · exact h
      · exact absurd h (by decide)
    · refine ⟨_, (at_chained _ _).mpr (.inr (.inr ⟨rfl, rfl⟩)), fun q hq => ?_⟩
      rcases (at_chained q 257).mp hq with ⟨h, -⟩ | ⟨h, -⟩ | ⟨-, h⟩
      · exact absurd h (by decide)
      · exact absurd h (by decide)
      · exact h
  · intro _ sym
    rw [hc]
    constructor
    · rintro (rfl | rfl)
      · exact ⟨_, 255, 0, (at_chained _ 255).mpr (.inl ⟨by decide, rfl⟩), chained_nodeAt 255⟩
      · exact ⟨_, 257, 0, (at_chained _ 257).mpr (.inr (.inr ⟨rfl, rfl⟩)), chained_nodeAt 257⟩
    · rintro ⟨p, i, f, -, hn⟩
      rw [chained_nodeAt] at hn
      rcases chainNode_leaf hn with ⟨-, h⟩ | ⟨-, h⟩
      · exact .inl h
      · exact .inr h
  · intro _ p i sym f h hn
    rw [chained_nodeAt] at hn
    rcases chainNode_leaf hn with ⟨rfl, rfl⟩ | ⟨rfl, rfl⟩
    · rcases (at_chained p 255).mp h with ⟨-, rfl⟩ | ⟨h, -⟩ | ⟨h, -⟩
      · exact ca
      · exact absurd h (by decide)
      · exact absurd h (by decide)
    · rcases (at_chained p 257).mp h with ⟨h, -⟩ | ⟨h, -⟩ | ⟨-, rfl⟩
      · exact absurd h (by decide)
      · exact absurd h (by decide)
      · exact cb
  · intro _ i h f l r hn
    rw [hcount] at h
    rw [chained_nodeAt] at hn
    unfold chainNode at hn
    split at hn
    · cases hn; exact .inl rfl
    split at hn
    · cases hn; exact .inl rfl
    split at hn
    · cases hn
    split at hn
    · cases hn; exact .inl rfl
    split at hn
    · cases hn
    · omega
  · intro a b hne ha hb
    rcases (hc a).mp ha with rfl | rfl <;> rcases (hc b).mp hb with rfl | rfl
    · exact absurd rfl hne
    · rw [ca, cb]; decide +kernel
    · rw [ca, cb]; decide +kernel
    · exact absurd rfl hne
  · rw [chained_nodeAt]; rfl
  · have h0 : (chained.nodeAt 0).isLeaf = false := by rw [chained_nodeAt]; rfl
    have hroot : chained.root = 0 := rfl
    have hcur : chained.cur = 0 := rfl
    rw [hroot, hcur, h0, if_neg Bool.false_ne_true]
    exact ⟨rfl, by rw [hcount]; decide⟩

/-- The three clauses of LOADC's statement: T30's "0" conflicts with itself; in the nearly full arena 254 ones fit exactly, sharing
one edge, and 255 ones need one entry too many. -/
theorem witness_LoadcTakesExactlyCompatibleCodes :
    (loadedA.TreeInv ∧ loadedA.tstate ≠ .built ∧ (1 : BitVec 8) ≠ 0 ∧ loadedA.clenAt 0x42 = 0 ∧
      loadedA.clenAt 0x41 ≠ 0 ∧ comparable (loadedA.codeAt 0x41) (loadCode 1 loadedA)) ∧
    (chained.TreeInv ∧ chained.tstate ≠ .built ∧ (255 : BitVec 8) ≠ 0 ∧ chained.clenAt 0x43 = 0 ∧
      chained.nodeCount.toNat + chained.newNodes (loadCode 255 chained) = 512) ∧
    ((∀ o, chained.clenAt o ≠ 0 → ¬ comparable (chained.codeAt o) (loadCode 254 chained)) ∧ (254 : BitVec 8) ≠ 0 ∧
      chained.nodeCount.toNat + chained.newNodes (loadCode 254 chained) = 511) := by
  obtain ⟨ca, cb, hc⟩ := chained_codes
  have h1 : loadedA.codeAt 0x41 = [false] := by decide +kernel
  have h2 : loadCode 1 loadedA = [false] := by decide +kernel
  have h3 : loadCode 254 chained = List.replicate 254 true := by decide +kernel
  refine ⟨⟨loadedA_inv, by decide, by decide, by decide +kernel, by decide +kernel, ?_⟩,
    ⟨chained_inv, by decide, by decide, by decide +kernel, by decide +kernel⟩, ?_, by decide, by decide +kernel⟩
  · rw [h1, h2]
    exact .inl (List.prefix_refl _)
  · intro o ho
    rw [h3]
    rcases (hc o).mp ho with rfl | rfl
    · rw [ca]; unfold comparable; decide +kernel
    · rw [cb]; unfold comparable; decide +kernel

/-! ### Witnesses: encoder, packer, unpacker -/

theorem reset_packerInv : State.reset.PackerInv := fun j _ => by simp [State.reset, State.resetWith]

theorem witness_EncRaisesNoCodeOrOverflow :
    State.reset.clenAt 0x41 = 0 ∧ builtAB.clenAt 0x41 ≠ 0 ∧
    2 ^ 64 - 1 < ({ builtAB with pkNbits := 0xFFFFFFFFFFFFFFFF } : State).pkNbits.toNat + (builtAB.codeAt 0x41).length := by
  decide +kernel

theorem witness_EncAppendsTheCode :
    builtAB.PackerInv ∧ builtAB.clenAt 0x41 ≠ 0 ∧ builtAB.pkNbits.toNat + (builtAB.codeAt 0x41).length ≤ 2 ^ 64 - 1 :=
  ⟨reset_packerInv, by decide +kernel, by decide +kernel⟩

theorem witness_EncSequenceAppendsConcatenation :
    builtAB.PackerInv ∧ (∀ x ∈ ([0x41, 0x41, 0x42] : List Byte), builtAB.clenAt x ≠ 0) ∧
    builtAB.pkNbits.toNat + (codesOf builtAB [0x41, 0x41, 0x42]).length ≤ 2 ^ 64 - 1 :=
  ⟨reset_packerInv, by decide +kernel, by decide +kernel⟩

/-- Each clause of PUTB's statement at the ends of its range: 0, 17 and 31; 1 and 16 with a full and an empty counter. -/
theorem witness_PutbAppendsItsLowBits :
    ((0 : BitVec 5).toNat = 0 ∧ 17 ≤ (17 : BitVec 5).toNat ∧ 17 ≤ (31 : BitVec 5).toNat) ∧
    (1 ≤ (1 : BitVec 5).toNat ∧ (1 : BitVec 5).toNat ≤ 16 ∧
      2 ^ 64 - 1 < ({ State.reset with pkNbits := 0xFFFFFFFFFFFFFFFF } : State).pkNbits.toNat + (1 : BitVec 5).toNat) ∧
    (State.reset.PackerInv ∧ 1 ≤ (16 : BitVec 5).toNat ∧ (16 : BitVec 5).toNat ≤ 16 ∧
      State.reset.pkNbits.toNat + (16 : BitVec 5).toNat ≤ 2 ^ 64 - 1) :=
  ⟨by decide, by decide, reset_packerInv, by decide, by decide, by decide⟩

theorem witness_FlushClosesTheBlock :
    State.reset.pkNbits.toNat % 8 = 0 ∧ ({ State.reset with pkNbits := 7 } : State).pkNbits.toNat % 8 ≠ 0 := by decide

theorem witness_PackingIsExact :
    builtAB.pkNbits = 0 ∧ builtAB.acc = 0 ∧ (∀ i ∈ [Instr.enc 0x41, .putb 16 0xABCD], appends builtAB i = true) ∧
    ([Instr.enc 0x41, .putb 16 0xABCD].flatMap (appendedBits builtAB)).length ≤ 2 ^ 64 - 1 :=
  ⟨rfl, rfl, by decide +kernel, by decide +kernel⟩

theorem witness_UrawKeepsTheValidBits :
    State.reset.upPos = State.reset.upEnd ∧ (unpacking 1 State.reset).upPos.toNat < (unpacking 1 State.reset).upEnd.toNat := by
  decide

theorem witness_UnpackingInvertsPacking :
    ([true, false, true] : Bits).length ≤ 2 ^ 64 - 1 ∧
    (unpacking 3 State.reset).upLimit.toNat = ([true, false, true] : Bits).length := by decide

/-! ### Witnesses: decoder -/

/-- An absent child, a leaf and an internal child below an internal cursor. -/
theorem witness_DecodeBitWalksOneEdge :
    (loadedA.nodeAt loadedA.root).isLeaf = false ∧ loadedA.nodeAt loadedA.cur = .internal 0 (some 1) none ∧
    loadedA.nodeAt 1 = .leaf 0x41 0 ∧
    ({ loadedA with node := loadedA.node.set 1 (.internal 0 (some 2) none) } : State).nodeAt 1 =
      .internal 0 (some 2) none := by decide +kernel

theorem witness_DecbOfALoneLeafRepeatsIt :
    (unpacking 3 loneA).rootV = true ∧ (unpacking 3 loneA).nodeAt (unpacking 3 loneA).root = .leaf 0x41 4 ∧
    (unpacking 3 loneA).upPos.toNat < (unpacking 3 loneA).upEnd.toNat := by decide +kernel

theorem witness_DecbRaisesExcessOrNoTree :
    State.reset.upPos = State.reset.upEnd ∧
    ((unpacking 8 State.reset).upPos.toNat < (unpacking 8 State.reset).upEnd.toNat ∧
      (unpacking 8 State.reset).rootV = false) := by decide

theorem witness_DecbDecodesItsValidBits :
    (unpacking 4 builtAB).upPos.toNat < (unpacking 4 builtAB).upEnd.toNat ∧ (unpacking 4 builtAB).rootV = true ∧
    ((unpacking 4 builtAB).nodeAt (unpacking 4 builtAB).cur).isLeaf = false := by decide +kernel

theorem unpacking_inv {s : State} (n : Nat) (h : s.TreeInv) : (unpacking n s).TreeInv :=
  ⟨h.1, h.2, h.3, h.4, h.5, h.6, h.7, h.8, h.9, h.10, h.11, h.12, h.13, h.14⟩

theorem witness_BuiltTreeNeverGivesBadCode :
    (unpacking 4 builtAB).TreeInv ∧ (unpacking 4 builtAB).tstate = .built ∧
    (unpacking 4 builtAB).upPos.toNat < (unpacking 4 builtAB).upEnd.toNat :=
  ⟨unpacking_inv 4 builtAB_inv, rfl, by decide⟩

/-- The four ways DEND's checks can come out. -/
theorem witness_DendChecksCompleteness :
    (({ unpacking 9 builtAB with cur := 1 } : State).upPos.toNat < (unpacking 9 builtAB).upEnd.toNat ∧
      ({ builtAB with cur := 1 } : State).rootV = true ∧ ({ builtAB with cur := 1 } : State).cur ≠ builtAB.root) ∧
    ((unpacking 9 builtAB).upPos.toNat < (unpacking 9 builtAB).upEnd.toNat ∧ builtAB.cur = builtAB.root) ∧
    (State.reset.upEnd.toNat ≤ State.reset.upPos.toNat ∧ State.reset.rootV = false) := by decide

theorem witness_DecodingReturnsTheSequence :
    (unpacking 3 builtAB).TreeInv ∧ (unpacking 3 builtAB).rootV = true ∧
    (∀ x ∈ ([0x41, 0x42, 0x41] : List Byte), (unpacking 3 builtAB).clenAt x ≠ 0) ∧
    (codesOf (unpacking 3 builtAB) [0x41, 0x42, 0x41]).length ≤ 2 ^ 64 - 1 ∧
    (unpacking 3 builtAB).upLimit.toNat = (codesOf (unpacking 3 builtAB) [0x41, 0x42, 0x41]).length :=
  ⟨unpacking_inv 3 builtAB_inv, rfl, by decide +kernel, by decide +kernel, by decide +kernel⟩

theorem witness_CompressThenDecompressRoundTrips : ∀ b, ([0x41, 0x41, 0x41, 0x42] : List Byte).count b < 2 ^ 32 := by
  intro b
  exact Nat.lt_of_le_of_lt List.count_le_length (by decide)

/-! ### Witnesses: the whole machine -/

theorem witness_EmitCountsThePushedBytes :
    (∀ sym, (builtAB.codeAt sym).length = (builtAB.clenAt sym).toNat) ∧ (∃ t, exec (.enc 0x41) builtAB = .next t) ∧
    Instr.enc 0x41 ≠ .clear := ⟨builtAB_inv.codeLength, ⟨_, rfl⟩, by decide⟩

theorem witness_ErrorBitsAreSticky :
    Instr.nop ≠ .clear ∧ (∃ t, exec .nop { State.reset with err := 0x001 } = .next t) ∧
    ErrBit.illegal.isSet ({ State.reset with err := 0x001 } : State).err = true ∧
    (16 : RegIdx) ≠ PortReg.err.idx ∧ (0x001#32).getLsbD ErrBit.seq.num = false ∧
    (0x800#32).getLsbD ErrBit.seq.num = true := ⟨by decide, ⟨_, rfl⟩, by decide, by decide, by decide, by decide⟩

theorem witness_ErrorBitsComeFromTheirCommands :
    (∃ t, exec (.enc 0x41) State.reset = .next t) ∧ ErrBit.noCode.isSet State.reset.err = false ∧
    ErrBit.noCode.isSet (run (.enc 0x41) State.reset).err = true := ⟨⟨_, rfl⟩, by decide, by decide +kernel⟩

theorem witness_CommandsWriteOnlyTheirUnits :
    (∃ t, exec .nop State.reset = .next t) ∧ (∀ sym, Instr.nop ≠ .count sym) ∧ Instr.nop ≠ .clear ∧
    Instr.nop ≠ .flush ∧ Instr.nop ≠ .build ∧ Instr.nop ≠ .tclr ∧ (∀ sym len, Instr.nop ≠ .loadc sym len) ∧
    (∀ sym, Instr.nop ≠ .enc sym) ∧ (∀ len val, Instr.nop ≠ .putb len val) ∧ (∀ b, Instr.nop ≠ .decb b) ∧
    (∀ b, Instr.nop ≠ .uraw b) ∧ Instr.nop ≠ .ustart ∧ Instr.nop ≠ .dend := by
  refine ⟨⟨_, rfl⟩, ?_, ?_, ?_, ?_, ?_, ?_, ?_, ?_, ?_, ?_, ?_, ?_⟩ <;> simp

theorem witness_StepKeepsTheTreeInvariant : (unpacking 4 builtAB).TreeInv ∧ ∃ t, step (unpacking 4 builtAB) = .next t :=
  ⟨unpacking_inv 4 builtAB_inv, ⟨_, rfl⟩⟩

theorem witness_StepKeepsPackerAndUnpackerInvariants :
    builtAB.PackerInv ∧ builtAB.UnpackerInv ∧ ∃ t, step builtAB = .next t :=
  ⟨reset_packerInv, Nat.le_refl _, ⟨_, rfl⟩⟩

theorem witness_StepKeepsTheFifoBound :
    (∀ sym, (builtAB.codeAt sym).length = (builtAB.clenAt sym).toNat) ∧ builtAB.FifoInv ∧ ∃ t, step builtAB = .next t :=
  ⟨builtAB_inv.codeLength, by unfold State.FifoInv; decide, ⟨_, rfl⟩⟩

theorem witness_MachineNeverStops : builtAB.TreeInv ∧ loadedA.TreeInv := ⟨builtAB_inv, loadedA_inv⟩

/-- A state whose arena differs above NODE_COUNT only. -/
theorem witness_UnusedArenaEntriesAreNeverRead :
    builtAB.TreeInv ∧ builtAB.sameInUse { builtAB with node := builtAB.node.set 7 (.leaf 0x99 5) } := by
  refine ⟨builtAB_inv, rfl, ?_⟩
  intro i hi
  refine Arena.at_put_other builtAB.node 7 i (.leaf 0x99 5) ?_
  rintro rfl
  revert hi
  decide

end Sys2Proof.Machine.Tests
end

section
/-! PROOFS. The frame of every command (spec/30_encoding.md R114), and what follows from the frames: which unit a command
writes, and that an error bit stays set. -/

namespace Sys2Proof.Machine

/-! ### The frame of every command

Each lemma names the elements a command may write; ERR only ever gains bits (R264). -/

/-- `PackBits` writes the packer, the FIFO and ERR alone. -/
theorem packBits_frame (c : Bits) (s : State) :
    ∃ m a n q, packBits c s = { s with err := s.err ||| m, acc := a, pkNbits := n, outq := q } := by
  rcases packBits_cases c s with ⟨-, h⟩ | ⟨-, h⟩
  · obtain ⟨a, q, e⟩ := packAll_frame c s
    exact ⟨0#12, a, _, _, by rw [h, e, BitVec.or_zero]⟩
  · exact ⟨_, _, _, _, h⟩

theorem execCount_frame {sym : Byte} {s t : State} (h : execCount sym s = .next t) :
    ∃ m f, t = { s with err := s.err ||| m, freq := f } := by
  rcases execCount_cases sym s with ⟨-, e⟩ | ⟨-, -, e⟩ | ⟨-, -, e⟩ <;> cases e.symm.trans h
  · exact ⟨_, _, rfl⟩
  · exact ⟨_, _, rfl⟩
  · exact ⟨0#12, _, by rw [BitVec.or_zero]; rfl⟩

theorem execEnc_frame {sym : Byte} {s t : State} (h : execEnc sym s = .next t) :
    ∃ m a n q, t = { s with err := s.err ||| m, acc := a, pkNbits := n, outq := q } := by
  unfold execEnc at h
  split at h <;> cases h
  · exact ⟨_, _, _, _, rfl⟩
  · exact packBits_frame _ s

theorem execPutb_frame {len : BitVec 5} {val : BitVec 16} {s t : State} (h : execPutb len val s = .next t) :
    ∃ m a n q, t = { s with err := s.err ||| m, acc := a, pkNbits := n, outq := q } := by
  unfold execPutb at h
  split at h <;> cases h
  · exact ⟨_, _, _, _, rfl⟩
  · exact packBits_frame _ s

/-- FLUSH starts an empty block whatever it pushes (R207). -/
theorem execFlush_frame {s t : State} (h : execFlush s = .next t) :
    ∃ q, t = { s with outq := q, pkTotal := s.pkNbits, pkNbits := 0, acc := 0 } := by
  unfold execFlush at h
  cases h
  split
  · exact ⟨_, rfl⟩
  · exact ⟨_, rfl⟩

theorem execUraw_frame {byte : Byte} {s t : State} (h : execUraw byte s = .next t) :
    ∃ m p b n, t = { s with err := s.err ||| m, upPos := p, upRawB := b, upRawN := n } := by
  unfold execUraw at h
  split at h <;> cases h
  · exact ⟨_, _, _, _, rfl⟩
  · exact ⟨0#12, _, _, _, by rw [BitVec.or_zero]; rfl⟩

/-- The decoded bits of a byte only add to ERR, besides OUTQ and CUR. -/
theorem decodeBits_err_or {bs : Bits} {s t : State} (h : decodeBits bs s = some t) :
    ∃ m q c, t = { s with err := s.err ||| m, outq := q, cur := c } := by
  obtain ⟨out, ht, -, he | he⟩ := decodeBits_frame h
  · exact ⟨0#12, _, _, by rw [BitVec.or_zero, ← he]; exact ht⟩
  · exact ⟨_, _, _, by rw [← he]; exact ht⟩

theorem execDecb_frame {byte : Byte} {s t : State} (h : execDecb byte s = .next t) :
    ∃ m p q c, t = { s with err := s.err ||| m, upPos := p, outq := q, cur := c } := by
  rcases execDecb_cases byte s with ⟨-, e⟩ | ⟨-, -, e⟩ | ⟨-, -, u, hu, e⟩ | ⟨-, -, -, e⟩ <;> cases e.symm.trans h
  · exact ⟨_, _, _, _, rfl⟩
  · exact ⟨_, _, _, _, rfl⟩
  · obtain ⟨m, q, c, ht⟩ := decodeBits_err_or hu
    exact ⟨m, _, q, c, ht⟩

theorem execDend_frame {s t : State} (h : execDend s = .next t) :
    ∃ m, t = { s with err := s.err ||| m, cur := s.root } := by
  have hshort : ∃ m, checkShort s = { s with err := s.err ||| m } := by
    unfold checkShort
    split
    · exact ⟨_, rfl⟩
    · exact ⟨0#12, by rw [BitVec.or_zero]⟩
  obtain ⟨m, hm⟩ := hshort
  have htrunc : ∃ m', checkTrunc (checkShort s) = { s with err := s.err ||| m' } := by
    rw [hm]
    unfold checkTrunc
    split
    · exact ⟨m ||| ErrBit.trunc.mask, by rw [← BitVec.or_assoc]; rfl⟩
    · exact ⟨m, rfl⟩
  obtain ⟨m', hm'⟩ := htrunc
  unfold execDend at h
  cases h
  exact ⟨m', by rw [hm']⟩

theorem execLoadc_frame {sym : Byte} {len : BitVec 8} {s t : State} (h : execLoadc sym len s = .next t) :
    ∃ (m : BitVec 12) (u : State), t =
      { s with
        err := s.err ||| m
        node := u.node
        nodeCount := u.nodeCount
        rootV := u.rootV
        root := u.root
        tstate := u.tstate
        clen := u.clen
        code := u.code
        numCodes := u.numCodes
        cur := u.cur } := by
  rcases execLoadc_cases sym len s with ⟨-, e⟩ | ⟨-, -, e⟩ | ⟨-, -, -, root, a, cnt, -, e⟩
  · cases e.symm.trans h
    exact ⟨_, s, rfl⟩
  · cases e.symm.trans h
    exact ⟨_, s, rfl⟩
  · have ht := Host.Outcome.next.inj (e.symm.trans h)
    exact ⟨0#12, t, by rw [BitVec.or_zero, ← ht]; rfl⟩

/-- Settles O54, from the frame of each command. -/
theorem commandsWriteOnlyTheirUnits : Obligations.CommandsWriteOnlyTheirUnits := by
  unfold Obligations.CommandsWriteOnlyTheirUnits
  intro i s t h
  cases i with
  | nop =>
    cases h
    simp
  | clear =>
    cases h
    simp
  | count sym =>
    obtain ⟨m, f, rfl⟩ := execCount_frame h
    simp
  | build =>
    obtain ⟨u, hu⟩ := buildWith_frame Config.tieDraw s
    cases (congrArg Host.Outcome.next hu).symm.trans h
    simp
  | tclr =>
    cases h
    simp
  | loadc sym len =>
    obtain ⟨m, u, rfl⟩ := execLoadc_frame h
    simp
  | enc sym =>
    obtain ⟨m, a, n, q, rfl⟩ := execEnc_frame h
    simp
  | putb len val =>
    obtain ⟨m, a, n, q, rfl⟩ := execPutb_frame h
    simp
  | flush =>
    obtain ⟨q, rfl⟩ := execFlush_frame h
    simp
  | ustart =>
    cases h
    simp
  | decb byte =>
    obtain ⟨m, p, q, c, rfl⟩ := execDecb_frame h
    simp
  | uraw byte =>
    obtain ⟨m, p, b, n, rfl⟩ := execUraw_frame h
    simp
  | dend =>
    obtain ⟨m, rfl⟩ := execDend_frame h
    simp

/-- No command but CLEAR removes an error bit (R264, R268). -/
theorem exec_err_or {i : Instr} {s t : State} (hi : i ≠ .clear) (h : exec i s = .next t) :
    ∃ m, t.err = s.err ||| m := by
  have hsame : ∃ m, s.err = s.err ||| m := ⟨0#12, by rw [BitVec.or_zero]⟩
  cases i with
  | nop =>
    cases h
    exact hsame
  | clear => exact absurd rfl hi
  | count sym =>
    obtain ⟨m, f, rfl⟩ := execCount_frame h
    exact ⟨m, rfl⟩
  | build =>
    obtain ⟨u, hu⟩ := buildWith_frame Config.tieDraw s
    cases (congrArg Host.Outcome.next hu).symm.trans h
    exact hsame
  | tclr =>
    cases h
    exact hsame
  | loadc sym len =>
    obtain ⟨m, u, rfl⟩ := execLoadc_frame h
    exact ⟨m, rfl⟩
  | enc sym =>
    obtain ⟨m, a, n, q, rfl⟩ := execEnc_frame h
    exact ⟨m, rfl⟩
  | putb len val =>
    obtain ⟨m, a, n, q, rfl⟩ := execPutb_frame h
    exact ⟨m, rfl⟩
  | flush =>
    obtain ⟨q, rfl⟩ := execFlush_frame h
    exact hsame
  | ustart =>
    cases h
    exact hsame
  | decb byte =>
    obtain ⟨m, p, q, c, rfl⟩ := execDecb_frame h
    exact ⟨m, rfl⟩
  | uraw byte =>
    obtain ⟨m, p, b, n, rfl⟩ := execUraw_frame h
    exact ⟨m, rfl⟩
  | dend =>
    obtain ⟨m, rfl⟩ := execDend_frame h
    exact ⟨m, rfl⟩

/-- ERR is the register at index 2 and no other (R82). -/
theorem regAt_eq_err (idx : RegIdx) : regAt idx = some .err ↔ idx = PortReg.err.idx := by
  revert idx
  decide

/-- A write elsewhere than at ERR removes no error bit. -/
theorem portWrite_err_or {idx : RegIdx} (v : Word) (s : State) (hidx : idx ≠ PortReg.err.idx) :
    ∃ m, (portWrite idx v s).err = s.err ||| m := by
  have hsame : ∃ m, s.err = s.err ||| m := ⟨0#12, by rw [BitVec.or_zero]⟩
  unfold portWrite
  cases hr : regAt idx with
  | none => exact hsame
  | some r =>
    cases r with
    | err => exact absurd ((regAt_eq_err idx).mp hr) hidx
    | cmd =>
      simp only [writeReg, writeCmd]
      split
      · exact ⟨_, rfl⟩
      · exact hsame
    | _ => exact hsame

/-- A host write to ERR clears the bits written as 1 and no others (R33, R84). -/
theorem isSet_portWrite_err (v : Word) (s : State) (e : ErrBit) :
    e.isSet (portWrite PortReg.err.idx v s).err = (e.isSet s.err && !v.getLsbD e.num) := by
  have hw : portWrite PortReg.err.idx v s = clearErrors v s := rfl
  simp [hw, ErrBit.isSet, e.num_lt]

/-- Settles O52: only CLEAR and a write of 1 to ERR remove a bit from ERR. -/
theorem errorBitsAreSticky : Obligations.ErrorBitsAreSticky := by
  unfold Obligations.ErrorBitsAreSticky
  refine ⟨fun i s t e hi h hset => ?_, fun idx v s e hset hor => ?_, fun v s e hv => ?_⟩
  · obtain ⟨m, hm⟩ := exec_err_or hi h
    rw [hm, ErrBit.isSet_or, hset, Bool.true_or]
  · by_cases hidx : idx = PortReg.err.idx
    · have hv : v.getLsbD e.num = false := hor.resolve_left (fun hne => hne hidx)
      rw [hidx, isSet_portWrite_err, hset, hv]
      rfl
    · obtain ⟨m, hm⟩ := portWrite_err_or v s hidx
      rw [hm, ErrBit.isSet_or, hset, Bool.true_or]
  · rw [isSet_portWrite_err, hv, Bool.not_true, Bool.and_false]

end Sys2Proof.Machine
end

section
/-! PROOFS. The state after reset (spec/10_state.md R55, R56), the registers STATUS, OUT_DATA and OUT_LEVEL (R32, R35), and the bit
order of the load buffer (R39, R119). -/

namespace Sys2Proof.Machine

/-! ### Reset -/

theorem freqAt_resetWith (p : Params) (sym : Byte) : (State.resetWith p).freqAt sym = 0 := by
  simp [State.freqAt, State.resetWith]

theorem clenAt_resetWith (p : Params) (sym : Byte) : (State.resetWith p).clenAt sym = 0 := by
  simp [State.clenAt, State.resetWith]

theorem codeAt_resetWith (p : Params) (sym : Byte) : (State.resetWith p).codeAt sym = [] := by
  simp [State.codeAt, State.resetWith]

theorem ldBits_resetWith (p : Params) (j : Fin 8) : readReg (.ldBits j) (State.resetWith p) = 0 := by
  simp [readReg, State.resetWith]

/-- Settles O1, field by field. -/
theorem resetLeavesTheTabledValues : Obligations.ResetLeavesTheTabledValues := by
  unfold Obligations.ResetLeavesTheTabledValues
  intro p s
  exact ⟨rfl, rfl, rfl, rfl, fun sym => ⟨freqAt_resetWith p sym, clenAt_resetWith p sym, codeAt_resetWith p sym⟩,
    rfl, rfl, rfl, rfl, rfl, rfl, rfl, rfl, rfl, rfl, rfl, rfl, rfl, rfl, rfl, ldBits_resetWith p, rfl⟩

/-- Where no symbol has a code, the number of codes is 0. -/
theorem codeCount_eq_zero {s : State} (h : ∀ sym, s.clenAt sym = 0) : s.codeCount = 0 := by
  simp [State.codeCount, h]

/-- R55: without a tree, with everything about it cleared, the tree invariant holds. -/
theorem State.TreeInv.of_cleared {s : State} (hv : s.rootV = false) (hts : s.tstate = .empty) (hroot : s.root = 0)
    (hcnt : s.nodeCount = 0) (hclen : ∀ sym, s.clenAt sym = 0) (hcode : ∀ sym, s.codeAt sym = [])
    (hnum : s.numCodes = 0) : s.TreeInv where
  absent _ := ⟨hts, hroot, hcnt, hclen⟩
  present h := by simp [hv] at h
  capacity := by simp [hcnt]
  reachedInUse h := by simp [hv] at h
  reachedOnce h := by simp [hv] at h
  codedLeaf h := by simp [hv] at h
  codePath h := by simp [hv] at h
  codeLength sym := by simp [hclen, hcode]
  strict h := by simp [hts] at h
  fruitful h := by simp [hv] at h
  prefixFree a _ _ ha := absurd (hclen a) ha
  loadedRoot h := by simp [hts] at h
  cursor h := by simp [hv] at h
  counted := by simp [hnum, codeCount_eq_zero hclen]

theorem resetWith_treeInv (p : Params) : (State.resetWith p).TreeInv :=
  .of_cleared rfl rfl rfl rfl (clenAt_resetWith p) (codeAt_resetWith p) rfl

/-- Settles O55: nothing is coded, packed, delivered or queued. -/
theorem resetMeetsTheInvariant : Obligations.ResetMeetsTheInvariant := by
  unfold Obligations.ResetMeetsTheInvariant
  intro p
  exact ⟨resetWith_treeInv p, fun j _ => BitVec.getLsbD_zero, Nat.le_refl 0, Nat.zero_le _⟩

/-! ### STATUS, OUT_DATA and OUT_LEVEL -/

/-- The five fields of STATUS and its reserved bits (R32). -/
theorem status_fields (s : State) :
    s.status.getLsbD 0 = s.pendV ∧ s.status.getLsbD 1 = s.rootV ∧ s.status.extractLsb' 2 2 = s.tstate.bits ∧
      s.status.getLsbD 4 = s.atRoot ∧ s.status.getLsbD 5 = s.errAny ∧ s.status.extractLsb' 6 26 = 0 := by
  unfold State.status
  generalize s.pendV = busy, s.rootV = valid, s.tstate.bits = ts, s.atRoot = atRoot, s.errAny = errAny
  revert busy valid ts atRoot errAny
  decide

/-- Settles O3: the fields, from `status_fields`, and what AT_ROOT and ERR_ANY are computed from. -/
theorem statusShowsItsFields : Obligations.StatusShowsItsFields := by
  unfold Obligations.StatusShowsItsFields
  refine ⟨fun s => ?_, rfl⟩
  obtain ⟨hbusy, hvalid, hts, hat, herr, hres⟩ := status_fields s
  refine ⟨hbusy, hvalid, ?_, ?_, ?_, hres, fun v => rfl⟩
  · rw [show readReg .status s = s.status from rfl, hts]
    cases s.tstate <;> rfl
  · rw [show readReg .status s = s.status from rfl, hat]
    simp [State.atRoot]
  · rw [show readReg .status s = s.status from rfl, herr]
    simp [State.errAny]

/-- OUT_DATA of a non-empty FIFO is VALID in bit 8 above the head byte (R35). -/
theorem outData_word (b : Byte) : (0#23 ++ 1#1 ++ b : Word) = 0x100#32 ||| b.setWidth 32 := by
  revert b
  decide

/-- Settles O4: a non-empty FIFO shows its head and loses it, an empty one reads 0, and OUT_LEVEL is its length. -/
theorem outDataReadPopsTheHead : Obligations.OutDataReadPopsTheHead := by
  unfold Obligations.OutDataReadPopsTheHead
  intro s
  have hread : portRead PortReg.outData.idx s = (readReg .outData s, { s with outq := s.outq.tail }) := rfl
  refine ⟨fun b rest hq => ?_, fun hq => ?_, fun hlt => levelWord_toNat hlt⟩
  · rw [hread]
    simp only [readReg, hq, List.tail_cons, outData_word, and_self]
  · rw [hread]
    have hself : ({ s with outq := s.outq.tail } : State) = s := by rw [hq, List.tail_nil, ← hq]
    rw [hself]
    simp only [readReg, hq]

/-! ### The load buffer -/

/-- Bit `i` of a list of words written out is bit `31 − (i mod 32)` of word `i div 32`. -/
theorem flatMap_wordBits_getElem? (ws : List Word) (i : Nat) :
    (ws.flatMap wordBits)[i]? = ws[i / 32]?.map (fun w => w.getLsbD (31 - i % 32)) := by
  induction ws generalizing i with
  | nil => simp
  | cons w ws ih =>
    rw [List.flatMap_cons]
    by_cases hi : i < 32
    · rw [List.getElem?_append_left (by simpa using hi), wordBits_getElem? w i hi, Nat.div_eq_of_lt hi,
        Nat.mod_eq_of_lt hi]
      rfl
    · have hdiv : i / 32 = (i - 32) / 32 + 1 := by omega
      have hmod : (i - 32) % 32 = i % 32 := by omega
      rw [List.getElem?_append_right (by simpa using hi), wordBits_length, ih, hdiv, hmod, List.getElem?_cons_succ]

/-- R39: bit `i` of the load buffer is register `LD_BITS(i div 32)` bit `31 − (i mod 32)`. -/
theorem loadBuffer_getElem? (ld : Vector Word 8) (i : Nat) :
    (loadBuffer ld)[i]? = ld[i / 32]?.map (fun w => w.getLsbD (31 - i % 32)) := by
  rw [loadBuffer, flatMap_wordBits_getElem?, Vector.getElem?_toList]

/-- Each turn of the fold of `wordOfBits` shifts the bits so far up by one and puts the next bit at the bottom. -/
theorem foldl_shiftIn_getLsbD (f : Nat → Bool) (m n : Nat) (hm : m ≤ 32) (hn : n < m) :
    ((List.range m).foldl (fun (w : Word) n => (w <<< 1) ||| (BitVec.ofBool (f n)).setWidth 32) 0#32).getLsbD (m - 1 - n) =
      f n := by
  induction m with
  | zero => omega
  | succ m ih =>
    rw [List.range_succ, List.foldl_append, List.foldl_cons, List.foldl_nil, BitVec.getLsbD_or, BitVec.getLsbD_shiftLeft]
    by_cases h : n = m
    · subst h
      simp
    · have hlast : m + 1 - 1 - n - 1 = m - 1 - n := by omega
      have hlt : m - n < 32 := by omega
      have hpos : m - n ≠ 0 := by omega
      have hpos' : ¬ m - n < 1 := by omega
      rw [hlast, ih (by omega) (by omega)]
      simp [hlt, hpos, hpos']

theorem wordOfBits_getLsbD (f : Nat → Bool) (n : Nat) (hn : n < 32) : (wordOfBits f).getLsbD (31 - n) = f n :=
  foldl_shiftIn_getLsbD f 32 n (Nat.le_refl 32) hn

/-- Bit `31 − n` of LDCODE's word `j` is bit `32j + n` of the code, and 0 past its end (R119). -/
theorem loadWord_getLsbD (c : Bits) (j n : Nat) (hn : n < 32) :
    (loadWord c j).getLsbD (31 - n) = c.getD (32 * j + n) false := by
  rw [loadWord, codeWord, wordOfBits_getLsbD _ _ hn]
  by_cases h : 32 * j + n < c.length
  · simp [h]
  · simp [h]

/-- Settles O9: the buffer's bits are the registers' bits, and LDCODE's words put bit `i` of the code there. -/
theorem loadBufferBitOrder : Obligations.LoadBufferBitOrder := by
  unfold Obligations.LoadBufferBitOrder
  refine ⟨fun ld i _ => loadBuffer_getElem? ld i, fun c hc => ?_⟩
  apply List.ext_getElem?
  intro i
  rw [List.getElem?_take]
  by_cases hi : i < c.length
  · have hword : i / 32 < 8 := by omega
    have hpos : 32 * (i / 32) + i % 32 = i := Nat.div_add_mod i 32
    rw [if_pos hi, loadBuffer_getElem?, Vector.getElem?_ofFn, dif_pos hword, Option.map_some,
      loadWord_getLsbD _ _ _ (Nat.mod_lt _ (by decide)), hpos]
    simp [hi]
  · rw [if_neg hi, List.getElem?_eq_none (by omega)]

end Sys2Proof.Machine
end

section
/-! PROOFS. The rule by which a property passes through a step of the machine (spec/60_exceptions.md R260, R263), and the invariants of
the packer, the unpacker (spec/10_state.md R49, R50, R55) and the FIFO (R40, R262). -/

namespace Sys2Proof.Machine

/-- To show `Q` after every step from `P`, show it after a host turn, a reset, a word that is no command, and a command that the
core was free to run; a turn of a core that is not enabled changes nothing. `P` must not speak of the turns to come. -/
theorem step_rule {P Q : State → Prop} (hsched : ∀ s turns, P s → P { s with sched := turns }) (hidle : ∀ s, P s → Q s)
    (hhost : ∀ s, P s → Q (hostStep s)) (hreset : ∀ s, P s → Q (assertReset s))
    (hillegal : ∀ s, P s → Q (retire (raise .illegal s)))
    (hexec : ∀ i s u, P s → coreEnabled s = true → decode s.pendW = .ok i → exec i s = .next u → Q (retire u))
    {s t : State} (hs : P s) (h : step s = .next t) : Q t := by
  obtain ⟨turns, rfl | hcore | rfl⟩ := step_cases h
  · exact hhost _ (hsched s turns hs)
  · rcases coreStep_cases hcore with ⟨-, rfl⟩ | ⟨-, -, rfl⟩ | ⟨hen, i, u, hdec, hexe, rfl⟩
    · exact hidle _ (hsched s turns hs)
    · exact hillegal _ (hsched s turns hs)
    · exact hexec i _ u (hsched s turns hs) hen hdec hexe
  · exact hreset _ (hsched s turns hs)

/-! ### The packer -/

/-- PK_NBITS counts modulo 2^64, a multiple of 8. -/
theorem pkNbits_succ_mod (n : BitVec 64) : (n + 1).toNat % 8 = (n.toNat + 1) % 8 := by
  rw [BitVec.toNat_add, show (1 : BitVec 64).toNat = 1 from rfl]
  omega

@[simp] theorem packBit_pkNbits (b : Bool) (s : State) : (packBit b s).pkNbits = s.pkNbits + 1 := by
  obtain ⟨a, q, h⟩ := packBit_frame b s
  rw [h]

theorem State.PackerInv.congr {s t : State} (h : s.PackerInv) (hacc : t.acc = s.acc) (hn : t.pkNbits = s.pkNbits) :
    t.PackerInv := by
  unfold State.PackerInv
  rw [hacc, hn]
  exact h

theorem packerInv_of_acc_zero {s : State} (h : s.acc = 0) : s.PackerInv := fun j _ => by
  rw [h]
  exact BitVec.getLsbD_zero

/-- A bit is placed at the highest unfilled position, so those below it stay 0 (R200). -/
theorem packBit_packerInv {b : Bool} {s : State} (h : s.PackerInv) : (packBit b s).PackerInv := by
  rw [packBit_eq]
  split
  · exact packerInv_of_acc_zero rfl
  · rename_i hpart
    intro j hj
    dsimp only at hj ⊢
    rw [pkNbits_succ_mod] at hj hpart
    rw [setBit_getLsbD _ _ _ _ (by omega), if_neg (by omega)]
    exact h j (by omega)

theorem packAll_packerInv {c : Bits} {s : State} (h : s.PackerInv) : (packAll c s).PackerInv := by
  induction c generalizing s with
  | nil => exact h
  | cons b bs ih => exact ih (packBit_packerInv h)

theorem packBits_packerInv {c : Bits} {s : State} (h : s.PackerInv) : (packBits c s).PackerInv := by
  rcases packBits_cases c s with ⟨-, e⟩ | ⟨-, e⟩ <;> rw [e]
  · exact packAll_packerInv h
  · exact h

/-- Every command keeps ACC's unfilled bits 0 (R55): ENC and PUTB append, FLUSH and CLEAR empty ACC, the others leave it. -/
theorem exec_packerInv {i : Instr} {s t : State} (hs : s.PackerInv) (h : exec i s = .next t) : t.PackerInv := by
  obtain ⟨-, -, -, -, -, hpacker, -⟩ := commandsWriteOnlyTheirUnits i s t h
  cases i with
  | clear =>
    cases h
    exact packerInv_of_acc_zero rfl
  | enc sym =>
    simp only [exec, execEnc] at h
    split at h <;> cases h
    · exact hs
    · exact packBits_packerInv hs
  | putb len val =>
    simp only [exec, execPutb] at h
    split at h <;> cases h
    · exact hs
    · exact packBits_packerInv hs
  | flush =>
    obtain ⟨q, rfl⟩ := execFlush_frame h
    exact packerInv_of_acc_zero rfl
  | _ =>
    obtain ⟨hacc, hn⟩ := hpacker (by simp) (by simp) (by simp) (by simp)
    exact hs.congr hacc hn

/-! ### The unpacker -/

theorem State.UnpackerInv.congr {s t : State} (h : s.UnpackerInv) (hpos : t.upPos = s.upPos) (hend : t.upEnd = s.upEnd) :
    t.UnpackerInv := by
  unfold State.UnpackerInv
  rw [hpos, hend]
  exact h

/-- At most the bits that are left are delivered (R221). -/
theorem unpackAdvance_unpackerInv {s : State} (h : s.UnpackerInv) : (unpackAdvance s).UnpackerInv := by
  have hend := s.upEnd.isLt
  unfold State.UnpackerInv at h ⊢
  simp only [unpackAdvance_upPos, unpackAdvance_upEnd, BitVec.toNat_add, BitVec.toNat_ofNat, State.upValid, State.upLeft]
  omega

/-- Every command keeps UP_POS at or below UP_END (R50): URAW and DECB advance it, USTART and CLEAR start at 0. -/
theorem exec_unpackerInv {i : Instr} {s t : State} (hs : s.UnpackerInv) (h : exec i s = .next t) : t.UnpackerInv := by
  obtain ⟨-, -, -, -, -, -, hpos, -, hend, -⟩ := commandsWriteOnlyTheirUnits i s t h
  cases i with
  | clear =>
    cases h
    exact Nat.le_refl 0
  | ustart =>
    cases h
    exact Nat.zero_le _
  | decb byte =>
    rcases execDecb_cases byte s with ⟨-, e⟩ | ⟨-, -, e⟩ | ⟨-, -, u, hu, e⟩ | ⟨-, -, -, e⟩ <;> cases e.symm.trans h
    · exact hs
    · exact unpackAdvance_unpackerInv hs
    · obtain ⟨m, q, c, rfl⟩ := decodeBits_err_or hu
      exact unpackAdvance_unpackerInv hs
  | uraw byte =>
    simp only [exec, execUraw] at h
    split at h <;> cases h
    · exact hs
    · exact unpackAdvance_unpackerInv hs
  | _ => exact hs.congr (hpos (by simp) (by simp) (by simp) (by simp)) (hend (by simp) (by simp))

theorem hostStep_packerInv {s : State} (h : s.PackerInv) : (hostStep s).PackerInv := by
  obtain ⟨u, hu⟩ := hostStep_frame s
  rw [hu]
  exact h

theorem hostStep_unpackerInv {s : State} (h : s.UnpackerInv) : (hostStep s).UnpackerInv := by
  obtain ⟨u, hu⟩ := hostStep_frame s
  rw [hu]
  exact h

/-- Settles O57, turn by turn. -/
theorem stepKeepsPackerAndUnpackerInvariants : Obligations.StepKeepsPackerAndUnpackerInvariants := by
  unfold Obligations.StepKeepsPackerAndUnpackerInvariants
  intro s t hp hu h
  refine step_rule (P := fun s => s.PackerInv ∧ s.UnpackerInv) (Q := fun s => s.PackerInv ∧ s.UnpackerInv)
    (fun _ _ hs => hs) (fun _ hs => hs) ?host ?reset (fun _ hs => hs) ?exec ⟨hp, hu⟩ h
  case host => exact fun s hs => ⟨hostStep_packerInv hs.1, hostStep_unpackerInv hs.2⟩
  case reset => exact fun s _ => ⟨packerInv_of_acc_zero rfl, Nat.le_refl 0⟩
  case exec =>
    intro i s u hs _ _ he
    have hpu : u.PackerInv ∧ u.UnpackerInv := ⟨exec_packerInv hs.1 he, exec_unpackerInv hs.2 he⟩
    exact hpu

/-! ### The FIFO -/

/-- A byte is pushed when the bit completes it (R200). -/
theorem packBit_outq_length (b : Bool) (s : State) :
    (packBit b s).outq.length = s.outq.length + (s.pkNbits.toNat % 8 + 1) / 8 := by
  rw [packBit_eq, pkNbits_succ_mod]
  split
  · rw [List.length_append, List.length_singleton]
    omega
  · dsimp only
    omega

/-- The pending bits and the appended ones push a byte per eight (R195, R200). -/
theorem packAll_outq_length (c : Bits) (s : State) :
    (packAll c s).outq.length = s.outq.length + (s.pkNbits.toNat % 8 + c.length) / 8 := by
  induction c generalizing s with
  | nil =>
    rw [packAll, List.length_nil]
    omega
  | cons b bs ih =>
    rw [packAll, ih, packBit_outq_length, packBit_pkNbits, pkNbits_succ_mod, List.length_cons]
    omega

theorem packBits_outq_length (c : Bits) (s : State) : (packBits c s).outq.length =
    s.outq.length + if s.packFits c.length then (s.pkNbits.toNat % 8 + c.length) / 8 else 0 := by
  unfold packBits
  split
  · rw [packAll_outq_length]
  · rfl

/-- `Emit` of DECB's walk counts the bytes the walk pushes (R247). -/
theorem decodeBits_outq_length {bs : Bits} {s t : State} (h : decodeBits bs s = some t) :
    t.outq.length = s.outq.length + decodePushes bs s := by
  induction bs generalizing s with
  | nil =>
    cases Option.some.inj h
    rfl
  | cons b bs ih =>
    unfold decodeBits at h
    unfold decodePushes
    cases hb : decodeBit b s with
    | none => simp [hb] at h
    | some u =>
      simp only [hb] at h
      obtain ⟨out, hu, hlen, -⟩ := decodeBit_frame hb
      have hpush : u.outq.length = s.outq.length + out.length := by rw [hu, List.length_append]
      rw [ih h]
      dsimp only
      split <;> omega

/-- R262: a command other than CLEAR pushes `Emit` bytes. -/
theorem exec_outq_length {i : Instr} {s t : State} (hlen : ∀ sym, (s.codeAt sym).length = (s.clenAt sym).toNat)
    (hi : i ≠ .clear) (h : exec i s = .next t) : t.outq.length = s.outq.length + emit i s := by
  obtain ⟨-, -, -, -, -, -, -, -, -, -, houtq, -⟩ := commandsWriteOnlyTheirUnits i s t h
  cases i with
  | clear => exact absurd rfl hi
  | enc sym =>
    simp only [exec, execEnc] at h
    split at h <;> cases h
    · rename_i hno
      simp [emit, hno]
    · rename_i hyes
      rw [packBits_outq_length, hlen, emit]
      simp only [ne_eq, hyes, not_false_eq_true, true_and]
  | putb len val =>
    simp only [exec, execPutb] at h
    split at h <;> cases h
    · rename_i hbad
      have hno : ¬ (1 ≤ len.toNat ∧ len.toNat ≤ 16) := by omega
      simp [emit, hno]
    · rename_i hok
      have hyes : 1 ≤ len.toNat ∧ len.toNat ≤ 16 := by omega
      simp [emit, packBits_outq_length, hyes]
  | flush =>
    simp only [exec, execFlush] at h
    cases h
    simp only [emit]
    split <;> simp
  | decb byte =>
    rcases execDecb_cases byte s with ⟨hl, e⟩ | ⟨hl, hv, e⟩ | ⟨hl, hv, u, hu, e⟩ | ⟨-, -, -, e⟩ <;> cases e.symm.trans h
    · simp [emit, hl]
    · simp [emit, hv]
    · simp [emit, hl, hv, decodeBits_outq_length hu]
  | _ => exact congrArg List.length (houtq (by simp) (by simp) (by simp) (by simp) (by simp))

/-- A host turn pushes no byte. -/
theorem hostStep_outq_length_le (s : State) : (hostStep s).outq.length ≤ s.outq.length := by
  have hread : ∀ (idx : RegIdx) (u : State), (hostReadIdx idx u).outq.length ≤ u.outq.length := by
    intro idx u
    obtain ⟨q, hq, rfl | rfl⟩ := portRead_frame idx u <;> rw [hostReadIdx, hq]
    simp
  have hread' : ∀ (r : PortReg) (u : State), (hostRead r u).outq.length ≤ u.outq.length := fun r u => hread r.idx u
  unfold hostStep
  split
  · exact Nat.le_refl _
  · rename_i idx v rest _
    obtain ⟨t, ht⟩ := portWrite_frame idx v { s with hostProg := rest }
    rw [ht]
  · exact hread _ _
  · split <;> exact hread' _ _
  · split <;> exact hread' _ _

/-- An enabled core has room for what its command pushes, so the FIFO stays within its bound (R262). -/
theorem exec_fifoInv {i : Instr} {s u : State} (hlen : ∀ sym, (s.codeAt sym).length = (s.clenAt sym).toNat)
    (hs : s.FifoInv) (hen : coreEnabled s = true) (hdec : decode s.pendW = .ok i) (h : exec i s = .next u) :
    u.FifoInv := by
  obtain ⟨⟨-, -, -, -, hparams, -⟩, -⟩ := commandsWriteOnlyTheirUnits i s u h
  have hroom : emit i s ≤ s.params.outDepth - s.outq.length := by
    simp only [coreEnabled, emitWord, hdec, Bool.and_eq_true, decide_eq_true_eq] at hen
    exact hen.2
  unfold State.FifoInv at hs ⊢
  rw [hparams]
  by_cases hi : i = .clear
  · subst hi
    cases h
    exact Nat.zero_le _
  · rw [exec_outq_length hlen hi h]
    omega

/-- Settles O58: the host only takes bytes out, and the core waits for room. -/
theorem stepKeepsTheFifoBound : Obligations.StepKeepsTheFifoBound := by
  unfold Obligations.StepKeepsTheFifoBound
  intro s t hlen hf h
  refine step_rule
    (P := fun u => (∀ sym, (u.codeAt sym).length = (u.clenAt sym).toNat) ∧ u.FifoInv ∧ u.params = s.params)
    (Q := fun u => u.FifoInv ∧ u.params = s.params)
    (fun _ _ hu => hu) (fun _ hu => hu.2) ?host ?reset (fun _ hu => hu.2) ?exec ⟨hlen, hf, rfl⟩ h
  case host =>
    rintro u ⟨-, hfu, hpu⟩
    have hparams : (hostStep u).params = u.params := by
      obtain ⟨v, hv⟩ := hostStep_frame u
      rw [hv]
    refine ⟨?_, hparams.trans hpu⟩
    unfold State.FifoInv
    rw [hparams]
    exact (hostStep_outq_length_le u).trans hfu
  case reset => exact fun u ⟨_, _, hpu⟩ => ⟨Nat.zero_le _, hpu⟩
  case exec =>
    rintro i u v ⟨hlenu, hfu, hpu⟩ hen hdec he
    obtain ⟨⟨-, -, -, -, hparams, -⟩, -⟩ := commandsWriteOnlyTheirUnits i u v he
    have hfv : v.FifoInv := exec_fifoInv hlenu hfu hen hdec he
    exact ⟨hfv, hparams.trans hpu⟩

end Sys2Proof.Machine
end

section
/-! PROOFS. Walks in the tree arena (spec/10_state.md R42, R55): which entries a walk sees, forests, and when the tree invariant
follows from the tree's shape and its leaves. -/

namespace Sys2Proof.Machine

/-! ### Children -/

theorem Node.child_eq_none_of_isLeaf {n : Node} (h : n.isLeaf = true) (b : Bool) : n.child b = none := by
  cases n with
  | leaf sym f => rfl
  | internal f l r => cases h

@[simp] theorem Node.isLeaf_setChild (n : Node) (side : Bool) (i : NodeIdx) : (n.setChild side i).isLeaf = n.isLeaf := by
  cases n with
  | leaf sym f => rfl
  | internal f l r => cases side <;> rfl

theorem Node.child_setChild {n : Node} (h : n.isLeaf = false) (side b : Bool) (i : NodeIdx) :
    (n.setChild side i).child b = if b = side then some i else n.child b := by
  cases n with
  | leaf sym f => cases h
  | internal f l r => cases side <;> cases b <;> rfl

theorem Node.isLeaf_of_eq_leaf {n : Node} {sym : Byte} {f : BitVec 40} (h : n = .leaf sym f) : n.isLeaf = true := by
  rw [h]
  rfl

/-! ### Walks -/

@[simp] theorem Arena.walk_nil (a : Arena) (i : NodeIdx) : a.walk i [] = some i := rfl

theorem Arena.walk_cons (a : Arena) (i : NodeIdx) (b : Bool) (p : Bits) :
    a.walk i (b :: p) = ((a.at i).child b).bind (fun j => a.walk j p) := by
  rw [Arena.walk]
  cases (a.at i).child b <;> rfl

theorem Arena.walk_append (a : Arena) (i : NodeIdx) (p q : Bits) :
    a.walk i (p ++ q) = (a.walk i p).bind (fun j => a.walk j q) := by
  induction p generalizing i with
  | nil => rfl
  | cons b p ih =>
    rw [List.cons_append, Arena.walk_cons, Arena.walk_cons]
    cases (a.at i).child b with
    | none => rfl
    | some j => exact ih j

/-- A walk that ends with bit `b` comes from a node whose child on side `b` is where it ends. -/
theorem Arena.walk_concat_eq_some {a : Arena} {i j : NodeIdx} {p : Bits} {b : Bool} :
    a.walk i (p ++ [b]) = some j ↔ ∃ k, a.walk i p = some k ∧ (a.at k).child b = some j := by
  simp [Arena.walk_append, Arena.walk_cons, Option.bind_eq_some_iff]

theorem Arena.walk_cons_eq_some {a : Arena} {i j : NodeIdx} {p : Bits} {b : Bool} :
    a.walk i (b :: p) = some j ↔ ∃ k, (a.at i).child b = some k ∧ a.walk k p = some j := by
  rw [Arena.walk_cons, Option.bind_eq_some_iff]

/-- From a node without children a walk goes nowhere. -/
theorem Arena.walk_of_childless {a : Arena} {i j : NodeIdx} {p : Bits} (h : ∀ b, (a.at i).child b = none)
    (hw : a.walk i p = some j) : p = [] ∧ i = j := by
  cases p with
  | nil => exact ⟨rfl, Option.some.inj hw⟩
  | cons b p =>
    obtain ⟨k, hk, -⟩ := Arena.walk_cons_eq_some.mp hw
    rw [h] at hk
    cases hk

theorem Arena.walk_of_isLeaf {a : Arena} {i j : NodeIdx} {p : Bits} (h : (a.at i).isLeaf = true)
    (hw : a.walk i p = some j) : p = [] ∧ i = j := Arena.walk_of_childless (Node.child_eq_none_of_isLeaf h) hw

/-- A leaf for `sym` with NFREQ `f` stands at the end of path `p` from `i`. -/
def Arena.LeafAt (a : Arena) (i : NodeIdx) (p : Bits) (sym : Byte) (f : BitVec 40) : Prop :=
  ∃ j, a.walk i p = some j ∧ a.at j = .leaf sym f

/-- Below the path of a leaf there is nothing. -/
theorem Arena.LeafAt.eq_nil_of_append {a : Arena} {i : NodeIdx} {p q : Bits} {x y : Byte} {f g : BitVec 40}
    (hx : a.LeafAt i p x f) (hy : a.LeafAt i (p ++ q) y g) : q = [] ∧ x = y := by
  obtain ⟨j, hj, hxj⟩ := hx
  obtain ⟨k, hk, hyk⟩ := hy
  rw [Arena.walk_append, hj, Option.bind_some] at hk
  obtain ⟨hq, rfl⟩ := Arena.walk_of_isLeaf (Node.isLeaf_of_eq_leaf hxj) hk
  rw [hxj] at hyk
  cases hyk
  exact ⟨hq, rfl⟩

/-! ### The entries in use -/

/-- The first `n` entries are the same in both arenas. -/
def Arena.Agree (n : Nat) (a b : Arena) : Prop := ∀ i : NodeIdx, i.val < n → b.at i = a.at i

/-- The children of the first `n` entries are among the first `n`. -/
def Arena.Closed (a : Arena) (n : Nat) : Prop := ∀ i : NodeIdx, i.val < n → ∀ b j, (a.at i).child b = some j → j.val < n

/-- The children of each of the first `n` entries come before it. -/
def Arena.Descends (a : Arena) (n : Nat) : Prop :=
  ∀ i : NodeIdx, i.val < n → ∀ b j, (a.at i).child b = some j → j.val < i.val

/-- Every internal node among the first `n` entries has a child, `off` perhaps excepted. -/
def Arena.FruitfulOff (a : Arena) (n : Nat) (off : NodeIdx → Prop) : Prop :=
  ∀ i : NodeIdx, i.val < n → ¬ off i → (a.at i).isLeaf = false → ∃ b j, (a.at i).child b = some j

/-- Every internal node among the first `n` entries has both children. -/
def Arena.Full (a : Arena) (n : Nat) : Prop :=
  ∀ i : NodeIdx, i.val < n → (a.at i).isLeaf = false → ∀ b, ∃ j, (a.at i).child b = some j

theorem Arena.Full.fruitfulOff {a : Arena} {n : Nat} (h : a.Full n) (off : NodeIdx → Prop) : a.FruitfulOff n off :=
  fun i hi _ hl => ⟨false, h i hi hl false⟩

theorem Arena.Closed.walk_lt {a : Arena} {n : Nat} {i j : NodeIdx} {p : Bits} (h : a.Closed n) (hi : i.val < n)
    (hw : a.walk i p = some j) : j.val < n := by
  induction p generalizing i with
  | nil =>
    cases Option.some.inj hw
    exact hi
  | cons b p ih =>
    obtain ⟨k, hk, hw⟩ := Arena.walk_cons_eq_some.mp hw
    exact ih (h i hi b k hk) hw

/-- Each step of a walk leads to an earlier entry, so a walk is at most as long as the index it starts from. -/
theorem Arena.Descends.walk_length {a : Arena} {n : Nat} {i j : NodeIdx} {p : Bits} (h : a.Descends n) (hi : i.val < n)
    (hw : a.walk i p = some j) : j.val + p.length ≤ i.val := by
  induction p generalizing i with
  | nil =>
    cases Option.some.inj hw
    exact Nat.le_refl _
  | cons b p ih =>
    obtain ⟨k, hk, hw⟩ := Arena.walk_cons_eq_some.mp hw
    have hlt := h i hi b k hk
    have := ih (hlt.trans hi) hw
    rw [List.length_cons]
    omega

/-- Walks from an entry in use see no other entries. -/
theorem Arena.Agree.walk_eq {a b : Arena} {n : Nat} {i : NodeIdx} (h : Arena.Agree n a b) (hc : a.Closed n)
    (hi : i.val < n) (p : Bits) : b.walk i p = a.walk i p := by
  induction p generalizing i with
  | nil => rfl
  | cons c p ih =>
    rw [Arena.walk_cons, Arena.walk_cons, h i hi]
    cases hch : (a.at i).child c with
    | none => rfl
    | some j => exact ih (hc i hi c j hch)

theorem Arena.Agree.mono {a b : Arena} {m n : Nat} (h : Arena.Agree n a b) (hm : m ≤ n) : Arena.Agree m a b :=
  fun i hi => h i (hi.trans_le hm)

theorem Arena.agree_put_of_le (a : Arena) {n : Nat} {i : NodeIdx} (x : Node) (h : n ≤ i.val) :
    Arena.Agree n a (a.put i x) := fun j hj => Arena.at_put_other a i j x (fun e => by subst e; omega)

/-- The same entry written in both arenas. -/
theorem Arena.Agree.put {a b : Arena} {n : Nat} (h : Arena.Agree n a b) (i : NodeIdx) (x : Node) :
    Arena.Agree n (a.put i x) (b.put i x) := by
  intro j hj
  by_cases e : j = i
  · rw [e, Arena.at_put_same, Arena.at_put_same]
  · rw [Arena.at_put_other _ _ _ _ e, Arena.at_put_other _ _ _ _ e, h j hj]

/-- The next entry written in both arenas: one more entry is the same. -/
theorem Arena.Agree.put_next {a b : Arena} {n : Nat} (h : Arena.Agree n a b) (hn : n < Config.nodeCap) (x : Node) :
    Arena.Agree (n + 1) (a.put (idxOf n) x) (b.put (idxOf n) x) := by
  intro j hj
  by_cases e : j = idxOf n
  · rw [e, Arena.at_put_same, Arena.at_put_same]
  · have hne : j.val ≠ n := fun hv => e (Fin.ext (by rw [idxOf_val n hn, hv]))
    rw [Arena.at_put_other _ _ _ _ e, Arena.at_put_other _ _ _ _ e, h j (by omega)]

/-! ### Forests -/

/-- The first `n` entries are a forest with those roots: every one of them is reached from one root by one path, and no other
entry is reached. -/
structure Arena.Spans (a : Arena) (n : Nat) (roots : List NodeIdx) : Prop where
  rootLt : ∀ r ∈ roots, r.val < n
  closed : a.Closed n
  reached : ∀ i : NodeIdx, i.val < n → ∃ r ∈ roots, ∃ p, a.walk r p = some i
  once : ∀ r ∈ roots, ∀ r' ∈ roots, ∀ p p' i, a.walk r p = some i → a.walk r' p' = some i → r = r' ∧ p = p'

/-- A node without children at entry 0 is a tree of one entry. -/
theorem Arena.spans_of_childless {a : Arena} (h : ∀ b, (a.at 0).child b = none) : a.Spans 1 [0] := by
  have hone : ∀ i : NodeIdx, i.val < 1 → i = 0 := fun i hi => Fin.ext (Nat.lt_one_iff.mp hi)
  refine ⟨?_, ?_, ?_, ?_⟩
  · intro r hr
    rw [List.mem_singleton.mp hr]
    exact Nat.one_pos
  · intro i hi b j hj
    rw [hone i hi, h] at hj
    cases hj
  · exact fun i hi => ⟨0, List.mem_singleton_self _, [], by rw [hone i hi]; rfl⟩
  · intro r hr r' hr' p p' i hp hp'
    obtain rfl := List.mem_singleton.mp hr
    obtain rfl := List.mem_singleton.mp hr'
    exact ⟨rfl, (Arena.walk_of_childless h hp).1.trans (Arena.walk_of_childless h hp').1.symm⟩

/-- The entries in use of a state with a tree are a forest of one tree (R55). -/
theorem State.TreeInv.spans {s : State} (h : s.TreeInv) (hv : s.rootV = true) :
    Arena.Spans s.node s.nodeCount.toNat [s.root] where
  rootLt r hr := by
    rw [List.mem_singleton.mp hr]
    exact (h.present hv).2
  closed i hi b j hj := by
    obtain ⟨p, hp, -⟩ := h.reachedOnce hv i hi
    exact h.reachedInUse hv (p ++ [b]) j (Arena.walk_concat_eq_some.mpr ⟨i, hp, hj⟩)
  reached i hi := by
    obtain ⟨p, hp, -⟩ := h.reachedOnce hv i hi
    exact ⟨s.root, List.mem_singleton_self _, p, hp⟩
  once r hr r' hr' p p' i hp hp' := by
    obtain rfl := List.mem_singleton.mp hr
    obtain rfl := List.mem_singleton.mp hr'
    obtain ⟨q, -, hq⟩ := h.reachedOnce hv i (h.reachedInUse hv p i hp)
    exact ⟨rfl, (hq p hp).trans (hq p' hp').symm⟩

/-- With or without a tree, the children of the entries in use are in use. -/
theorem State.TreeInv.closed {s : State} (h : s.TreeInv) : Arena.Closed s.node s.nodeCount.toNat := by
  cases hv : s.rootV with
  | true => exact (h.spans hv).closed
  | false =>
    obtain ⟨-, -, hcnt, -⟩ := h.absent hv
    intro i hi
    rw [hcnt] at hi
    exact absurd hi (Nat.not_lt_zero _)

/-! ### The code table of a tree -/

/-- The code table is what the leaves say (R55 item 3, R47): the symbols of the leaves have codes, the paths to them. -/
structure State.CodesFromLeaves (s : State) : Prop where
  coded : ∀ sym, s.clenAt sym ≠ 0 ↔ ∃ p f, Arena.LeafAt s.node s.root p sym f
  path : ∀ p sym f, Arena.LeafAt s.node s.root p sym f → s.codeAt sym = if p = [] then [false] else p
  length : ∀ sym, (s.codeAt sym).length = (s.clenAt sym).toNat

theorem State.TreeInv.codesFromLeaves {s : State} (h : s.TreeInv) (hv : s.rootV = true) : s.CodesFromLeaves where
  coded sym := by
    rw [h.codedLeaf hv sym]
    constructor
    · rintro ⟨p, i, f, hp, hl⟩
      exact ⟨p, f, i, hp, hl⟩
    · rintro ⟨p, f, i, hp, hl⟩
      exact ⟨p, i, f, hp, hl⟩
  path := by
    rintro p sym f ⟨i, hp, hl⟩
    exact h.codePath hv p i sym f hp hl
  length := h.codeLength

/-- No code begins another (R55 item 4): codes are paths to leaves, and a leaf has nothing below it. -/
theorem State.CodesFromLeaves.prefixFree {s : State} (h : s.CodesFromLeaves) {a b : Byte} (hne : a ≠ b)
    (ha : s.clenAt a ≠ 0) (hb : s.clenAt b ≠ 0) : ¬ s.codeAt a <+: s.codeAt b := by
  obtain ⟨p, f, hp⟩ := (h.coded a).mp ha
  obtain ⟨q, g, hq⟩ := (h.coded b).mp hb
  have hnot : ∀ r, q ≠ p ++ r := fun r e => hne (hp.eq_nil_of_append (e ▸ hq)).2
  have hnot' : ∀ r, p ≠ q ++ r := fun r e => hne (hq.eq_nil_of_append (e ▸ hp)).2.symm
  have hp0 : p ≠ [] := fun e => hnot q (by rw [e, List.nil_append])
  have hq0 : q ≠ [] := fun e => hnot' p (by rw [e, List.nil_append])
  rw [h.path p a f hp, h.path q b g hq, if_neg hp0, if_neg hq0]
  rintro ⟨r, hr⟩
  exact hnot r hr.symm

/-- The tree invariant from its parts: a tree of the entries in use, with its codes, and the cursor at its root. -/
theorem State.TreeInv.of_tree {s : State} (hv : s.rootV = true) (hts : s.tstate ≠ .empty)
    (hcap : s.nodeCount.toNat ≤ Config.nodeCap) (hspan : Arena.Spans s.node s.nodeCount.toNat [s.root])
    (hcodes : s.CodesFromLeaves) (hfruit : Arena.FruitfulOff s.node s.nodeCount.toNat (fun _ => False))
    (hfull : s.tstate = .built → Arena.Full s.node s.nodeCount.toNat)
    (hloaded : s.tstate = .loaded → (s.nodeAt s.root).isLeaf = false) (hcur : s.cur = s.root)
    (hnum : s.numCodes.toNat = s.codeCount) : s.TreeInv where
  absent h := by simp [hv] at h
  present _ := ⟨hts, hspan.rootLt _ (List.mem_singleton_self _)⟩
  capacity := hcap
  reachedInUse _ p i hp := hspan.closed.walk_lt (hspan.rootLt _ (List.mem_singleton_self _)) hp
  reachedOnce _ i hi := by
    obtain ⟨r, hr, p, hp⟩ := hspan.reached i hi
    obtain rfl := List.mem_singleton.mp hr
    exact ⟨p, hp, fun q hq => (hspan.once s.root hr s.root hr q p i hq hp).2⟩
  codedLeaf _ sym := by
    rw [hcodes.coded sym]
    constructor
    · rintro ⟨p, f, i, hp, hl⟩
      exact ⟨p, i, f, hp, hl⟩
    · rintro ⟨p, i, f, hp, hl⟩
      exact ⟨p, f, i, hp, hl⟩
  codePath _ p i sym f hp hl := hcodes.path p sym f ⟨i, hp, hl⟩
  codeLength := hcodes.length
  strict hb i hi f l r hn := by
    have hn' : Arena.at s.node i = .internal f l r := hn
    have hboth := hfull hb i hi (by rw [hn']; rfl)
    obtain ⟨j, hj⟩ := hboth false
    obtain ⟨k, hk⟩ := hboth true
    rw [hn'] at hj hk
    exact ⟨Option.isSome_of_eq_some hj, Option.isSome_of_eq_some hk⟩
  fruitful _ i hi f l r hn := by
    have hn' : Arena.at s.node i = .internal f l r := hn
    obtain ⟨b, j, hj⟩ := hfruit i hi id (by rw [hn']; rfl)
    rw [hn'] at hj
    cases b with
    | false => exact .inl (Option.isSome_of_eq_some hj)
    | true => exact .inr (Option.isSome_of_eq_some hj)
  prefixFree a b hne ha hb := hcodes.prefixFree hne ha hb
  loadedRoot := hloaded
  cursor _ := by
    split
    · exact hcur
    · rename_i hinternal
      rw [hcur]
      exact ⟨Bool.eq_false_of_not_eq_true hinternal, hspan.rootLt _ (List.mem_singleton_self _)⟩
  counted := hnum

/-! ### Steps that leave the tree alone -/

/-- The tree and the code table are the same in both states: what the tree invariant speaks of, but for the cursor. -/
def State.SameTree (s t : State) : Prop :=
  t.node = s.node ∧ t.nodeCount = s.nodeCount ∧ t.rootV = s.rootV ∧ t.root = s.root ∧ t.tstate = s.tstate ∧
    t.code = s.code ∧ t.clen = s.clen ∧ t.numCodes = s.numCodes

/-- Where a cursor may stand (R51): on the lone leaf root, or on an internal node in use. -/
def State.CursorMayBe (s : State) (c : NodeIdx) : Prop :=
  if (s.nodeAt s.root).isLeaf then c = s.root else (s.nodeAt c).isLeaf = false ∧ c.val < s.nodeCount.toNat

theorem State.TreeInv.cursorMayBe_root {s : State} (h : s.TreeInv) (hv : s.rootV = true) : s.CursorMayBe s.root := by
  unfold State.CursorMayBe
  split
  · rfl
  · exact ⟨Bool.eq_false_of_not_eq_true ‹_›, (h.present hv).2⟩

/-- With the same tree and code table, only the cursor is to be looked at. -/
theorem State.TreeInv.of_sameTree {s t : State} (h : s.TreeInv) (e : s.SameTree t)
    (hcur : s.rootV = true → s.CursorMayBe t.cur) : t.TreeInv := by
  obtain ⟨hnode, hcnt, hv, hroot, hts, hcode, hclen, hnum⟩ := e
  cases t
  dsimp only at hnode hcnt hv hroot hts hcode hclen hnum hcur
  subst hnode hcnt hv hroot hts hcode hclen hnum
  exact ⟨h.absent, h.present, h.capacity, h.reachedInUse, h.reachedOnce, h.codedLeaf, h.codePath, h.codeLength, h.strict,
    h.fruitful, h.prefixFree, h.loadedRoot, hcur, h.counted⟩

theorem State.TreeInv.congr {s t : State} (h : s.TreeInv) (e : s.SameTree t) (hcur : t.cur = s.cur) : t.TreeInv :=
  h.of_sameTree e (fun hv => hcur ▸ h.cursor hv)

theorem raise_sameTree (e : ErrBit) (s : State) : s.SameTree (raise e s) := ⟨rfl, rfl, rfl, rfl, rfl, rfl, rfl, rfl⟩

theorem raise_treeInv (e : ErrBit) {s : State} (h : s.TreeInv) : (raise e s).TreeInv := h.congr (raise_sameTree e s) rfl

end Sys2Proof.Machine
end

section
/-! PROOFS. LOADC keeps the tree invariant (spec/42_tree.md R170): what hanging a new node into the tree does, and the walk that does
it bit by bit. -/

namespace Sys2Proof.Machine

/-! ### Hanging a new node into the tree -/

/-- The arena after LOADC made node `x` at the next free index `n` and the child of `cur` on `side`. -/
def Arena.graft (a : Arena) (cur : NodeIdx) (side : Bool) (n : Nat) (x : Node) : Arena :=
  (a.put (idxOf n) x).put cur ((a.at cur).setChild side (idxOf n))

section
variable {a : Arena} {n : Nat} {cur root : NodeIdx} {side : Bool} {x : Node} {p : Bits}

theorem Arena.graft_at_cur : (a.graft cur side n x).at cur = (a.at cur).setChild side (idxOf n) := Arena.at_put_same _ _ _

theorem Arena.graft_at_new (hn : n < Config.nodeCap) (hcur : cur.val < n) : (a.graft cur side n x).at (idxOf n) = x := by
  have hne : idxOf n ≠ cur := fun e => by
    have := congrArg Fin.val e
    rw [idxOf_val n hn] at this
    omega
  rw [Arena.graft, Arena.at_put_other _ _ _ _ hne, Arena.at_put_same]

theorem Arena.graft_at_old (hn : n < Config.nodeCap) {i : NodeIdx} (hi : i.val < n) (hne : i ≠ cur) :
    (a.graft cur side n x).at i = a.at i := by
  have hne' : i ≠ idxOf n := fun e => by
    have := congrArg Fin.val e
    rw [idxOf_val n hn] at this
    omega
  rw [Arena.graft, Arena.at_put_other _ _ _ _ hne, Arena.at_put_other _ _ _ _ hne']

theorem Arena.graft_isLeaf (hn : n < Config.nodeCap) {i : NodeIdx} (hi : i.val < n) :
    ((a.graft cur side n x).at i).isLeaf = (a.at i).isLeaf := by
  by_cases e : i = cur
  · rw [e, Arena.graft_at_cur, Node.isLeaf_setChild]
  · rw [Arena.graft_at_old hn hi e]

theorem Arena.graft_child (hn : n < Config.nodeCap) (hinternal : (a.at cur).isLeaf = false) {i : NodeIdx}
    (hi : i.val < n) (b : Bool) : ((a.graft cur side n x).at i).child b =
      if i = cur ∧ b = side then some (idxOf n) else (a.at i).child b := by
  by_cases e : i = cur
  · subst e
    rw [Arena.graft_at_cur, Node.child_setChild hinternal]
    simp
  · rw [Arena.graft_at_old hn hi e, if_neg (fun h => e h.1)]

theorem Arena.graft_closed (hc : a.Closed n) (hn : n < Config.nodeCap) (hcur : cur.val < n)
    (hinternal : (a.at cur).isLeaf = false) (hx : ∀ b, x.child b = none) : (a.graft cur side n x).Closed (n + 1) := by
  have hnew := idxOf_val n hn
  intro i hi b j hj
  by_cases hi' : i.val < n
  · rw [Arena.graft_child hn hinternal hi'] at hj
    split at hj
    · cases hj
      omega
    · exact Nat.lt_succ_of_lt (hc i hi' b j hj)
  · rw [show i = idxOf n from Fin.ext (by omega), Arena.graft_at_new hn hcur, hx] at hj
    cases hj

/-- The walks after a graft are the walks before it, and those that go through `cur` to the new node. -/
theorem Arena.graft_walk (hn : n < Config.nodeCap) (hcur : cur.val < n) (hc : a.Closed n)
    (hinternal : (a.at cur).isLeaf = false) (hfree : (a.at cur).child side = none) (hx : ∀ b, x.child b = none)
    {i j : NodeIdx} (hi : i.val < n) (q : Bits) : (a.graft cur side n x).walk i q = some j ↔
      a.walk i q = some j ∨ (∃ p, q = p ++ [side] ∧ a.walk i p = some cur ∧ j = idxOf n) := by
  induction q using List.reverseRecOn generalizing j with
  | nil => simp
  | append_singleton q b ih =>
    simp only [Arena.walk_concat_eq_some, List.append_singleton_inj]
    constructor
    · rintro ⟨k, hk, hj⟩
      rcases ih.mp hk with hw | ⟨p, rfl, hp, rfl⟩
      · have hklt := hc.walk_lt hi hw
        rw [Arena.graft_child hn hinternal hklt] at hj
        split at hj
        · rename_i hnew
          cases hj
          exact .inr ⟨q, ⟨rfl, hnew.2⟩, hnew.1 ▸ hw, rfl⟩
        · exact .inl ⟨k, hw, hj⟩
      · rw [Arena.graft_at_new hn hcur, hx] at hj
        cases hj
    · rintro (⟨k, hk, hj⟩ | ⟨p, ⟨rfl, rfl⟩, hp, rfl⟩)
      · refine ⟨k, ih.mpr (.inl hk), ?_⟩
        rw [Arena.graft_child hn hinternal (hc.walk_lt hi hk), if_neg]
        · exact hj
        · rintro ⟨rfl, rfl⟩
          rw [hfree] at hj
          cases hj
      · refine ⟨cur, ih.mpr (.inl hp), ?_⟩
        rw [Arena.graft_child hn hinternal hcur, if_pos ⟨rfl, rfl⟩]

/-- A graft adds one entry to the tree, at the end of the path that the new edge prolongs. -/
theorem Arena.graft_walk_root (hspan : a.Spans n [root]) (hn : n < Config.nodeCap) (hp : a.walk root p = some cur)
    (hinternal : (a.at cur).isLeaf = false) (hfree : (a.at cur).child side = none) (hx : ∀ b, x.child b = none)
    {j : NodeIdx} (q : Bits) : (a.graft cur side n x).walk root q = some j ↔
      a.walk root q = some j ∨ (q = p ++ [side] ∧ j = idxOf n) := by
  have hroot := hspan.rootLt root (List.mem_singleton_self _)
  have hcur := hspan.closed.walk_lt hroot hp
  rw [Arena.graft_walk hn hcur hspan.closed hinternal hfree hx hroot]
  refine or_congr_right ⟨?_, fun ⟨hq, hj⟩ => ⟨p, hq, hp, hj⟩⟩
  rintro ⟨p', rfl, hp', hj⟩
  have hmem := List.mem_singleton_self root
  exact ⟨by rw [(hspan.once root hmem root hmem p' p cur hp' hp).2], hj⟩

theorem Arena.graft_spans (hspan : a.Spans n [root]) (hn : n < Config.nodeCap) (hp : a.walk root p = some cur)
    (hinternal : (a.at cur).isLeaf = false) (hfree : (a.at cur).child side = none) (hx : ∀ b, x.child b = none) :
    (a.graft cur side n x).Spans (n + 1) [root] := by
  have hmem := List.mem_singleton_self root
  have hroot : root.val < n := hspan.rootLt root hmem
  have hcur := hspan.closed.walk_lt hroot hp
  have hnew := idxOf_val n hn
  have hwalk : ∀ {q j}, _ ↔ _ := fun {q j} => Arena.graft_walk_root hspan hn hp hinternal hfree hx (j := j) q
  refine ⟨?_, ?_, ?_, ?_⟩
  · intro r hr
    obtain rfl := List.mem_singleton.mp hr
    omega
  · exact Arena.graft_closed hspan.closed hn hcur hinternal hx
  · intro i hi
    by_cases hi' : i.val < n
    · obtain ⟨r, hr, q, hq⟩ := hspan.reached i hi'
      obtain rfl := List.mem_singleton.mp hr
      exact ⟨_, hmem, q, hwalk.mpr (.inl hq)⟩
    · exact ⟨root, hmem, p ++ [side], hwalk.mpr (.inr ⟨rfl, Fin.ext (by omega)⟩)⟩
  · intro r hr r' hr' q q' i hq hq'
    obtain rfl := List.mem_singleton.mp hr
    obtain rfl := List.mem_singleton.mp hr'
    refine ⟨rfl, ?_⟩
    rcases hwalk.mp hq with h | ⟨h, hi⟩ <;> rcases hwalk.mp hq' with h' | ⟨h', hi'⟩
    · exact (hspan.once _ hr _ hr' q q' i h h').2
    · have hlt : i.val < n := hspan.closed.walk_lt hroot h
      rw [hi', hnew] at hlt
      exact absurd hlt (Nat.lt_irrefl n)
    · have hlt : i.val < n := hspan.closed.walk_lt hroot h'
      rw [hi, hnew] at hlt
      exact absurd hlt (Nat.lt_irrefl n)
    · rw [h, h']

/-- The leaves after a graft are the leaves before it, and the new node where it is one. -/
theorem Arena.graft_leafAt (hspan : a.Spans n [root]) (hn : n < Config.nodeCap) (hp : a.walk root p = some cur)
    (hinternal : (a.at cur).isLeaf = false) (hfree : (a.at cur).child side = none) (hx : ∀ b, x.child b = none)
    {q : Bits} {y : Byte} {f : BitVec 40} : (a.graft cur side n x).LeafAt root q y f ↔
      a.LeafAt root q y f ∨ (q = p ++ [side] ∧ x = .leaf y f) := by
  have hroot := hspan.rootLt root (List.mem_singleton_self _)
  have hcur := hspan.closed.walk_lt hroot hp
  have hwalk : ∀ {j}, _ ↔ _ := fun {j} => Arena.graft_walk_root hspan hn hp hinternal hfree hx (j := j) q
  have hold : ∀ j, a.walk root q = some j → ((a.graft cur side n x).at j = .leaf y f ↔ a.at j = .leaf y f) := by
    intro j hj
    by_cases e : j = cur
    · have hleft := Arena.graft_isLeaf (a := a) (side := side) (x := x) (cur := cur) hn hcur
      rw [hinternal] at hleft
      rw [e]
      exact ⟨fun h => by simp [h, Node.isLeaf] at hleft, fun h => by simp [h, Node.isLeaf] at hinternal⟩
    · rw [Arena.graft_at_old hn (hspan.closed.walk_lt hroot hj) e]
  constructor
  · rintro ⟨j, hj, hl⟩
    rcases hwalk.mp hj with h | ⟨hq, rfl⟩
    · exact .inl ⟨j, h, (hold j h).mp hl⟩
    · exact .inr ⟨hq, by rwa [Arena.graft_at_new hn hcur] at hl⟩
  · rintro (⟨j, hj, hl⟩ | ⟨hq, hl⟩)
    · exact ⟨j, hwalk.mpr (.inl hj), (hold j hj).mpr hl⟩
    · exact ⟨idxOf n, hwalk.mpr (.inr ⟨hq, rfl⟩), by rw [Arena.graft_at_new hn hcur, hl]⟩

/-- After a graft below `cur` only the new node may be without a child. -/
theorem Arena.graft_fruitfulOff (hn : n < Config.nodeCap) (hinternal : (a.at cur).isLeaf = false)
    (hfruit : a.FruitfulOff n (· = cur)) : (a.graft cur side n x).FruitfulOff (n + 1) (· = idxOf n) := by
  intro i hi hne hl
  have hi' : i.val < n := by
    have : i.val ≠ n := fun e => hne (Fin.ext (by rw [idxOf_val n hn, e]))
    omega
  by_cases e : i = cur
  · exact ⟨side, idxOf n, by rw [Arena.graft_child hn hinternal hi', if_pos ⟨e, rfl⟩]⟩
  · rw [Arena.graft_at_old hn hi' e] at hl ⊢
    exact hfruit i hi' e hl

end

/-! ### The walk -/

/-- What LOADC's walk leaves behind: a tree of the entries in use without dead ends, with one leaf more. -/
structure Arena.LoadedWith (a : Arena) (root : NodeIdx) (c : Bits) (sym : Byte) (a' : Arena) (n' : Nat) : Prop where
  spans : a'.Spans n' [root]
  fruitful : a'.FruitfulOff n' (fun _ => False)
  root_isLeaf : (a'.at root).isLeaf = (a.at root).isLeaf
  leafAt : ∀ q y f, a'.LeafAt root q y f ↔ a.LeafAt root q y f ∨ (q = c ∧ y = sym ∧ f = 0)

/-- LOADC's walk from the node at the end of path `p` hangs a leaf at the end of `p` followed by the bits left (R170). -/
theorem loadWalk_loadedWith {sym : Byte} {root cur : NodeIdx} {c p : Bits} {a a' : Arena} {n n' : Nat}
    (hspan : a.Spans n [root]) (hp : a.walk root p = some cur) (hfruit : a.FruitfulOff n (· = cur))
    (h : loadWalk sym c cur a n = some (a', n')) : a.LoadedWith root (p ++ c) sym a' n' := by
  induction c generalizing cur p a n with
  | nil => simp [loadWalk] at h
  | cons side rest ih =>
    have hroot := hspan.rootLt root (List.mem_singleton_self _)
    have hcur := hspan.closed.walk_lt hroot hp
    obtain ⟨hinternal, ⟨hfree, hn, ⟨rfl, rfl, ha⟩ | ⟨hne, hw⟩⟩ | ⟨ch, hch, hne, -, hw⟩⟩ := loadWalk_cases h
    · have hx : ∀ b, (Node.leaf sym 0).child b = none := fun _ => rfl
      have hgraft : a' = a.graft cur side n (.leaf sym 0) := ha
      subst hgraft
      refine ⟨Arena.graft_spans hspan hn hp hinternal hfree hx, ?_, Arena.graft_isLeaf hn hroot, fun q y f => ?_⟩
      · intro i hi _ hl
        refine Arena.graft_fruitfulOff hn hinternal hfruit i hi (fun e => ?_) hl
        rw [e, Arena.graft_at_new hn hcur] at hl
        cases hl
      · rw [Arena.graft_leafAt hspan hn hp hinternal hfree hx, Node.leaf.injEq, eq_comm (a := sym), eq_comm (a := 0)]
    · have hx : ∀ b, (Node.internal 0 none none).child b = none := fun b => by cases b <;> rfl
      have hgrown := ih (a := a.graft cur side n (.internal 0 none none)) (p := p ++ [side])
        (Arena.graft_spans hspan hn hp hinternal hfree hx)
        ((Arena.graft_walk_root hspan hn hp hinternal hfree hx _).mpr (.inr ⟨rfl, rfl⟩))
        (Arena.graft_fruitfulOff hn hinternal hfruit) hw
      rw [List.append_assoc] at hgrown
      refine ⟨hgrown.spans, hgrown.fruitful, hgrown.root_isLeaf.trans (Arena.graft_isLeaf hn hroot), fun q y f => ?_⟩
      rw [hgrown.leafAt, Arena.graft_leafAt hspan hn hp hinternal hfree hx]
      simp
    · have hfruit' : a.FruitfulOff n (· = ch) := by
        intro i hi _ hl
        by_cases e : i = cur
        · exact ⟨side, ch, e ▸ hch⟩
        · exact hfruit i hi e hl
      have hgrown := ih (p := p ++ [side]) hspan (Arena.walk_concat_eq_some.mpr ⟨cur, hp, hch⟩) hfruit' hw
      rwa [List.append_assoc] at hgrown

/-! ### The command -/

/-- The CLEN of a nonempty code of at most 255 bits is not 0 (R47). -/
theorem clen_ne_zero {c : Bits} (hpos : c ≠ []) (hlen : c.length < 256) : BitVec.ofNat 8 c.length ≠ 0 := by
  intro h
  have hzero : (BitVec.ofNat 8 c.length).toNat = 0 := by rw [h]; rfl
  rw [BitVec.toNat_ofNat, Nat.mod_eq_of_lt hlen] at hzero
  exact hpos (List.length_eq_zero_iff.mp hzero)

/-- The number of codes after a symbol without a code is given one. -/
theorem codeCount_setCode {s : State} {sym : Byte} {c : Bits} (h : s.clenAt sym = 0) (hc : BitVec.ofNat 8 c.length ≠ 0) :
    (s.setCode sym c).codeCount = s.codeCount + 1 := by
  have hp : allSyms.Perm (sym :: allSyms.erase sym) := List.perm_cons_erase (mem_allSyms sym)
  have hsym : sym ∉ allSyms.erase sym := fun hm => (List.Nodup.mem_erase_iff allSyms_nodup).mp hm |>.1 rfl
  have hrest : (allSyms.erase sym).filter (fun x => decide ((s.setCode sym c).clenAt x ≠ 0)) =
      (allSyms.erase sym).filter (fun x => decide (s.clenAt x ≠ 0)) := by
    refine List.filter_congr fun x hx => ?_
    rw [clenAt_setCode_other _ _ _ _ (fun e => hsym (by rwa [e] at hx))]
  unfold State.codeCount
  rw [(hp.filter _).length_eq, (hp.filter _).length_eq, List.filter_cons_of_pos (by simpa using hc),
    List.filter_cons_of_neg (by simp [h]), hrest, List.length_cons]

theorem codeCount_le (s : State) : s.codeCount ≤ 256 := (List.length_filter_le _ _).trans allSyms_length.le

/-- Where LOADC's walk starts (R170): the root of an internal-rooted tree that spans the entries in use and has the old leaves. -/
theorem loadRoot_spec {s : State} (h : s.TreeInv) (hts : s.tstate ≠ .built) {root : NodeIdx} {a : Arena} {n : Nat}
    (hroot : loadRoot s = some (root, a, n)) :
    a.Spans n [root] ∧ a.FruitfulOff n (· = root) ∧ (a.at root).isLeaf = false ∧
      (∀ sym, s.clenAt sym ≠ 0 ↔ ∃ p f, a.LeafAt root p sym f) ∧
      (∀ p sym f, a.LeafAt root p sym f → p ≠ [] → s.codeAt sym = p) := by
  unfold loadRoot at hroot
  cases hv : s.rootV with
  | true =>
    rw [hv, if_pos rfl] at hroot
    cases hroot
    have hcodes := h.codesFromLeaves hv
    have hloaded : s.tstate = .loaded := by
      have := (h.present hv).1
      cases hs : s.tstate <;> simp [hs] at this hts ⊢
    refine ⟨h.spans hv, ?_, h.loadedRoot hloaded, hcodes.coded, fun p sym f hp hne => ?_⟩
    · intro i hi _ hl
      cases hn : Arena.at s.node i with
      | leaf sym f =>
        rw [hn] at hl
        cases hl
      | internal f l r =>
        rcases h.fruitful hv i hi f l r hn with hs | hs
        · exact ⟨false, Option.isSome_iff_exists.mp hs⟩
        · exact ⟨true, Option.isSome_iff_exists.mp hs⟩
    · rw [hcodes.path p sym f hp, if_neg hne]
  | false =>
    obtain ⟨-, -, hcnt, hclen⟩ := h.absent hv
    have hcnt' : s.nodeCount.toNat = 0 := by rw [hcnt]; rfl
    rw [hv, if_neg (by simp), hcnt', if_neg (by decide)] at hroot
    cases hroot
    have hat : Arena.at (Arena.put s.node 0 (.internal 0 none none)) 0 = .internal 0 none none := Arena.at_put_same _ _ _
    have hchild : ∀ b, (Arena.at (Arena.put s.node 0 (.internal 0 none none)) 0).child b = none := fun b => by
      rw [hat]
      cases b <;> rfl
    have hnoleaf : ∀ p sym f, ¬ Arena.LeafAt (Arena.put s.node 0 (.internal 0 none none)) 0 p sym f := by
      rintro p sym f ⟨j, hj, hl⟩
      rw [← (Arena.walk_of_childless hchild hj).2, hat] at hl
      cases hl
    refine ⟨Arena.spans_of_childless hchild, ?_, congrArg Node.isLeaf hat, fun sym => ?_,
      fun p sym f hp => absurd hp (hnoleaf p sym f)⟩
    · exact fun i hi hne => absurd (Fin.ext (Nat.lt_one_iff.mp hi)) hne
    · exact ⟨fun hc => absurd (hclen sym) hc, fun ⟨p, f, hp⟩ => absurd hp (hnoleaf p sym f)⟩

/-- What LOADC's tree is made by: a root and a walk from it. -/
theorem loadTree_cases {sym : Byte} {c : Bits} {s : State} {root : NodeIdx} {a' : Arena} {n' : Nat}
    (h : loadTree sym c s = some (root, a', n')) :
    ∃ a n, loadRoot s = some (root, a, n) ∧ loadWalk sym c root a n = some (a', n') := by
  unfold loadTree at h
  cases hr : loadRoot s with
  | none => simp [hr] at h
  | some r =>
    obtain ⟨root₀, a, n⟩ := r
    simp only [hr] at h
    cases hw : loadWalk sym c root₀ a n with
    | none => simp [hw] at h
    | some r' =>
      obtain ⟨a₁, n₁⟩ := r'
      simp only [hw, Option.some.injEq, Prod.mk.injEq] at h
      obtain ⟨rfl, rfl, rfl⟩ := h
      exact ⟨a, n, rfl, hw⟩

/-- The state after LOADC entered the code `c` for `sym`, with the tree that its walk made. -/
def State.loaded (s : State) (sym : Byte) (c : Bits) (root : NodeIdx) (a : Arena) (n : Nat) : State :=
  { (s.setCode sym c) with
    node := a
    nodeCount := BitVec.ofNat 10 n
    root := root
    rootV := true
    tstate := .loaded
    numCodes := s.numCodes + 1
    cur := root }

theorem loaded_codeAt (s : State) (sym : Byte) (c : Bits) (root : NodeIdx) (a : Arena) (n : Nat) (y : Byte) :
    (s.loaded sym c root a n).codeAt y = if y = sym then c else s.codeAt y := by
  change (s.setCode sym c).codeAt y = _
  split
  · rename_i e
    rw [e, codeAt_setCode_same]
  · exact codeAt_setCode_other _ _ _ _ ‹_›

theorem loaded_clenAt (s : State) (sym : Byte) (c : Bits) (root : NodeIdx) (a : Arena) (n : Nat) (y : Byte) :
    (s.loaded sym c root a n).clenAt y = if y = sym then BitVec.ofNat 8 c.length else s.clenAt y := by
  change (s.setCode sym c).clenAt y = _
  split
  · rename_i e
    rw [e, clenAt_setCode_same]
  · exact clenAt_setCode_other _ _ _ _ ‹_›

/-- A code entered by LOADC keeps the tree invariant: the tree has one leaf more, at the end of the code (R170). -/
theorem loaded_treeInv {sym : Byte} {c : Bits} {s : State} {root : NodeIdx} {a : Arena} {n : Nat} (hs : s.TreeInv)
    (hts : s.tstate ≠ .built) (hlen : c.length < 256) (hpos : c ≠ []) (hnew : s.clenAt sym = 0)
    (htree : loadTree sym c s = some (root, a, n)) : (s.loaded sym c root a n).TreeInv := by
  obtain ⟨a₀, n₀, hroot, hwalk⟩ := loadTree_cases htree
  obtain ⟨hspan, hfruit, hinternal, hcoded, hpath⟩ := loadRoot_spec hs hts hroot
  have hloaded := loadWalk_loadedWith hspan (Arena.walk_nil a₀ root) hfruit hwalk
  rw [List.nil_append] at hloaded
  have hcap : n ≤ 511 := (loadWalk_count hwalk).2.2
  have hn : (BitVec.ofNat 10 n).toNat = n := by
    rw [BitVec.toNat_ofNat]
    omega
  have hclen := clen_ne_zero hpos hlen
  have hnoleaf : ∀ p f, ¬ a₀.LeafAt root p sym f := fun p f hp => (hcoded sym).mpr ⟨p, f, hp⟩ hnew
  refine State.TreeInv.of_tree rfl (by simp [State.loaded]) (by rw [← hn] at hcap; exact hcap)
    (by rw [← hn] at hloaded; exact hloaded.spans) ⟨fun y => ?coded, ?path, fun y => ?length⟩
    (by rw [← hn] at hloaded; exact hloaded.fruitful) (fun h => by cases h)
    (fun _ => hloaded.root_isLeaf.trans hinternal) rfl ?count
  case coded =>
    have hleaf : (∃ p f, a.LeafAt root p y f) ↔ (∃ p f, a₀.LeafAt root p y f) ∨ y = sym := by
      simp only [hloaded.leafAt]
      constructor
      · rintro ⟨p, f, hp | ⟨-, hy, -⟩⟩
        · exact .inl ⟨p, f, hp⟩
        · exact .inr hy
      · rintro (⟨p, f, hp⟩ | hy)
        · exact ⟨p, f, .inl hp⟩
        · exact ⟨c, 0, .inr ⟨rfl, hy, rfl⟩⟩
    refine Iff.trans ?_ hleaf.symm
    rw [loaded_clenAt, ← hcoded y]
    split
    · rename_i hy
      exact ⟨fun _ => .inr hy, fun _ => hclen⟩
    · rename_i hy
      simp [hy]
  case path =>
    intro p y f hp
    rw [loaded_codeAt]
    rcases (hloaded.leafAt p y f).mp hp with hold | ⟨rfl, rfl, -⟩
    · have hp0 : p ≠ [] := by
        rintro rfl
        obtain ⟨j, hj, hl⟩ := hold
        cases Option.some.inj hj
        rw [hl] at hinternal
        cases hinternal
      rw [if_neg (fun hy => hnoleaf p f (by rwa [hy] at hold)), if_neg hp0, hpath p y f hold hp0]
    · rw [if_pos rfl, if_neg hpos]
  case length =>
    rw [loaded_codeAt, loaded_clenAt]
    split
    · rw [BitVec.toNat_ofNat, Nat.mod_eq_of_lt hlen]
    · exact hs.codeLength y
  case count =>
    have hcount : (s.loaded sym c root a n).codeCount = s.codeCount + 1 := codeCount_setCode hnew hclen
    have hle := codeCount_le s
    have hnum : (s.loaded sym c root a n).numCodes = s.numCodes + 1 := rfl
    rw [hcount, hnum, BitVec.toNat_add, hs.counted, show (1 : BitVec 9).toNat = 1 from rfl]
    omega

/-- LOADC keeps the tree invariant: it raises an error, or enters its code. -/
theorem execLoadc_treeInv {sym : Byte} {len : BitVec 8} {s t : State} (hs : s.TreeInv)
    (h : execLoadc sym len s = .next t) : t.TreeInv := by
  rcases execLoadc_cases sym len s with ⟨-, e⟩ | ⟨-, -, e⟩ | ⟨hts, hlen, hnew, root, a, n, htree, e⟩
  · cases e.symm.trans h
    exact raise_treeInv _ hs
  · cases e.symm.trans h
    exact raise_treeInv _ hs
  · have hlength := loadCode_length len s
    have hlt : (loadCode len s).length < 256 := by
      rw [hlength]
      exact len.isLt
    have hpos : loadCode len s ≠ [] := fun h0 => hlen (BitVec.eq_of_toNat_eq (by rw [← hlength, h0]; rfl))
    rw [← Host.Outcome.next.inj (e.symm.trans h)]
    exact loaded_treeInv hs hts hlt hpos hnew htree

end Sys2Proof.Machine
end

section
/-! PROOFS. BUILD keeps the tree invariant (spec/42_tree.md R160 to R163): the leaves, the merge engine, whose arena is a forest at
every turn, and the code-table generator. -/

namespace Sys2Proof.Machine

/-! ### The leaves -/

theorem writeLeaves_agree (freq : Byte → BitVec 32) (syms : List Byte) (n : Nat) (a : Arena)
    (h : n + syms.length ≤ Config.nodeCap) : Arena.Agree n a (writeLeaves freq syms n a) := by
  induction syms generalizing n a with
  | nil => exact fun _ _ => rfl
  | cons sym rest ih =>
    rw [List.length_cons] at h
    intro i hi
    rw [writeLeaves, ih (n + 1) _ (by omega) i (by omega)]
    exact Arena.agree_put_of_le a _ (by rw [idxOf_val n (by omega)]) i hi

/-- The `j`-th symbol's leaf stands at the `j`-th index (R160). -/
theorem writeLeaves_at (freq : Byte → BitVec 32) (syms : List Byte) (n : Nat) (a : Arena)
    (h : n + syms.length ≤ Config.nodeCap) {j : Nat} (hj : j < syms.length) :
    (writeLeaves freq syms n a).at (idxOf (n + j)) = .leaf syms[j] ((freq syms[j]).setWidth 40) := by
  induction syms generalizing n a j with
  | nil => simp at hj
  | cons sym rest ih =>
    rw [List.length_cons] at h hj
    rw [writeLeaves]
    cases j with
    | zero =>
      rw [writeLeaves_agree freq rest (n + 1) _ (by omega) _ (by rw [idxOf_val _ (by omega)]; omega)]
      exact Arena.at_put_same _ _ _
    | succ j =>
      rw [show n + (j + 1) = n + 1 + j by omega]
      exact ih (n + 1) _ (by omega) (by omega)

/-! ### The merge engine -/

/-- The arena after a merge made the node at index `n`, with left child `y` and right child `x` (R161). -/
def Arena.join (a : Arena) (n : Nat) (f : BitVec 40) (x y : NodeIdx) : Arena :=
  a.put (idxOf n) (.internal f (some y) (some x))

/-- The root and the path that lead, after a merge of `x` and `y`, where path `p` from root `r` led before it. -/
def joinedPath (n : Nat) (x y r : NodeIdx) (p : Bits) : NodeIdx × Bits :=
  if r = x then (idxOf n, true :: p) else if r = y then (idxOf n, false :: p) else (r, p)

section
variable {a : Arena} {n : Nat} {roots roots' : List NodeIdx} {x y : NodeIdx} {f : BitVec 40}

theorem Arena.join_at_new : (a.join n f x y).at (idxOf n) = .internal f (some y) (some x) := Arena.at_put_same _ _ _

theorem Arena.join_agree (hn : n < Config.nodeCap) : Arena.Agree n a (a.join n f x y) :=
  Arena.agree_put_of_le a _ (Nat.le_of_eq (idxOf_val n hn).symm)

theorem Arena.join_walk_old (h : a.Spans n roots) (hn : n < Config.nodeCap) {r : NodeIdx} (hr : r ∈ roots) (p : Bits) :
    (a.join n f x y).walk r p = a.walk r p := (Arena.join_agree hn).walk_eq h.closed (h.rootLt r hr) p

theorem Arena.join_walk_new (h : a.Spans n roots) (hn : n < Config.nodeCap) (hx : x ∈ roots) (hy : y ∈ roots) (b : Bool)
    (p : Bits) : (a.join n f x y).walk (idxOf n) (b :: p) = a.walk (if b then x else y) p := by
  rw [Arena.walk_cons, Arena.join_at_new]
  cases b with
  | false => exact Arena.join_walk_old h hn hy p
  | true => exact Arena.join_walk_old h hn hx p

theorem Arena.join_walk_joinedPath (h : a.Spans n roots) (hn : n < Config.nodeCap) (hx : x ∈ roots) (hy : y ∈ roots)
    {r : NodeIdx} (hr : r ∈ roots) (p : Bits) :
    (a.join n f x y).walk (joinedPath n x y r p).1 (joinedPath n x y r p).2 = a.walk r p := by
  unfold joinedPath
  split
  · rw [Arena.join_walk_new h hn hx hy, if_pos rfl, ‹r = x›]
  · split
    · rw [Arena.join_walk_new h hn hx hy, if_neg (by simp), ‹r = y›]
    · exact Arena.join_walk_old h hn hr p

/-- Every walk from a root after a merge stays at the new node, or is a walk from a root before it. -/
theorem Arena.join_walk_cases (h : a.Spans n roots) (hn : n < Config.nodeCap) (hx : x ∈ roots) (hy : y ∈ roots)
    (hne : x ≠ y) {r i : NodeIdx} {p : Bits} (hr : (r ∈ roots ∧ r ≠ x ∧ r ≠ y) ∨ r = idxOf n)
    (hw : (a.join n f x y).walk r p = some i) :
    (r = idxOf n ∧ p = [] ∧ i = idxOf n) ∨
      ∃ r₀ ∈ roots, ∃ q, (r, p) = joinedPath n x y r₀ q ∧ a.walk r₀ q = some i := by
  rcases hr with ⟨hr, hrx, hry⟩ | rfl
  · exact .inr ⟨r, hr, p, by rw [joinedPath, if_neg hrx, if_neg hry], by rwa [Arena.join_walk_old h hn hr] at hw⟩
  · cases p with
    | nil => exact .inl ⟨rfl, rfl, (Option.some.inj hw).symm⟩
    | cons b q =>
      rw [Arena.join_walk_new h hn hx hy] at hw
      cases b with
      | false => exact .inr ⟨y, hy, q, by rw [joinedPath, if_neg hne.symm, if_pos rfl], hw⟩
      | true => exact .inr ⟨x, hx, q, by rw [joinedPath, if_pos rfl], hw⟩

/-- A new node over two trees of a forest makes them one tree. -/
theorem Arena.Spans.join (h : a.Spans n roots) (hn : n < Config.nodeCap) (hx : x ∈ roots) (hy : y ∈ roots) (hne : x ≠ y)
    (hroots : ∀ r, r ∈ roots' ↔ (r ∈ roots ∧ r ≠ x ∧ r ≠ y) ∨ r = idxOf n) :
    (a.join n f x y).Spans (n + 1) roots' := by
  have hnew := idxOf_val n hn
  have hcases := fun r i p hr => Arena.join_walk_cases (f := f) h hn hx hy hne (r := r) (i := i) (p := p) ((hroots r).mp hr)
  refine ⟨fun r hr => ?lt, fun i hi b j hj => ?closed, fun i hi => ?reached, fun r hr r' hr' p p' i hp hp' => ?once⟩
  case lt =>
    rcases (hroots r).mp hr with ⟨hr, -⟩ | rfl
    · exact Nat.lt_succ_of_lt (h.rootLt r hr)
    · omega
  case closed =>
    by_cases hi' : i.val < n
    · rw [Arena.join_agree hn i hi'] at hj
      exact Nat.lt_succ_of_lt (h.closed i hi' b j hj)
    · rw [show i = idxOf n from Fin.ext (by omega), Arena.join_at_new] at hj
      cases b <;> cases hj
      · exact Nat.lt_succ_of_lt (h.rootLt y hy)
      · exact Nat.lt_succ_of_lt (h.rootLt x hx)
  case reached =>
    have hnewMem : idxOf n ∈ roots' := (hroots _).mpr (.inr rfl)
    by_cases hi' : i.val < n
    · obtain ⟨r, hr, p, hp⟩ := h.reached i hi'
      refine ⟨(joinedPath n x y r p).1, ?_, _, (Arena.join_walk_joinedPath h hn hx hy hr p).trans hp⟩
      unfold joinedPath
      split
      · exact hnewMem
      · split
        · exact hnewMem
        · exact (hroots r).mpr (.inl ⟨hr, ‹_›, ‹_›⟩)
    · exact ⟨idxOf n, hnewMem, [], congrArg some (Fin.ext (by omega))⟩
  case once =>
    have hlt : ∀ r₀ ∈ roots, ∀ q, a.walk r₀ q = some i → i ≠ idxOf n := fun r₀ hr₀ q hq e => by
      have := h.closed.walk_lt (h.rootLt r₀ hr₀) hq
      rw [e, hnew] at this
      exact Nat.lt_irrefl n this
    rcases hcases r i p hr hp with ⟨hr1, hp1, hi1⟩ | ⟨r₀, hr₀, q, he, hq⟩ <;>
      rcases hcases r' i p' hr' hp' with ⟨hr2, hp2, hi2⟩ | ⟨r₁, hr₁, q', he', hq'⟩
    · exact ⟨hr1.trans hr2.symm, hp1.trans hp2.symm⟩
    · exact absurd hi1 (hlt r₁ hr₁ q' hq')
    · exact absurd hi2 (hlt r₀ hr₀ q hq)
    · obtain ⟨rfl, rfl⟩ := h.once r₀ hr₀ r₁ hr₁ q q' i hq hq'
      exact Prod.mk.inj (he.trans he'.symm)

end

/-- One merge: two different nodes of Q become the children of a new node, and give their places in Q to it (R161). -/
theorem mergeOnce_spec (pol : TiePolicy) (draw : Nat → Nat) {m : Merge} (hnodup : m.queue.Nodup) (h : 1 < m.queue.length) :
    ∃ f x y, x ∈ m.queue ∧ y ∈ m.queue ∧ x ≠ y ∧
      (mergeOnce pol draw m).arena = m.arena.join m.fresh f x y ∧
      (mergeOnce pol draw m).queue = (m.queue.erase x).erase y ++ [idxOf m.fresh] := by
  have hne : m.queue ≠ [] := fun e => by simp [e] at h
  have hx := selectMin_mem pol (draw m.draws) m.arena m.queue hne
  have hrest : m.queue.erase (selectMin pol (draw m.draws) m.arena m.queue) ≠ [] := by
    intro e
    have := List.length_erase_of_mem hx
    rw [e, List.length_nil] at this
    omega
  have hy := selectMin_mem pol (draw (m.draws + 1)) m.arena _ hrest
  obtain ⟨hyx, hym⟩ := (List.Nodup.mem_erase_iff hnodup).mp hy
  exact ⟨_, _, _, hx, hym, Ne.symm hyx, rfl, rfl⟩

/-- What holds between two merges over `k` leaves (R161): the arena is a forest with the roots in Q; the leaves are untouched, and
every other entry has two children before it. -/
structure Merge.Forest (leaves : Arena) (k : Nat) (m : Merge) : Prop where
  spans : m.arena.Spans m.fresh m.queue
  nodup : m.queue.Nodup
  count : m.fresh + m.queue.length = 2 * k
  leavesBelow : k ≤ m.fresh
  leavesKept : Arena.Agree k leaves m.arena
  inner : ∀ i : NodeIdx, k ≤ i.val → i.val < m.fresh → ∃ f l r, m.arena.at i = .internal f (some l) (some r) ∧
    l.val < i.val ∧ r.val < i.val

theorem mergeOnce_forest {pol : TiePolicy} {draw : Nat → Nat} {leaves : Arena} {k : Nat} {m : Merge} (hk : k ≤ 256)
    (h : m.Forest leaves k) (hq : 1 < m.queue.length) : (mergeOnce pol draw m).Forest leaves k := by
  obtain ⟨f, x, y, hx, hy, hne, harena, hqueue⟩ := mergeOnce_spec pol draw h.nodup hq
  have hlen := mergeOnce_queue_length pol draw m hq
  have hcount := h.count
  have hbelow := h.leavesBelow
  have hcap : m.fresh < 511 := by omega
  have hnew := idxOf_val m.fresh hcap
  have hmem : ∀ r, r ∈ (mergeOnce pol draw m).queue ↔ (r ∈ m.queue ∧ r ≠ x ∧ r ≠ y) ∨ r = idxOf m.fresh := by
    intro r
    rw [hqueue, List.mem_append, List.mem_singleton, List.Nodup.mem_erase_iff (h.nodup.erase x),
      List.Nodup.mem_erase_iff h.nodup]
    tauto
  have hagree : Arena.Agree m.fresh m.arena (mergeOnce pol draw m).arena := harena ▸ Arena.join_agree hcap
  refine ⟨?_, ?_, by rw [hlen, mergeOnce_fresh]; omega, by rw [mergeOnce_fresh]; omega, ?_, ?_⟩
  · rw [mergeOnce_fresh, harena]
    exact h.spans.join hcap hx hy hne hmem
  · rw [hqueue, List.nodup_append]
    refine ⟨(h.nodup.erase x).erase y, List.nodup_singleton _, fun r hr r' hr' e => ?_⟩
    have hr := h.spans.rootLt r (List.mem_of_mem_erase (List.mem_of_mem_erase hr))
    rw [e, List.mem_singleton.mp hr', hnew] at hr
    exact Nat.lt_irrefl _ hr
  · exact fun i hi => (hagree i (by omega)).trans (h.leavesKept i hi)
  · intro i hi hi'
    rw [mergeOnce_fresh] at hi'
    by_cases hlt : i.val < m.fresh
    · rw [hagree i hlt]
      exact h.inner i hi hlt
    · obtain rfl : i = idxOf m.fresh := Fin.ext (by omega)
      refine ⟨f, y, x, by rw [harena, Arena.join_at_new], ?_, ?_⟩ <;> rw [hnew]
      · exact h.spans.rootLt y hy
      · exact h.spans.rootLt x hx

theorem mergeLoop_forest {pol : TiePolicy} {draw : Nat → Nat} {leaves : Arena} {k : Nat} (hk : k ≤ 256) (turns : Nat)
    {m : Merge} (h : m.Forest leaves k) : (mergeLoop pol draw turns m).Forest leaves k := by
  induction turns generalizing m with
  | zero => exact h
  | succ turns ih =>
    unfold mergeLoop
    split
    · exact ih (mergeOnce_forest hk h ‹_›)
    · exact h

/-- The leaves of at most 256 symbols fit the arena. -/
theorem lt_nodeCap {j k : Nat} (hj : j < k) (hk : k ≤ 256) : j < Config.nodeCap :=
  hj.trans_le (hk.trans (by decide))

theorem mem_leafIndices {k : Nat} (hk : k ≤ 256) (i : NodeIdx) : i ∈ leafIndices k ↔ i.val < k := by
  simp only [leafIndices, List.mem_map, List.mem_range]
  constructor
  · rintro ⟨j, hj, rfl⟩
    rwa [idxOf_val j (lt_nodeCap hj hk)]
  · exact fun hi => ⟨i.val, hi, Fin.ext (idxOf_val _ i.isLt)⟩

theorem leafIndices_nodup {k : Nat} (hk : k ≤ 256) : (leafIndices k).Nodup := by
  refine List.Nodup.map_on (fun i hi j hj e => ?_) List.nodup_range
  rw [List.mem_range] at hi hj
  rw [← idxOf_val i (lt_nodeCap hi hk), e, idxOf_val j (lt_nodeCap hj hk)]

/-- `k` leaves are a forest of `k` trees. -/
theorem leaves_forest {a : Arena} {k draws : Nat} (hk : k ≤ 256)
    (hleaf : ∀ i : NodeIdx, i.val < k → (a.at i).isLeaf = true) : Merge.Forest a k ⟨a, leafIndices k, k, draws⟩ := by
  have hlen : (leafIndices k).length = k := by simp [leafIndices]
  have hmem := mem_leafIndices hk
  refine ⟨⟨fun r hr => (hmem r).mp hr, fun i hi b j hj => ?_, fun i hi => ⟨i, (hmem i).mpr hi, [], rfl⟩,
    fun r hr r' hr' p p' i hp hp' => ?_⟩, leafIndices_nodup hk, by dsimp only; omega, Nat.le_refl k,
    fun _ _ => rfl, fun i hi hi' => absurd hi' (Nat.not_lt.mpr hi)⟩
  · rw [Node.child_eq_none_of_isLeaf (hleaf i hi)] at hj
    cases hj
  · obtain ⟨rfl, rfl⟩ := Arena.walk_of_isLeaf (hleaf r ((hmem r).mp hr)) hp
    obtain ⟨rfl, rfl⟩ := Arena.walk_of_isLeaf (hleaf r' ((hmem r').mp hr')) hp'
    exact ⟨rfl, rfl⟩

theorem mergeAll_forest {pol : TiePolicy} {draw : Nat → Nat} {a : Arena} {k draws : Nat} (hk : k ≤ 256)
    (hleaf : ∀ i : NodeIdx, i.val < k → (a.at i).isLeaf = true) : (mergeAll pol draw k draws a).Forest a k :=
  mergeLoop_forest hk k (leaves_forest hk hleaf)

theorem Merge.Forest.descends {leaves : Arena} {k : Nat} {m : Merge} (h : m.Forest leaves k)
    (hleaf : ∀ i : NodeIdx, i.val < k → (leaves.at i).isLeaf = true) : m.arena.Descends m.fresh := by
  intro i hi b j hj
  by_cases hik : i.val < k
  · rw [h.leavesKept i hik, Node.child_eq_none_of_isLeaf (hleaf i hik)] at hj
    cases hj
  · obtain ⟨f, l, r, hn, hl, hr⟩ := h.inner i (Nat.not_lt.mp hik) hi
    rw [hn] at hj
    cases b <;> cases hj <;> assumption

/-! ### The code-table generator -/

/-- `GenCodes` below one child, if there is one (R162). -/
def genChild (depth : Nat) (c : Option NodeIdx) (p : Bits) (s : State) : State :=
  match c with
  | some j => genCodes depth j p s
  | none => s

theorem genCodes_of_leaf {depth : Nat} {i : NodeIdx} {p : Bits} {s : State} {sym : Byte} {f : BitVec 40}
    (h : s.nodeAt i = .leaf sym f) : genCodes (depth + 1) i p s = s.setCode sym p := by
  rw [genCodes, h]

theorem genCodes_of_internal {depth : Nat} {i : NodeIdx} {p : Bits} {s : State} {f : BitVec 40} {l r : Option NodeIdx}
    (h : s.nodeAt i = .internal f l r) :
    genCodes (depth + 1) i p s = genChild depth r (p ++ [true]) (genChild depth l (p ++ [false]) s) := by
  rw [genCodes, h]
  cases l <;> cases r <;> rfl

@[simp] theorem genChild_node (depth : Nat) (c : Option NodeIdx) (p : Bits) (s : State) :
    (genChild depth c p s).node = s.node := by
  cases c with
  | none => rfl
  | some j => exact genCodes_node depth j p s

/-- The code and the length the table holds for a symbol. -/
def State.entry (s : State) (sym : Byte) : Bits × BitVec 8 := (s.codeAt sym, s.clenAt sym)

theorem entry_setCode (s : State) (sym y : Byte) (p : Bits) :
    (s.setCode sym p).entry y = if y = sym then (p, BitVec.ofNat 8 p.length) else s.entry y := by
  unfold State.entry
  split
  · rename_i e
    rw [e, codeAt_setCode_same, clenAt_setCode_same]
  · rw [codeAt_setCode_other _ _ _ _ ‹_›, clenAt_setCode_other _ _ _ _ ‹_›]

/-- A symbol with no leaf below the node keeps its entry. -/
theorem genCodes_entry_of_no_leaf {sym : Byte} (depth : Nat) {i : NodeIdx} (p : Bits) {s : State}
    (h : ∀ q f, ¬ Arena.LeafAt s.node i q sym f) : (genCodes depth i p s).entry sym = s.entry sym := by
  induction depth generalizing i p s with
  | zero => rfl
  | succ depth ih =>
    cases hn : s.nodeAt i with
    | leaf y g =>
      rw [genCodes_of_leaf hn, entry_setCode, if_neg]
      rintro rfl
      exact h [] g ⟨i, rfl, hn⟩
    | internal g l r =>
      have hchild : ∀ (b : Bool) (q : Bits) (u : State), u.node = s.node →
          (genChild depth ((Node.internal g l r).child b) q u).entry sym = u.entry sym := by
        intro b q u hu
        cases hc : (Node.internal g l r).child b with
        | none => rfl
        | some j =>
          refine ih q fun q' f => ?_
          rw [hu]
          rintro ⟨k, hk, hl⟩
          exact h (b :: q') f ⟨k, Arena.walk_cons_eq_some.mpr ⟨j, (congrArg (Node.child · b) hn).trans hc, hk⟩, hl⟩
      rw [genCodes_of_internal hn]
      exact (hchild true _ _ (genChild_node _ _ _ _)).trans (hchild false _ _ rfl)

/-- A symbol with one leaf below the node gets the path to it, behind the node's own path (R162). -/
theorem genCodes_entry_of_leaf {sym : Byte} {q : Bits} {f : BitVec 40} (depth : Nat) {i : NodeIdx} (p : Bits) {s : State}
    (hdepth : q.length < depth) (hleaf : Arena.LeafAt s.node i q sym f)
    (honly : ∀ q' f', Arena.LeafAt s.node i q' sym f' → q' = q) :
    (genCodes depth i p s).entry sym = (p ++ q, BitVec.ofNat 8 (p ++ q).length) := by
  induction depth generalizing i p q s with
  | zero => exact absurd hdepth (Nat.not_lt_zero _)
  | succ depth ih =>
    obtain ⟨j, hj, hl⟩ := hleaf
    cases hn : s.nodeAt i with
    | leaf y g =>
      obtain ⟨rfl, rfl⟩ := Arena.walk_of_isLeaf (Node.isLeaf_of_eq_leaf hn) hj
      cases hn.symm.trans hl
      rw [genCodes_of_leaf hn, entry_setCode, if_pos rfl, List.append_nil]
    | internal g l r =>
      have hstep : ∀ b k, (Node.internal g l r).child b = some k → (Arena.at s.node i).child b = some k :=
        fun b k hk => (congrArg (Node.child · b) hn).trans hk
      cases q with
      | nil =>
        cases Option.some.inj hj
        cases hn.symm.trans hl
      | cons b q =>
        obtain ⟨k, hk, hw⟩ := Arena.walk_cons_eq_some.mp hj
        have hk' : (Node.internal g l r).child b = some k := (congrArg (Node.child · b) hn).symm.trans hk
        have hhere : ∀ u : State, u.node = s.node → (genChild depth ((Node.internal g l r).child b) (p ++ [b]) u).entry sym =
            (p ++ b :: q, BitVec.ofNat 8 (p ++ b :: q).length) := by
          intro u hu
          rw [hk', List.append_cons p b q]
          rw [List.length_cons] at hdepth
          refine ih (p ++ [b]) (Nat.lt_of_succ_lt_succ hdepth) (by rw [hu]; exact ⟨j, hw, hl⟩) ?_
          rw [hu]
          rintro q' f' ⟨m, hm, hlm⟩
          exact (List.cons.inj (honly (b :: q') f' ⟨m, Arena.walk_cons_eq_some.mpr ⟨k, hk, hm⟩, hlm⟩)).2
        have hthere : ∀ (u : State) (p' : Bits), u.node = s.node →
            (genChild depth ((Node.internal g l r).child !b) p' u).entry sym = u.entry sym := by
          intro u p' hu
          cases hc : (Node.internal g l r).child !b with
          | none => rfl
          | some k' =>
            refine genCodes_entry_of_no_leaf depth p' ?_
            rw [hu]
            rintro q' f' ⟨m, hm, hlm⟩
            have := honly ((!b) :: q') f' ⟨m, Arena.walk_cons_eq_some.mpr ⟨k', hstep _ _ hc, hm⟩, hlm⟩
            simp at this
        rw [genCodes_of_internal hn]
        cases b with
        | false => exact (hthere _ _ (genChild_node _ _ _ _)).trans (hhere _ rfl)
        | true => exact hhere _ (genChild_node _ _ _ _)

end Sys2Proof.Machine
end

section
/-! PROOFS. BUILD as a whole (spec/42_tree.md R160), and every step keeps the tree invariant (spec/10_state.md R55, R47, R48, R51). -/

namespace Sys2Proof.Machine

/-! ### BUILD's tree -/

/-- The arena with the leaves of BUILD written (R160). -/
def State.leafArena (s : State) : Arena := writeLeaves s.freqAt s.liveSyms 0 s.node

/-- The merge engine at the end of BUILD (R161). -/
def State.merged (draw : Nat → Nat) (s : State) : Merge :=
  mergeAll s.params.tiePolicy draw s.liveSyms.length s.draws s.leafArena

/-- The last index taken, where the root of BUILD's tree is (R161). -/
def State.builtRoot (draw : Nat → Nat) (s : State) : NodeIdx := idxOf ((s.merged draw).fresh - 1)

/-- BUILD's tree of two or more symbols, before the code table is filled in. -/
def State.builtTree (draw : Nat → Nat) (s : State) : State :=
  { treeClear s with
    node := (s.merged draw).arena
    nodeCount := BitVec.ofNat 10 (s.merged draw).fresh
    root := s.builtRoot draw
    rootV := true
    tstate := .built
    cur := s.builtRoot draw
    draws := (s.merged draw).draws }

theorem buildWith_of_none {draw : Nat → Nat} {s : State} (h : s.liveSyms = []) : buildWith draw s = treeClear s := by
  unfold buildWith
  rw [h]

theorem buildWith_of_one {draw : Nat → Nat} {s : State} {sym : Byte} (h : s.liveSyms = [sym]) :
    buildWith draw s =
      { (treeClear s).setCode sym [false] with
        node := s.leafArena
        nodeCount := 1
        root := 0
        rootV := true
        tstate := .built
        cur := 0
        numCodes := 1 } := by
  unfold buildWith State.leafArena
  rw [h]
  rfl

/-- BUILD of two or more symbols: the tree, with the code table that the generator fills in. -/
theorem buildWith_of_two_le {draw : Nat → Nat} {s : State} (h : 2 ≤ s.liveSyms.length) :
    buildWith draw s = { genCodes Config.nodeCap (s.builtTree draw).root [] (s.builtTree draw) with
      numCodes := BitVec.ofNat 9 s.liveSyms.length } := by
  unfold buildWith State.builtTree State.builtRoot State.merged State.leafArena
  cases hs : s.liveSyms with
  | nil => simp [hs] at h
  | cons x rest =>
    cases rest with
    | nil => simp [hs] at h
    | cons y rest => rfl

/-- So BUILD changes nothing of that tree but the code table and the number of codes. -/
theorem buildWith_eq_builtTree {draw : Nat → Nat} {s : State} (h : 2 ≤ s.liveSyms.length) :
    ∃ c l, buildWith draw s =
      { s.builtTree draw with code := c, clen := l, numCodes := BitVec.ofNat 9 s.liveSyms.length } := by
  obtain ⟨c, l, e⟩ := genCodes_frame Config.nodeCap (s.builtTree draw).root [] (s.builtTree draw)
  exact ⟨c, l, by rw [buildWith_of_two_le h, e]⟩

theorem liveSyms_fit (s : State) : 0 + s.liveSyms.length ≤ Config.nodeCap := by
  have := liveSyms_length_le s
  change _ ≤ 511
  omega

theorem leafArena_at (s : State) {i : NodeIdx} (hi : i.val < s.liveSyms.length) :
    s.leafArena.at i = .leaf s.liveSyms[i.val] ((s.freqAt s.liveSyms[i.val]).setWidth 40) := by
  have h := writeLeaves_at s.freqAt s.liveSyms 0 s.node (liveSyms_fit s) hi
  rwa [Nat.zero_add, show idxOf i.val = i from Fin.ext (idxOf_val _ i.isLt)] at h

theorem leafArena_isLeaf (s : State) (i : NodeIdx) (hi : i.val < s.liveSyms.length) : (s.leafArena.at i).isLeaf = true := by
  rw [leafArena_at s hi]
  rfl

theorem merged_forest (draw : Nat → Nat) (s : State) : (s.merged draw).Forest s.leafArena s.liveSyms.length :=
  mergeAll_forest (liveSyms_length_le s) (leafArena_isLeaf s)

theorem merged_descends (draw : Nat → Nat) (s : State) : (s.merged draw).arena.Descends (s.merged draw).fresh :=
  (merged_forest draw s).descends (leafArena_isLeaf s)

theorem merged_full (draw : Nat → Nat) (s : State) : (s.merged draw).arena.Full (s.merged draw).fresh := by
  intro i hi hl b
  have hforest := merged_forest draw s
  by_cases hik : i.val < s.liveSyms.length
  · rw [hforest.leavesKept i hik, leafArena_isLeaf s i hik] at hl
    cases hl
  · obtain ⟨f, l, r, hn, -, -⟩ := hforest.inner i (Nat.not_lt.mp hik) hi
    rw [hn]
    cases b with
    | false => exact ⟨l, rfl⟩
    | true => exact ⟨r, rfl⟩

theorem merged_internal {draw : Nat → Nat} {s : State} {i : NodeIdx} (hk : s.liveSyms.length ≤ i.val)
    (hi : i.val < (s.merged draw).fresh) : ((s.merged draw).arena.at i).isLeaf = false := by
  obtain ⟨f, l, r, hn, -, -⟩ := (merged_forest draw s).inner i hk hi
  rw [hn]
  rfl

/-- A leaf of BUILD's tree is the leaf of a live symbol. -/
theorem merged_leaf {draw : Nat → Nat} {s : State} {i : NodeIdx} {sym : Byte} {f : BitVec 40}
    (hi : i.val < (s.merged draw).fresh) (hl : (s.merged draw).arena.at i = .leaf sym f) :
    ∃ hk : i.val < s.liveSyms.length, s.liveSyms[i.val] = sym := by
  have hforest := merged_forest draw s
  have hk : i.val < s.liveSyms.length := by
    by_contra hge
    have := merged_internal (Nat.not_lt.mp hge) hi
    rw [hl] at this
    cases this
  rw [hforest.leavesKept i hk, leafArena_at s hk] at hl
  exact ⟨hk, (Node.leaf.inj hl).1⟩

section
variable {draw : Nat → Nat} {s : State} (h : 2 ≤ s.liveSyms.length)
include h

theorem merged_fresh : (s.merged draw).fresh = 2 * s.liveSyms.length - 1 := (mergeAll_ends _ _ _ _ _ (by omega)).2

theorem merged_root : (s.builtRoot draw).val = 2 * s.liveSyms.length - 2 := by
  have := liveSyms_length_le s
  rw [State.builtRoot, merged_fresh h, idxOf_val _ (show _ < 511 by omega)]
  omega

/-- The one node left in Q is the last one made, since no other has the last one below it. -/
theorem merged_queue : (s.merged draw).queue = [s.builtRoot draw] := by
  have hspan := (merged_forest draw s).spans
  have hend : (s.merged draw).queue.length = 1 := (mergeAll_ends _ _ _ _ _ (by omega)).1
  obtain ⟨r, hr⟩ := List.length_eq_one_iff.mp hend
  have hroot := merged_root (draw := draw) h
  have hfresh := merged_fresh (draw := draw) h
  obtain ⟨r', hr', p, hp⟩ := hspan.reached (s.builtRoot draw) (by omega)
  have hlt := hspan.rootLt r' hr'
  have hlen := (merged_descends draw s).walk_length hlt hp
  rw [hr, show r = s.builtRoot draw from ?_]
  rw [hr, List.mem_singleton] at hr'
  subst hr'
  exact Fin.ext (by omega)

theorem merged_spans :
    (s.merged draw).arena.Spans (s.merged draw).fresh [s.builtRoot draw] := by
  have hspan := (merged_forest draw s).spans
  rwa [merged_queue h] at hspan

theorem merged_root_internal : ((s.merged draw).arena.at (s.builtRoot draw)).isLeaf = false := by
  have hroot := merged_root (draw := draw) h
  have hfresh := merged_fresh (draw := draw) h
  exact merged_internal (by omega) (by omega)

/-- Every live symbol has its leaf in BUILD's tree, at one path. -/
theorem merged_leafAt_iff (sym : Byte) :
    sym ∈ s.liveSyms ↔ ∃ p f, (s.merged draw).arena.LeafAt (s.builtRoot draw) p sym f := by
  have hspan := merged_spans (draw := draw) h
  have hforest := merged_forest draw s
  constructor
  · intro hmem
    obtain ⟨j, hj, rfl⟩ := List.getElem_of_mem hmem
    have hval : (idxOf j).val = j := idxOf_val j (lt_nodeCap hj (liveSyms_length_le s))
    have hi : (idxOf j).val < s.liveSyms.length := by rwa [hval]
    obtain ⟨r, hr, p, hp⟩ := hspan.reached (idxOf j) (hi.trans_le hforest.leavesBelow)
    rw [List.mem_singleton.mp hr] at hp
    have hl : (s.merged draw).arena.at (idxOf j) = .leaf s.liveSyms[j] ((s.freqAt s.liveSyms[j]).setWidth 40) := by
      rw [hforest.leavesKept _ hi, leafArena_at s hi]
      simp only [hval]
    exact ⟨p, _, idxOf j, hp, hl⟩
  · rintro ⟨p, f, i, hp, hl⟩
    obtain ⟨hk, rfl⟩ := merged_leaf (hspan.closed.walk_lt (hspan.rootLt _ (List.mem_singleton_self _)) hp) hl
    exact List.getElem_mem hk

theorem merged_leafAt_unique {p q : Bits} {sym : Byte} {f g : BitVec 40}
    (hp : (s.merged draw).arena.LeafAt (s.builtRoot draw) p sym f)
    (hq : (s.merged draw).arena.LeafAt (s.builtRoot draw) q sym g) : p = q := by
  obtain ⟨i, hi, hli⟩ := hp
  obtain ⟨j, hj, hlj⟩ := hq
  have hspan := merged_spans (draw := draw) h
  have hmem := List.mem_singleton_self (s.builtRoot draw)
  have hroot := hspan.rootLt _ hmem
  obtain ⟨hik, hsi⟩ := merged_leaf (hspan.closed.walk_lt hroot hi) hli
  obtain ⟨hjk, hsj⟩ := merged_leaf (hspan.closed.walk_lt hroot hj) hlj
  have hij : i = j := Fin.ext ((liveSyms_nodup s).getElem_inj_iff.mp (hsi.trans hsj.symm))
  exact (hspan.once _ hmem _ hmem p q i hi (hij ▸ hj)).2

/-- A code of BUILD's tree has 1 to k − 1 bits: each node on the way to a leaf is an internal one, and there are k − 1. -/
theorem merged_leafAt_length {p : Bits} {sym : Byte} {f : BitVec 40}
    (hp : (s.merged draw).arena.LeafAt (s.builtRoot draw) p sym f) :
    p ≠ [] ∧ p.length < s.liveSyms.length := by
  obtain ⟨j, hj, hl⟩ := hp
  have hspan := merged_spans (draw := draw) h
  have hroot := hspan.rootLt _ (List.mem_singleton_self _)
  have hrootval := merged_root (draw := draw) h
  rcases List.eq_nil_or_concat p with rfl | ⟨q, b, rfl⟩
  · cases Option.some.inj hj
    have := merged_root_internal (draw := draw) h
    rw [hl] at this
    cases this
  · rw [List.concat_eq_append] at hj ⊢
    obtain ⟨i, hi, hch⟩ := Arena.walk_concat_eq_some.mp hj
    have hik : s.liveSyms.length ≤ i.val := by
      by_contra hlt
      rw [(merged_forest draw s).leavesKept i (Nat.not_le.mp hlt),
        Node.child_eq_none_of_isLeaf (leafArena_isLeaf s i (Nat.not_le.mp hlt))] at hch
      cases hch
    have hlen := (merged_descends draw s).walk_length hroot hi
    refine ⟨by simp, ?_⟩
    rw [List.length_append, List.length_singleton]
    omega

end

/-! ### BUILD's code table -/

section
variable {draw : Nat → Nat} {s : State} (h : 2 ≤ s.liveSyms.length)
include h

theorem buildWith_entry_of_leaf {p : Bits} {sym : Byte} {f : BitVec 40}
    (hp : (s.merged draw).arena.LeafAt (s.builtRoot draw) p sym f) :
    (buildWith draw s).entry sym = (p, BitVec.ofNat 8 p.length) := by
  rw [buildWith_of_two_le h]
  exact genCodes_entry_of_leaf (s := s.builtTree draw) Config.nodeCap []
    (lt_nodeCap (merged_leafAt_length h hp).2 (liveSyms_length_le s)) hp (fun q g hq => merged_leafAt_unique h hq hp)

theorem buildWith_entry_of_no_leaf {sym : Byte}
    (hno : ¬ ∃ p f, (s.merged draw).arena.LeafAt (s.builtRoot draw) p sym f) : (buildWith draw s).entry sym = ([], 0) := by
  rw [buildWith_of_two_le h]
  refine (genCodes_entry_of_no_leaf (s := s.builtTree draw) Config.nodeCap [] fun p f hp => hno ⟨p, f, hp⟩).trans ?_
  exact Prod.ext (treeClear_codeAt s sym) (treeClear_clenAt s sym)

theorem buildWith_node_root :
    (buildWith draw s).node = (s.merged draw).arena ∧ (buildWith draw s).root = s.builtRoot draw := by
  obtain ⟨c, l, e⟩ := buildWith_eq_builtTree (draw := draw) h
  rw [e]
  exact ⟨rfl, rfl⟩

/-- The code table after BUILD is what its tree's leaves say (R162). -/
theorem buildWith_codesFromLeaves : (buildWith draw s).CodesFromLeaves := by
  have hk := liveSyms_length_le s
  obtain ⟨hnode, hroot⟩ := buildWith_node_root (draw := draw) h
  refine ⟨fun sym => ?coded, fun p sym f hp => ?path, fun sym => ?length⟩
  case coded =>
    rw [hnode, hroot]
    by_cases hl : ∃ p f, (s.merged draw).arena.LeafAt (s.builtRoot draw) p sym f
    · obtain ⟨p, f, hp⟩ := hl
      obtain ⟨hpos, hlen⟩ := merged_leafAt_length h hp
      have hclen : (buildWith draw s).clenAt sym = BitVec.ofNat 8 p.length :=
        congrArg Prod.snd (buildWith_entry_of_leaf h hp)
      rw [hclen]
      exact ⟨fun _ => ⟨p, f, hp⟩, fun _ => clen_ne_zero hpos (by omega)⟩
    · have hclen : (buildWith draw s).clenAt sym = 0 := congrArg Prod.snd (buildWith_entry_of_no_leaf h hl)
      exact ⟨fun hc => absurd hclen hc, fun hl' => absurd hl' hl⟩
  case path =>
    rw [hnode, hroot] at hp
    rw [if_neg (merged_leafAt_length h hp).1]
    exact congrArg Prod.fst (buildWith_entry_of_leaf h hp)
  case length =>
    change ((buildWith draw s).entry sym).1.length = ((buildWith draw s).entry sym).2.toNat
    by_cases hl : ∃ p f, (s.merged draw).arena.LeafAt (s.builtRoot draw) p sym f
    · obtain ⟨p, f, hp⟩ := hl
      have hlen := (merged_leafAt_length h hp).2
      rw [buildWith_entry_of_leaf h hp, BitVec.toNat_ofNat, Nat.mod_eq_of_lt (by omega)]
    · rw [buildWith_entry_of_no_leaf h hl]
      rfl

end

/-- NUM_CODES after BUILD: the symbols with a code are those with a nonzero count. -/
theorem codeCount_eq_liveSyms_length {s t : State} (h : ∀ sym, t.clenAt sym ≠ 0 ↔ sym ∈ s.liveSyms) :
    t.codeCount = s.liveSyms.length := by
  unfold State.codeCount State.liveSyms
  refine congrArg List.length (List.filter_congr fun sym _ => ?_)
  rw [decide_eq_decide, h sym, mem_liveSyms]

/-! ### BUILD keeps the tree invariant -/

theorem treeClear_treeInv (s : State) : (treeClear s).TreeInv :=
  .of_cleared rfl rfl rfl rfl (treeClear_clenAt s) (treeClear_codeAt s) rfl

/-- BUILD of one symbol leaves a lone leaf with the code "0" (R163). -/
theorem buildWith_treeInv_of_one {draw : Nat → Nat} {s : State} {sym : Byte} (h : s.liveSyms = [sym]) :
    (buildWith draw s).TreeInv := by
  have hlen : (0 : NodeIdx).val < s.liveSyms.length := by simp [h]
  have hat := leafArena_at s hlen
  simp only [Fin.val_zero, h, List.getElem_cons_zero] at hat
  have hchild : ∀ b, (s.leafArena.at 0).child b = none := Node.child_eq_none_of_isLeaf (Node.isLeaf_of_eq_leaf hat)
  have hleaf : ∀ p y f, s.leafArena.LeafAt 0 p y f → p = [] ∧ y = sym := by
    rintro p y f ⟨i, hi, hl⟩
    obtain ⟨rfl, rfl⟩ := Arena.walk_of_childless hchild hi
    exact ⟨rfl, (Node.leaf.inj (hl.symm.trans hat)).1⟩
  have hfull : s.leafArena.Full 1 := fun i hi hl => by
    rw [show i = 0 from Fin.ext (Nat.lt_one_iff.mp hi), hat] at hl
    cases hl
  have hcode : ∀ y, (buildWith draw s).codeAt y = if y = sym then [false] else [] := fun y => by
    rw [buildWith_of_one h]
    refine (congrArg Prod.fst (entry_setCode (treeClear s) sym y [false])).trans ?_
    rw [State.entry, treeClear_codeAt]
    split <;> rfl
  have hclen : ∀ y, (buildWith draw s).clenAt y = if y = sym then 1 else 0 := fun y => by
    rw [buildWith_of_one h]
    refine (congrArg Prod.snd (entry_setCode (treeClear s) sym y [false])).trans ?_
    rw [State.entry, treeClear_clenAt]
    split <;> rfl
  have hcoded : ∀ y, (buildWith draw s).clenAt y ≠ 0 ↔ y = sym := fun y => by
    rw [hclen]
    split <;> simp [*]
  have hcount := codeCount_eq_liveSyms_length (s := s) (t := buildWith draw s) (fun y => by
    rw [hcoded, h, List.mem_singleton])
  have hcodes : (buildWith draw s).CodesFromLeaves := by
    refine ⟨fun y => ?_, fun p y f hp => ?_, fun y => ?_⟩
    · rw [hcoded, buildWith_of_one h]
      exact ⟨fun e => ⟨[], _, 0, rfl, e ▸ hat⟩, fun ⟨p, f, hp⟩ => (hleaf p y f hp).2⟩
    · rw [buildWith_of_one h] at hp
      obtain ⟨rfl, rfl⟩ := hleaf p y f hp
      rw [hcode, if_pos rfl, if_pos rfl]
    · rw [hcode, hclen]
      split <;> rfl
  rw [buildWith_of_one h] at hcodes hcount ⊢
  exact .of_tree rfl (fun e => by cases e) (by simp) (Arena.spans_of_childless hchild) hcodes (hfull.fruitfulOff _)
    (fun _ => hfull) (fun e => by cases e) rfl (by rw [hcount, h]; rfl)

/-- BUILD of two or more symbols leaves a full tree with a code for each of them (R160 to R162). -/
theorem buildWith_treeInv_of_two_le {draw : Nat → Nat} {s : State} (h : 2 ≤ s.liveSyms.length) :
    (buildWith draw s).TreeInv := by
  have hk := liveSyms_length_le s
  have hfresh := merged_fresh (draw := draw) h
  have hspan := merged_spans (draw := draw) h
  have hfull := merged_full draw s
  have hcap : (s.merged draw).fresh ≤ 511 := by omega
  have hcnt : (BitVec.ofNat 10 (s.merged draw).fresh).toNat = (s.merged draw).fresh := by
    rw [BitVec.toNat_ofNat]
    omega
  rw [← hcnt] at hcap hspan hfull
  have hcodes := buildWith_codesFromLeaves (draw := draw) h
  obtain ⟨hnode, hroot⟩ := buildWith_node_root (draw := draw) h
  have hcount := codeCount_eq_liveSyms_length (s := s) (t := buildWith draw s) (fun sym => by
    rw [hcodes.coded, hnode, hroot, ← merged_leafAt_iff h])
  obtain ⟨c, l, e⟩ := buildWith_eq_builtTree (draw := draw) h
  rw [e] at hcodes hcount ⊢
  refine .of_tree rfl (fun e => by cases e) hcap hspan hcodes (hfull.fruitfulOff _) (fun _ => hfull)
    (fun e => by cases e) rfl ?_
  rw [hcount, BitVec.toNat_ofNat]
  omega

theorem execBuild_treeInv {s t : State} (h : execBuild s = .next t) : t.TreeInv := by
  cases h
  by_cases h2 : 2 ≤ s.liveSyms.length
  · exact buildWith_treeInv_of_two_le h2
  · match hs : s.liveSyms with
    | [] =>
      rw [buildWith_of_none hs]
      exact treeClear_treeInv s
    | [sym] => exact buildWith_treeInv_of_one hs
    | _ :: _ :: _ => simp [hs] at h2

/-! ### Every step keeps the tree invariant -/

/-- The cursor of the walker stays where R51 puts it. -/
theorem decodeBit_treeInv {b : Bool} {s t : State} (hs : s.TreeInv) (hv : s.rootV = true) (h : decodeBit b s = some t) :
    t.TreeInv := by
  have hroot := hs.cursorMayBe_root hv
  rcases decodeBit_cases h with ⟨sym, f, -, rfl⟩ | ⟨hr, hc, ⟨-, rfl⟩ | ⟨ch, hch, ⟨sym, f, -, rfl⟩ | ⟨hn, rfl⟩⟩⟩
  · exact hs.congr ⟨rfl, rfl, rfl, rfl, rfl, rfl, rfl, rfl⟩ rfl
  · exact hs.of_sameTree ⟨rfl, rfl, rfl, rfl, rfl, rfl, rfl, rfl⟩ (fun _ => hroot)
  · exact hs.of_sameTree ⟨rfl, rfl, rfl, rfl, rfl, rfl, rfl, rfl⟩ (fun _ => hroot)
  · refine hs.of_sameTree ⟨rfl, rfl, rfl, rfl, rfl, rfl, rfl, rfl⟩ (fun _ => ?_)
    have hcur := hs.cursor hv
    rw [if_neg (by simp [hr])] at hcur
    rw [State.CursorMayBe, if_neg (by simp [hr])]
    exact ⟨hn, hs.closed s.cur hcur.2 b ch hch⟩

theorem decodeBit_rootV {b : Bool} {s t : State} (h : decodeBit b s = some t) : t.rootV = s.rootV := by
  obtain ⟨out, e, -⟩ := decodeBit_frame h
  rw [e]

theorem decodeBits_treeInv {bs : Bits} {s t : State} (hs : s.TreeInv) (hv : s.rootV = true)
    (h : decodeBits bs s = some t) : t.TreeInv := by
  induction bs generalizing s with
  | nil =>
    cases Option.some.inj h
    exact hs
  | cons b bs ih =>
    unfold decodeBits at h
    cases hb : decodeBit b s with
    | none => simp [hb] at h
    | some u =>
      simp only [hb] at h
      exact ih (decodeBit_treeInv hs hv hb) ((decodeBit_rootV hb).trans hv) h

theorem unpackAdvance_treeInv {s : State} (hs : s.TreeInv) : (unpackAdvance s).TreeInv :=
  hs.congr ⟨rfl, rfl, rfl, rfl, rfl, rfl, rfl, rfl⟩ rfl

/-- Every command keeps the tree invariant: BUILD, LOADC, TCLR and CLEAR make a tree or clear it, USTART, DECB and DEND move the
cursor, and the others leave all of it alone. -/
theorem exec_treeInv {i : Instr} {s t : State} (hs : s.TreeInv) (h : exec i s = .next t) : t.TreeInv := by
  obtain ⟨-, -, -, -, htree, -, -, -, -, hcur, -⟩ := commandsWriteOnlyTheirUnits i s t h
  cases i with
  | clear =>
    cases h
    exact .of_cleared rfl rfl rfl rfl (treeClear_clenAt s) (treeClear_codeAt s) rfl
  | build => exact execBuild_treeInv h
  | tclr =>
    cases h
    exact treeClear_treeInv s
  | loadc sym len => exact execLoadc_treeInv hs h
  | ustart =>
    cases h
    exact hs.of_sameTree ⟨rfl, rfl, rfl, rfl, rfl, rfl, rfl, rfl⟩ hs.cursorMayBe_root
  | decb byte =>
    rcases execDecb_cases byte s with ⟨-, e⟩ | ⟨-, -, e⟩ | ⟨-, hv, u, hu, e⟩ | ⟨-, -, -, e⟩ <;> cases e.symm.trans h
    · exact raise_treeInv _ hs
    · exact raise_treeInv _ (unpackAdvance_treeInv hs)
    · exact decodeBits_treeInv (unpackAdvance_treeInv hs) hv hu
  | dend =>
    obtain ⟨m, rfl⟩ := execDend_frame h
    exact hs.of_sameTree ⟨rfl, rfl, rfl, rfl, rfl, rfl, rfl, rfl⟩ hs.cursorMayBe_root
  | _ =>
    exact hs.congr (htree (by simp) (by simp) (by simp) (by simp))
      (hcur (by simp) (by simp) (by simp) (by simp) (by simp) (by simp) (by simp))

theorem hostStep_treeInv {s : State} (hs : s.TreeInv) : (hostStep s).TreeInv := by
  obtain ⟨u, hu⟩ := hostStep_frame s
  rw [hu]
  exact hs.congr ⟨rfl, rfl, rfl, rfl, rfl, rfl, rfl, rfl⟩ rfl

theorem assertReset_treeInv (s : State) : (assertReset s).TreeInv :=
  (resetWith_treeInv s.params).congr ⟨rfl, rfl, rfl, rfl, rfl, rfl, rfl, rfl⟩ rfl

theorem retire_treeInv {s : State} (hs : s.TreeInv) : (retire s).TreeInv :=
  hs.congr ⟨rfl, rfl, rfl, rfl, rfl, rfl, rfl, rfl⟩ rfl

/-- Settles O56, turn by turn. -/
theorem stepKeepsTheTreeInvariant : Obligations.StepKeepsTheTreeInvariant := by
  unfold Obligations.StepKeepsTheTreeInvariant
  intro s t hs h
  exact step_rule (P := State.TreeInv) (Q := State.TreeInv)
    (fun _ _ hu => hu.congr ⟨rfl, rfl, rfl, rfl, rfl, rfl, rfl, rfl⟩ rfl) (fun _ hu => hu)
    (fun _ hu => hostStep_treeInv hu) (fun u _ => assertReset_treeInv u)
    (fun _ hu => retire_treeInv (raise_treeInv _ hu)) (fun _ _ _ hu _ _ he => retire_treeInv (exec_treeInv hu he)) hs h

end Sys2Proof.Machine
end

section
/-! PROOFS. Arena entries at or above NODE_COUNT are read by no step (spec/10_state.md R42, R43). The state with another arena is
`s.setNode b`; what an operation does to it is what it does to `s`, as long as the arenas agree on the entries in use. -/

namespace Sys2Proof.Machine

/-- The state with another arena. -/
def State.setNode (s : State) (b : Arena) : State := { s with node := b }

/-- An outcome with another arena in its state. -/
def withNode (b : Arena) : Host.Outcome State Fault Refusal → Host.Outcome State Fault Refusal
  | .next s => .next (s.setNode b)
  | .fault r => .fault r
  | .refused r => .refused r

/-- Two states that differ in unused entries are a state and the same with another arena. -/
theorem sameInUse_iff {s t : State} :
    s.sameInUse t ↔ ∃ b, t = s.setNode b ∧ Arena.Agree s.nodeCount.toNat s.node b := by
  constructor
  · rintro ⟨h, ha⟩
    exact ⟨t.node, h, ha⟩
  · rintro ⟨b, rfl, ha⟩
    exact ⟨rfl, ha⟩

theorem sameInUse_setNode {s : State} {b : Arena} (h : Arena.Agree s.nodeCount.toNat s.node b) :
    s.sameInUse (s.setNode b) := ⟨rfl, h⟩

/-- Both outcomes are next states, and these differ in unused entries only. -/
def Alike (o o' : Host.Outcome State Fault Refusal) : Prop := ∃ s t, o = .next s ∧ o' = .next t ∧ s.sameInUse t

theorem Alike.retireOutcome {o o' : Host.Outcome State Fault Refusal} (h : Alike o o') :
    Alike (retireOutcome o) (retireOutcome o') := by
  obtain ⟨s, t, rfl, rfl, hst⟩ := h
  obtain ⟨b, rfl, ha⟩ := sameInUse_iff.mp hst
  exact ⟨retire s, retire (s.setNode b), rfl, rfl, sameInUse_setNode (s := retire s) ha⟩

/-! ### The host's side -/

theorem portRead_setNode (idx : RegIdx) (s : State) (b : Arena) :
    portRead idx (s.setNode b) = ((portRead idx s).1, (portRead idx s).2.setNode b) := by
  unfold portRead
  cases regAt idx with
  | none => rfl
  | some r => cases r <;> rfl

theorem portWrite_setNode (idx : RegIdx) (v : Word) (s : State) (b : Arena) :
    portWrite idx v (s.setNode b) = (portWrite idx v s).setNode b := by
  unfold portWrite
  cases regAt idx with
  | none => rfl
  | some r =>
    cases r with
    | cmd =>
      change writeCmd v (s.setNode b) = (writeCmd v s).setNode b
      unfold writeCmd
      rw [apply_ite (State.setNode · b)]
      rfl
    | _ => rfl

theorem hostReadIdx_setNode (idx : RegIdx) (s : State) (b : Arena) :
    hostReadIdx idx (s.setNode b) = (hostReadIdx idx s).setNode b := by
  unfold hostReadIdx
  rw [portRead_setNode]
  rfl

theorem hostStep_setNode (s : State) (b : Arena) : hostStep (s.setNode b) = (hostStep s).setNode b := by
  have hread : ∀ (r : PortReg) (u : State), hostRead r (u.setNode b) = (hostRead r u).setNode b :=
    fun r u => hostReadIdx_setNode r.idx u b
  unfold hostStep
  rw [show (s.setNode b).hostProg = s.hostProg from rfl]
  cases s.hostProg with
  | nil => rfl
  | cons stmt rest =>
    cases stmt with
    | wr idx v => exact portWrite_setNode idx v { s with hostProg := rest } b
    | rd idx => exact hostReadIdx_setNode idx { s with hostProg := rest } b
    | poll =>
      dsimp only
      rw [apply_ite (State.setNode · b), ← hread, ← hread]
      rfl
    | drain =>
      dsimp only
      rw [apply_ite (State.setNode · b), ← hread, ← hread]
      rfl

/-! ### The commands that do not read the arena -/

theorem packBit_setNode (c : Bool) (s : State) (b : Arena) : packBit c (s.setNode b) = (packBit c s).setNode b := by
  rw [packBit_eq, packBit_eq, apply_ite (State.setNode · b)]
  rfl

theorem packAll_setNode (c : Bits) (s : State) (b : Arena) : packAll c (s.setNode b) = (packAll c s).setNode b := by
  induction c generalizing s with
  | nil => rfl
  | cons d c ih => rw [packAll, packBit_setNode, ih, packAll]

theorem packBits_setNode (c : Bits) (s : State) (b : Arena) : packBits c (s.setNode b) = (packBits c s).setNode b := by
  unfold packBits
  rw [apply_ite (State.setNode · b), packAll_setNode]
  rfl

theorem execCount_setNode (sym : Byte) (s : State) (b : Arena) :
    execCount sym (s.setNode b) = withNode b (execCount sym s) := by
  unfold execCount
  rw [apply_ite (withNode b), apply_ite (withNode b)]
  rfl

theorem execEnc_setNode (sym : Byte) (s : State) (b : Arena) :
    execEnc sym (s.setNode b) = withNode b (execEnc sym s) := by
  unfold execEnc
  rw [apply_ite (withNode b), packBits_setNode]
  rfl

theorem execPutb_setNode (len : BitVec 5) (val : BitVec 16) (s : State) (b : Arena) :
    execPutb len val (s.setNode b) = withNode b (execPutb len val s) := by
  unfold execPutb
  rw [apply_ite (withNode b), packBits_setNode]
  rfl

theorem execFlush_setNode (s : State) (b : Arena) : execFlush (s.setNode b) = withNode b (execFlush s) := by
  unfold execFlush
  rw [show (s.setNode b).pkNbits = s.pkNbits from rfl]
  by_cases h : s.pkNbits.toNat % 8 ≠ 0
  · rw [if_pos h, if_pos h]
    rfl
  · rw [if_neg h, if_neg h]
    rfl

theorem execUraw_setNode (byte : Byte) (s : State) (b : Arena) :
    execUraw byte (s.setNode b) = withNode b (execUraw byte s) := by
  unfold execUraw
  rw [apply_ite (withNode b)]
  rfl

theorem checkShort_setNode (s : State) (b : Arena) : checkShort (s.setNode b) = (checkShort s).setNode b := by
  unfold checkShort
  rw [apply_ite (State.setNode · b)]
  rfl

theorem checkTrunc_setNode (s : State) (b : Arena) : checkTrunc (s.setNode b) = (checkTrunc s).setNode b := by
  unfold checkTrunc
  rw [apply_ite (State.setNode · b)]
  rfl

theorem execDend_setNode (s : State) (b : Arena) : execDend (s.setNode b) = withNode b (execDend s) := by
  unfold execDend
  rw [checkShort_setNode, checkTrunc_setNode]
  rfl

/-! ### The walker -/

/-- The cursor of a state with a tree is in use (R51). -/
theorem State.TreeInv.cur_lt {s : State} (h : s.TreeInv) (hv : s.rootV = true) : s.cur.val < s.nodeCount.toNat := by
  have hcur := h.cursor hv
  split at hcur
  · rw [hcur]
    exact (h.present hv).2
  · exact hcur.2

section
variable {s : State} {b : Arena} (hs : s.TreeInv) (hv : s.rootV = true) (ha : Arena.Agree s.nodeCount.toNat s.node b)
include hs hv ha

/-- The walker looks at the root, at the cursor and at a child of the cursor, all in use (R240). -/
theorem decodeBit_setNode (d : Bool) : decodeBit d (s.setNode b) = (decodeBit d s).map (·.setNode b) := by
  have hroot : (s.setNode b).nodeAt s.root = s.nodeAt s.root := ha _ (hs.present hv).2
  have hcur : (s.setNode b).nodeAt s.cur = s.nodeAt s.cur := ha _ (hs.cur_lt hv)
  have hchild : ∀ ch, (s.nodeAt s.cur).child d = some ch → (s.setNode b).nodeAt ch = s.nodeAt ch :=
    fun ch hch => ha _ (hs.closed _ (hs.cur_lt hv) d ch hch)
  unfold decodeBit
  rw [show (s.setNode b).root = s.root from rfl, show (s.setNode b).cur = s.cur from rfl, hroot, hcur]
  cases s.nodeAt s.root with
  | leaf sym f => rfl
  | internal f l r =>
    cases hc : s.nodeAt s.cur with
    | leaf sym g => rfl
    | internal g l r =>
      rw [hc] at hchild
      dsimp only
      cases hch : (Node.internal g l r).child d with
      | none => rfl
      | some ch =>
        dsimp only
        rw [hchild ch hch]
        cases s.nodeAt ch <;> rfl

end

/-- A decoded bit leaves the hypotheses of the walk as they were. -/
theorem decodeBit_keeps_agree {d : Bool} {s t : State} {b : Arena} (ha : Arena.Agree s.nodeCount.toNat s.node b)
    (h : decodeBit d s = some t) : Arena.Agree t.nodeCount.toNat t.node b := by
  obtain ⟨out, e, -⟩ := decodeBit_frame h
  rw [e]
  exact ha

theorem decodeBits_setNode (bs : Bits) {s : State} {b : Arena} (hs : s.TreeInv) (hv : s.rootV = true)
    (ha : Arena.Agree s.nodeCount.toNat s.node b) : decodeBits bs (s.setNode b) = (decodeBits bs s).map (·.setNode b) := by
  induction bs generalizing s with
  | nil => rfl
  | cons d bs ih =>
    unfold decodeBits
    rw [decodeBit_setNode hs hv ha]
    cases hd : decodeBit d s with
    | none => rfl
    | some t => exact ih (decodeBit_treeInv hs hv hd) ((decodeBit_rootV hd).trans hv) (decodeBit_keeps_agree ha hd)

theorem decodePushes_setNode (bs : Bits) {s : State} {b : Arena} (hs : s.TreeInv) (hv : s.rootV = true)
    (ha : Arena.Agree s.nodeCount.toNat s.node b) : decodePushes bs (s.setNode b) = decodePushes bs s := by
  induction bs generalizing s with
  | nil => rfl
  | cons d bs ih =>
    unfold decodePushes
    rw [decodeBit_setNode hs hv ha]
    cases hd : decodeBit d s with
    | none => rfl
    | some t =>
      have hrest := ih (decodeBit_treeInv hs hv hd) ((decodeBit_rootV hd).trans hv) (decodeBit_keeps_agree ha hd)
      simp only [Option.map_some, hrest]
      rfl

theorem execDecb_setNode (byte : Byte) {s : State} {b : Arena} (hs : s.TreeInv)
    (ha : Arena.Agree s.nodeCount.toNat s.node b) : execDecb byte (s.setNode b) = withNode b (execDecb byte s) := by
  unfold execDecb
  rw [apply_ite (withNode b), apply_ite (withNode b)]
  refine ite_congr rfl (fun _ => rfl) fun _ => ite_congr rfl (fun _ => rfl) fun hv => ?_
  have hwalk : decodeBits (byteBits (s.setNode b).upValid byte) (unpackAdvance (s.setNode b)) = _ :=
    decodeBits_setNode (s := unpackAdvance s) (byteBits s.upValid byte) (unpackAdvance_treeInv hs)
      (Bool.eq_true_of_not_eq_false hv) ha
  rw [hwalk]
  cases decodeBits (byteBits s.upValid byte) (unpackAdvance s) <;> rfl

/-- Whether the core is enabled does not depend on unused entries (R262). -/
theorem coreEnabled_setNode {s : State} {b : Arena} (hs : s.TreeInv) (ha : Arena.Agree s.nodeCount.toNat s.node b) :
    coreEnabled (s.setNode b) = coreEnabled s := by
  have hemit : emitWord s.pendW (s.setNode b) = emitWord s.pendW s := by
    unfold emitWord
    cases decode s.pendW with
    | error e => rfl
    | ok i =>
      cases i with
      | decb byte =>
        refine ite_congr rfl (fun _ => rfl) fun hgo => ?_
        exact decodePushes_setNode (s := unpackAdvance s) _ (unpackAdvance_treeInv hs)
          (Bool.eq_true_of_not_eq_false fun hv => hgo (.inr hv)) ha
      | _ => rfl
  unfold coreEnabled
  rw [show (s.setNode b).pendW = s.pendW from rfl, hemit]
  rfl

end Sys2Proof.Machine
end

section
/-! PROOFS. LOADC and BUILD read no unused arena entry, and so no step does (spec/10_state.md R42, R43). -/

namespace Sys2Proof.Machine

/-! ### LOADC -/

/-- The same graft in two arenas that agree on the entries in use: they agree on one entry more. -/
theorem Arena.Agree.graft {a b : Arena} {n : Nat} (h : Arena.Agree n a b) (hn : n < Config.nodeCap) {cur : NodeIdx}
    (hcur : cur.val < n) (side : Bool) (x : Node) : Arena.Agree (n + 1) (a.graft cur side n x) (b.graft cur side n x) := by
  unfold Arena.graft
  rw [h cur hcur]
  exact (h.put_next hn x).put cur _

/-- LOADC's walk stays among the entries in use and those it makes (R170). -/
theorem loadWalk_agree (sym : Byte) (c : Bits) {cur : NodeIdx} {a b : Arena} {n : Nat} (ha : Arena.Agree n a b)
    (hc : a.Closed n) (hcur : cur.val < n) :
    (loadWalk sym c cur a n = none ∧ loadWalk sym c cur b n = none) ∨
      ∃ a' b' n', loadWalk sym c cur a n = some (a', n') ∧ loadWalk sym c cur b n = some (b', n') ∧
        Arena.Agree n' a' b' := by
  induction c generalizing cur a b n with
  | nil => exact .inl ⟨rfl, rfl⟩
  | cons side rest ih =>
    have hchild : ∀ ch, (a.at cur).child side = some ch → ch.val < n := hc cur hcur side
    have hgraft : ∀ x, n < Config.nodeCap → Arena.Agree (n + 1) (a.graft cur side n x) (b.graft cur side n x) :=
      fun x hn => ha.graft hn hcur side x
    unfold Arena.graft at hgraft
    have hclosed := fun hn hint => Arena.graft_closed (side := side) (x := .internal 0 none none) hc hn hcur hint
      (fun d => by cases d <;> rfl)
    unfold Arena.graft at hclosed
    unfold loadWalk
    rw [ha cur hcur] at hgraft ⊢
    cases hn : a.at cur with
    | leaf y f => exact .inl ⟨rfl, rfl⟩
    | internal f l r =>
      rw [hn] at hchild hgraft hclosed
      dsimp only
      cases hch : (Node.internal f l r).child side with
      | none =>
        dsimp only
        by_cases hcap : Config.nodeCap ≤ n
        · exact .inl ⟨if_pos hcap, if_pos hcap⟩
        · rw [if_neg hcap, if_neg hcap]
          have hlt := Nat.lt_of_not_le hcap
          cases rest with
          | nil => exact .inr ⟨_, _, _, rfl, rfl, hgraft (.leaf sym 0) hlt⟩
          | cons d rest =>
            exact ih (hgraft (.internal 0 none none) hlt) (hclosed hlt rfl) (by rw [idxOf_val n hlt]; omega)
      | some ch =>
        dsimp only
        rw [ha ch (hchild ch hch)]
        by_cases hstop : (rest.isEmpty || (a.at ch).isLeaf) = true
        · exact .inl ⟨if_pos hstop, if_pos hstop⟩
        · rw [if_neg hstop, if_neg hstop]
          exact ih ha hc (hchild ch hch)

/-- Where LOADC's walk starts does not depend on unused entries. -/
theorem loadRoot_agree {s : State} {b : Arena} (ha : Arena.Agree s.nodeCount.toNat s.node b) :
    (loadRoot s = none ∧ loadRoot (s.setNode b) = none) ∨
      ∃ root a₁ b₁ n, loadRoot s = some (root, a₁, n) ∧ loadRoot (s.setNode b) = some (root, b₁, n) ∧
        Arena.Agree n a₁ b₁ := by
  unfold loadRoot
  rw [show (s.setNode b).rootV = s.rootV from rfl, show (s.setNode b).nodeCount = s.nodeCount from rfl]
  cases s.rootV with
  | true => exact .inr ⟨_, _, _, _, rfl, rfl, ha⟩
  | false =>
    rw [if_neg Bool.false_ne_true, if_neg Bool.false_ne_true]
    by_cases hcap : Config.nodeCap ≤ s.nodeCount.toNat
    · exact .inl ⟨if_pos hcap, if_pos hcap⟩
    · rw [if_neg hcap, if_neg hcap]
      exact .inr ⟨_, _, _, _, rfl, rfl, ha.put_next (Nat.lt_of_not_le hcap) _⟩

theorem loadTree_agree (sym : Byte) (c : Bits) {s : State} {b : Arena} (hs : s.TreeInv) (hts : s.tstate ≠ .built)
    (ha : Arena.Agree s.nodeCount.toNat s.node b) :
    (loadTree sym c s = none ∧ loadTree sym c (s.setNode b) = none) ∨
      ∃ root a' b' n', loadTree sym c s = some (root, a', n') ∧ loadTree sym c (s.setNode b) = some (root, b', n') ∧
        Arena.Agree n' a' b' := by
  unfold loadTree
  rcases loadRoot_agree ha with ⟨h1, h2⟩ | ⟨root, a₁, b₁, n, h1, h2, ha₁⟩
  · rw [h1, h2]
    exact .inl ⟨rfl, rfl⟩
  · have hspan := (loadRoot_spec hs hts h1).1
    rw [h1, h2]
    dsimp only
    rcases loadWalk_agree sym c ha₁ hspan.closed (hspan.rootLt root (List.mem_singleton_self _)) with
      ⟨h3, h4⟩ | ⟨a', b', n', h3, h4, ha'⟩ <;> rw [h3, h4]
    · exact .inl ⟨rfl, rfl⟩
    · exact .inr ⟨_, _, _, _, rfl, rfl, ha'⟩

theorem execLoadc_alike (sym : Byte) (len : BitVec 8) {s : State} {b : Arena} (hs : s.TreeInv)
    (ha : Arena.Agree s.nodeCount.toNat s.node b) : Alike (execLoadc sym len s) (execLoadc sym len (s.setNode b)) := by
  have hraise : ∀ e, Alike (.next (raise e s)) (.next (raise e (s.setNode b))) :=
    fun e => ⟨_, _, rfl, rfl, sameInUse_setNode (s := raise e s) ha⟩
  unfold execLoadc
  rw [show (s.setNode b).tstate = s.tstate from rfl, show (s.setNode b).clenAt sym = s.clenAt sym from rfl]
  by_cases hts : s.tstate = .built
  · rw [if_pos hts, if_pos hts]
    exact hraise .seq
  · rw [if_neg hts, if_neg hts]
    by_cases hop : len = 0 ∨ s.clenAt sym ≠ 0
    · rw [if_pos hop, if_pos hop]
      exact hraise .load
    · rw [if_neg hop, if_neg hop, show loadCode len (s.setNode b) = loadCode len s from rfl]
      rcases loadTree_agree sym (loadCode len s) hs hts ha with ⟨h1, h2⟩ | ⟨root, a', b', n', h1, h2, ha'⟩ <;> rw [h1, h2]
      · exact hraise .load
      · refine ⟨_, _, rfl, rfl, rfl, ha'.mono ?_⟩
        exact (BitVec.toNat_ofNat _ _).trans_le (Nat.mod_le _ _)

/-! ### BUILD -/

theorem writeLeaves_agree_both (freq : Byte → BitVec 32) (syms : List Byte) {n : Nat} {a b : Arena}
    (h : Arena.Agree n a b) (hfit : n + syms.length ≤ Config.nodeCap) :
    Arena.Agree (n + syms.length) (writeLeaves freq syms n a) (writeLeaves freq syms n b) := by
  induction syms generalizing n a b with
  | nil => exact h
  | cons sym rest ih =>
    rw [List.length_cons] at hfit ⊢
    rw [show n + (rest.length + 1) = n + 1 + rest.length by omega]
    exact ih (h.put_next (by omega) _) (by omega)

theorem leafArena_agree (s : State) (b : Arena) :
    Arena.Agree s.liveSyms.length s.leafArena (s.setNode b).leafArena := by
  have h := writeLeaves_agree_both s.freqAt s.liveSyms (n := 0) (a := s.node) (b := b)
    (fun i hi => absurd hi (Nat.not_lt_zero _)) (liveSyms_fit s)
  rwa [Nat.zero_add] at h

theorem minNfreq_congr {a b : Arena} {i : NodeIdx} {q : List NodeIdx} (h : ∀ j ∈ i :: q, b.at j = a.at j) :
    minNfreq b i q = minNfreq a i q := by
  induction q generalizing i with
  | nil => rw [minNfreq, minNfreq, h i List.mem_cons_self]
  | cons j rest ih =>
    rw [minNfreq, minNfreq, h i List.mem_cons_self, ih fun k hk => h k (List.mem_cons_of_mem _ hk)]

theorem lightest_congr {a b : Arena} {q : List NodeIdx} (h : ∀ j ∈ q, b.at j = a.at j) : lightest b q = lightest a q := by
  cases q with
  | nil => rfl
  | cons i rest =>
    rw [lightest, lightest, minNfreq_congr h]
    exact List.filter_congr fun j hj => by rw [h j hj]

/-- `SelectMin` reads the nodes of its collection alone (R161). -/
theorem selectMin_congr (pol : TiePolicy) (draw : Nat) {a b : Arena} {q : List NodeIdx} (h : ∀ j ∈ q, b.at j = a.at j) :
    selectMin pol draw b q = selectMin pol draw a q := by
  rw [selectMin, selectMin, lightest_congr h]

/-- The merge engine with another arena. -/
def Merge.setArena (m : Merge) (b : Arena) : Merge := { m with arena := b }

theorem mergeOnce_agree {pol : TiePolicy} {draw : Nat → Nat} {m : Merge} {b : Arena} (ha : Arena.Agree m.fresh m.arena b)
    (hroots : ∀ r ∈ m.queue, r.val < m.fresh) (hcap : m.fresh < Config.nodeCap) (hq : 1 < m.queue.length) :
    ∃ b', mergeOnce pol draw (m.setArena b) = (mergeOnce pol draw m).setArena b' ∧
      Arena.Agree (mergeOnce pol draw m).fresh (mergeOnce pol draw m).arena b' := by
  have hsame : ∀ j ∈ m.queue, b.at j = m.arena.at j := fun j hj => ha j (hroots j hj)
  have hx := selectMin_congr pol (draw m.draws) hsame
  have hy := selectMin_congr pol (draw (m.draws + 1)) (q := m.queue.erase (selectMin pol (draw m.draws) m.arena m.queue))
    fun j hj => hsame j (List.mem_of_mem_erase hj)
  have hxmem := selectMin_mem pol (draw m.draws) m.arena m.queue (fun e => by simp [e] at hq)
  have hymem := selectMin_mem pol (draw (m.draws + 1)) m.arena
    (m.queue.erase (selectMin pol (draw m.draws) m.arena m.queue)) (fun e => by
      have hlen := List.length_erase_of_mem hxmem
      rw [e, List.length_nil] at hlen
      omega)
  refine ⟨(mergeOnce pol draw (m.setArena b)).arena, ?_, ?_⟩
  · unfold mergeOnce Merge.setArena
    dsimp only
    rw [hx, hy]
  · unfold mergeOnce Merge.setArena
    dsimp only
    rw [hx, hy, hsame _ hxmem, hsame _ (List.mem_of_mem_erase hymem)]
    exact ha.put_next hcap _

theorem mergeLoop_agree {pol : TiePolicy} {draw : Nat → Nat} {leaves : Arena} {k : Nat} (hk : k ≤ 256) (turns : Nat)
    {m : Merge} {b : Arena} (hm : m.Forest leaves k) (ha : Arena.Agree m.fresh m.arena b) :
    ∃ b', mergeLoop pol draw turns (m.setArena b) = (mergeLoop pol draw turns m).setArena b' ∧
      Arena.Agree (mergeLoop pol draw turns m).fresh (mergeLoop pol draw turns m).arena b' := by
  induction turns generalizing m b with
  | zero => exact ⟨b, rfl, ha⟩
  | succ turns ih =>
    unfold mergeLoop
    rw [show (m.setArena b).queue = m.queue from rfl]
    by_cases hq : 1 < m.queue.length
    · rw [if_pos hq, if_pos hq]
      have hcount := hm.count
      obtain ⟨b', e, ha'⟩ := mergeOnce_agree (pol := pol) (draw := draw) ha hm.spans.rootLt (show _ < 511 by omega) hq
      rw [e]
      exact ih (mergeOnce_forest hk hm hq) ha'
    · rw [if_neg hq, if_neg hq]
      exact ⟨b, rfl, ha⟩

/-- The merge engine reads the leaves that BUILD wrote and the nodes it made (R161). -/
theorem merged_agree (draw : Nat → Nat) (s : State) (b : Arena) :
    ∃ b', (s.setNode b).merged draw = (s.merged draw).setArena b' ∧
      Arena.Agree (s.merged draw).fresh (s.merged draw).arena b' :=
  mergeLoop_agree (liveSyms_length_le s) s.liveSyms.length
    (leaves_forest (liveSyms_length_le s) (leafArena_isLeaf s)) (leafArena_agree s b)

/-- The code-table generator reads the nodes below the one it starts from (R162). -/
theorem genCodes_setNode (depth : Nat) {n : Nat} {i : NodeIdx} (p : Bits) {s : State} {b : Arena}
    (hc : Arena.Closed s.node n) (ha : Arena.Agree n s.node b) (hi : i.val < n) :
    genCodes depth i p (s.setNode b) = (genCodes depth i p s).setNode b := by
  induction depth generalizing i p s with
  | zero => rfl
  | succ depth ih =>
    have hat : (s.setNode b).nodeAt i = s.nodeAt i := ha i hi
    cases hn : s.nodeAt i with
    | leaf sym f =>
      rw [genCodes_of_leaf (hat.trans hn), genCodes_of_leaf hn]
      rfl
    | internal f l r =>
      have hchild : ∀ (d : Bool) (q : Bits) (u : State), u.node = s.node →
          genChild depth ((Node.internal f l r).child d) q (u.setNode b) =
            (genChild depth ((Node.internal f l r).child d) q u).setNode b := by
        intro d q u hu
        cases hch : (Node.internal f l r).child d with
        | none => rfl
        | some j =>
          exact ih q (by rwa [hu]) (by rwa [hu]) (hc i hi d j ((congrArg (Node.child · d) hn).trans hch))
      have hleft := hchild false (p ++ [false]) s rfl
      have hright := hchild true (p ++ [true]) _ (genChild_node depth l (p ++ [false]) s)
      rw [genCodes_of_internal (hat.trans hn), genCodes_of_internal hn]
      exact (congrArg (genChild depth r (p ++ [true])) hleft).trans hright

/-- BUILD reads no arena entry that it has not written (R160). -/
theorem buildWith_setNode (draw : Nat → Nat) (s : State) (b : Arena) :
    ∃ b', buildWith draw (s.setNode b) = (buildWith draw s).setNode b' ∧
      Arena.Agree (buildWith draw s).nodeCount.toNat (buildWith draw s).node b' := by
  have hsyms : (s.setNode b).liveSyms = s.liveSyms := rfl
  by_cases h2 : 2 ≤ s.liveSyms.length
  · obtain ⟨b', hm, ha⟩ := merged_agree draw s b
    have htree : (s.setNode b).builtTree draw = (s.builtTree draw).setNode b' := by
      unfold State.builtTree State.builtRoot
      rw [hm]
      rfl
    have hspan := merged_spans (draw := draw) h2
    have hgen := genCodes_setNode Config.nodeCap (s := s.builtTree draw) [] hspan.closed ha
      (hspan.rootLt _ (List.mem_singleton_self _))
    have hgen' : genCodes Config.nodeCap ((s.builtTree draw).setNode b').root [] ((s.builtTree draw).setNode b') = _ := hgen
    refine ⟨b', ?_, ?_⟩
    · rw [buildWith_of_two_le (hsyms ▸ h2), buildWith_of_two_le h2, htree, hgen', hsyms]
      rfl
    · obtain ⟨c, l, e⟩ := buildWith_eq_builtTree (draw := draw) h2
      rw [e]
      exact ha.mono ((BitVec.toNat_ofNat _ _).trans_le (Nat.mod_le _ _))
  · match hs : s.liveSyms with
    | [] =>
      refine ⟨b, ?_, ?_⟩
      · rw [buildWith_of_none (hsyms.trans hs), buildWith_of_none hs]
        rfl
      · rw [buildWith_of_none hs]
        exact fun i hi => absurd hi (Nat.not_lt_zero _)
    | [sym] =>
      refine ⟨(s.setNode b).leafArena, ?_, ?_⟩
      · rw [buildWith_of_one (hsyms.trans hs), buildWith_of_one hs]
        rfl
      · have ha := leafArena_agree s b
        rw [hs] at ha
        rw [buildWith_of_one hs]
        exact ha
    | _ :: _ :: _ => simp [hs] at h2

/-! ### Every step -/

/-- From the tree invariant every command has a next state (R264). -/
theorem exec_next {s : State} (hs : s.TreeInv) (i : Instr) : ∃ t, exec i s = .next t := by
  cases i with
  | nop => exact ⟨_, rfl⟩
  | clear => exact ⟨_, rfl⟩
  | count sym => rcases execCount_cases sym s with ⟨-, e⟩ | ⟨-, -, e⟩ | ⟨-, -, e⟩ <;> exact ⟨_, e⟩
  | build => exact ⟨_, rfl⟩
  | tclr => exact ⟨_, rfl⟩
  | loadc sym len =>
    rcases execLoadc_cases sym len s with ⟨-, e⟩ | ⟨-, -, e⟩ | ⟨-, -, -, root, a, cnt, -, e⟩ <;> exact ⟨_, e⟩
  | enc sym =>
    simp only [exec, execEnc]
    split <;> exact ⟨_, rfl⟩
  | putb len val =>
    simp only [exec, execPutb]
    split <;> exact ⟨_, rfl⟩
  | flush => exact ⟨_, rfl⟩
  | ustart => exact ⟨_, rfl⟩
  | decb byte =>
    rcases execDecb_cases byte s with ⟨-, e⟩ | ⟨-, -, e⟩ | ⟨-, -, u, -, e⟩ | ⟨-, hv, hnone, -⟩
    · exact ⟨_, e⟩
    · exact ⟨_, e⟩
    · exact ⟨_, e⟩
    · have hcur := hs.cursor hv
      obtain ⟨t, ht⟩ := decodeBits_total (byteBits s.upValid byte) (unpackAdvance s) (by
        by_cases hl : (s.nodeAt s.root).isLeaf = true
        · exact .inl hl
        · rw [if_neg hl] at hcur
          exact .inr hcur.1)
      rw [hnone] at ht
      cases ht
  | uraw byte =>
    simp only [exec, execUraw]
    split <;> exact ⟨_, rfl⟩
  | dend => exact ⟨_, rfl⟩

/-- Every command but BUILD and LOADC does the same with another arena, DECB because it walks among the entries in use. -/
theorem exec_setNode {i : Instr} {s : State} {b : Arena} (hs : s.TreeInv) (ha : Arena.Agree s.nodeCount.toNat s.node b)
    (hbuild : i ≠ .build) (hloadc : ∀ sym len, i ≠ .loadc sym len) : exec i (s.setNode b) = withNode b (exec i s) := by
  cases i with
  | nop => rfl
  | clear => rfl
  | count sym => exact execCount_setNode sym s b
  | build => exact absurd rfl hbuild
  | tclr => rfl
  | loadc sym len => exact absurd rfl (hloadc sym len)
  | enc sym => exact execEnc_setNode sym s b
  | putb len val => exact execPutb_setNode len val s b
  | flush => exact execFlush_setNode s b
  | ustart => rfl
  | decb byte => exact execDecb_setNode byte hs ha
  | uraw byte => exact execUraw_setNode byte s b
  | dend => exact execDend_setNode s b

/-- No command reads an unused arena entry: BUILD and LOADC read what they wrote and what is in use, TCLR and CLEAR leave no entry
in use, and the others leave the tree alone. -/
theorem exec_alike (i : Instr) {s : State} {b : Arena} (hs : s.TreeInv) (ha : Arena.Agree s.nodeCount.toNat s.node b) :
    Alike (exec i s) (exec i (s.setNode b)) := by
  have hnone : ∀ {u : State}, u.nodeCount = 0 → Arena.Agree u.nodeCount.toNat u.node b := by
    intro u hu i hi
    rw [hu] at hi
    exact absurd hi (Nat.not_lt_zero _)
  obtain ⟨t, ht⟩ := exec_next hs i
  obtain ⟨-, -, -, -, htree, -⟩ := commandsWriteOnlyTheirUnits i s t ht
  have hsame := exec_setNode (i := i) hs ha
  rw [ht] at hsame
  cases i with
  | clear => exact ⟨_, _, rfl, rfl, rfl, hnone rfl⟩
  | tclr => exact ⟨_, _, rfl, rfl, rfl, hnone rfl⟩
  | build =>
    obtain ⟨b', e, ha'⟩ := buildWith_setNode Config.tieDraw s b
    exact ⟨_, _, rfl, congrArg Host.Outcome.next e, sameInUse_setNode ha'⟩
  | loadc sym len => exact execLoadc_alike sym len hs ha
  | _ =>
    obtain ⟨hnode, hcnt, -⟩ := htree (by simp) (by simp) (by simp) (by simp)
    exact ⟨t, t.setNode b, ht, hsame (by simp) (by simp), sameInUse_setNode (by rwa [hnode, hcnt])⟩

theorem coreStep_alike {s : State} {b : Arena} (hs : s.TreeInv) (ha : Arena.Agree s.nodeCount.toNat s.node b) :
    Alike (coreStep s) (coreStep (s.setNode b)) := by
  unfold coreStep
  rw [coreEnabled_setNode hs ha]
  by_cases hen : coreEnabled s = true
  · rw [if_pos hen, if_pos hen]
    unfold executeWord
    rw [show (s.setNode b).pendW = s.pendW from rfl]
    cases decode s.pendW with
    | ok i => exact (exec_alike i hs ha).retireOutcome
    | error e => exact ⟨_, _, rfl, rfl, sameInUse_setNode (s := retire (raise .illegal s)) ha⟩
  · rw [if_neg hen, if_neg hen]
    exact ⟨_, _, rfl, rfl, sameInUse_setNode ha⟩

theorem hostStep_agree {s : State} {b : Arena} (ha : Arena.Agree s.nodeCount.toNat s.node b) :
    Arena.Agree (hostStep s).nodeCount.toNat (hostStep s).node b := by
  obtain ⟨u, hu⟩ := hostStep_frame s
  rw [hu]
  exact ha

theorem stepTurn_alike (turn : Turn) {s : State} {b : Arena} (hs : s.TreeInv)
    (ha : Arena.Agree s.nodeCount.toNat s.node b) : Alike (stepTurn turn s) (stepTurn turn (s.setNode b)) := by
  cases turn with
  | host => exact ⟨_, _, rfl, congrArg Host.Outcome.next (hostStep_setNode s b), sameInUse_setNode (hostStep_agree ha)⟩
  | core => exact coreStep_alike hs ha
  | reset => exact ⟨_, _, rfl, rfl, rfl, fun _ _ => rfl⟩

/-- Settles O60, turn by turn. -/
theorem unusedArenaEntriesAreNeverRead : Obligations.UnusedArenaEntriesAreNeverRead := by
  unfold Obligations.UnusedArenaEntriesAreNeverRead
  intro s t hs hst
  obtain ⟨b, rfl, ha⟩ := sameInUse_iff.mp hst
  change Alike (step s) (step (s.setNode b))
  unfold step
  rw [show (s.setNode b).sched = s.sched from rfl]
  cases s.sched with
  | nil =>
    dsimp only
    rw [show defaultTurn (s.setNode b) = defaultTurn s by rw [defaultTurn, defaultTurn, coreEnabled_setNode hs ha]]
    exact stepTurn_alike _ hs ha
  | cons turn rest =>
    have hs' : State.TreeInv { s with sched := rest } := hs.congr ⟨rfl, rfl, rfl, rfl, rfl, rfl, rfl, rfl⟩ rfl
    exact stepTurn_alike turn hs' ha

end Sys2Proof.Machine
end

section
/-! PROOFS. The host register port: its map (spec/20_memory.md R82, R83), its writes (R84 to R86), and what its registers show
(R87, R89). -/

namespace Sys2Proof.Machine

/-! ### The map -/

/-- The register at a register's index is that register: each single index by computation, the eight of CODE_BITS and of LD_BITS
by their number. -/
@[simp] theorem regAt_idx (r : PortReg) : regAt r.idx = some r := by
  cases r with
  | codeBits j | ldBits j => revert j; decide
  | _ => rfl

theorem regAt_eq_none_iff (idx : RegIdx) : regAt idx = none ↔ idx.toNat = 23 ∨ 40 ≤ idx.toNat := by
  revert idx
  decide

/-- A register is found at its own index alone. -/
theorem idx_of_regAt {idx : RegIdx} {r : PortReg} (h : regAt idx = some r) : r.idx = idx := by
  have hmap : ∀ idx : RegIdx, ∀ r ∈ regAt idx, r.idx = idx := by decide
  exact hmap idx r h

/-- Every index is reserved or the index of a register. -/
theorem reserved_or_idx (idx : RegIdx) : regAt idx = none ∨ ∃ r : PortReg, idx = r.idx := by
  cases h : regAt idx with
  | none => exact .inl rfl
  | some r => exact .inr ⟨r, (idx_of_regAt h).symm⟩

@[simp] theorem portRead_idx (r : PortReg) (s : State) : portRead r.idx s = (readReg r s, readEffect r s) := by
  rw [portRead, regAt_idx]

@[simp] theorem portWrite_idx (r : PortReg) (v : Word) (s : State) : portWrite r.idx v s = writeReg r v s := by
  rw [portWrite, regAt_idx]

theorem portRead_reserved {idx : RegIdx} (h : regAt idx = none) (s : State) : portRead idx s = (0, s) := by
  rw [portRead, h]

theorem portWrite_reserved {idx : RegIdx} (h : regAt idx = none) (v : Word) (s : State) : portWrite idx v s = s := by
  rw [portWrite, h]

/-- Settles O10: the rows by computation, and an access goes through the register at the index. -/
theorem registerMapIsExact : Obligations.RegisterMapIsExact := by
  unfold Obligations.RegisterMapIsExact
  refine ⟨rfl, rfl, rfl, rfl, rfl, rfl, rfl, rfl, rfl, rfl, rfl, rfl, rfl, rfl, rfl, rfl, rfl, rfl, rfl, rfl, rfl, rfl, rfl,
    fun j => regAt_idx (.codeBits j), fun j => regAt_idx (.ldBits j), regAt_eq_none_iff, regAt_idx, fun idx r h => ?_⟩
  obtain rfl := idx_of_regAt h
  exact ⟨rfl, fun v s => ⟨congrArg Prod.fst (portRead_idx r s), portWrite_idx r v s⟩⟩

/-! ### The halves of a 64-bit element -/

theorem loHalf_toNat (v : BitVec 64) : (loHalf v).toNat = v.toNat % 2 ^ 32 := by
  rw [loHalf, BitVec.extractLsb'_toNat, Nat.shiftRight_zero]

theorem hiHalf_toNat (v : BitVec 64) : (hiHalf v).toNat = v.toNat / 2 ^ 32 := by
  have := v.isLt
  rw [hiHalf, BitVec.extractLsb'_toNat, Nat.shiftRight_eq_div_pow]
  omega

/-- The left part of a concatenation stands above the right one. -/
theorem append_toNat {m n : Nat} (hi : BitVec m) (lo : BitVec n) : (hi ++ lo).toNat = hi.toNat * 2 ^ n + lo.toNat := by
  rw [BitVec.toNat_append, ← Nat.shiftLeft_add_eq_or_of_lt lo.isLt, Nat.shiftLeft_eq]

@[simp] theorem loHalf_append (hi lo : Word) : loHalf (hi ++ lo) = lo := BitVec.extractLsb'_append_eq_right

@[simp] theorem hiHalf_append (hi lo : Word) : hiHalf (hi ++ lo) = hi := BitVec.extractLsb'_append_eq_left

/-! ### Writes -/

theorem writeCmd_idle {s : State} (h : s.pendV = false) (v : Word) :
    writeCmd v s = { s with pendV := true, pendW := v } := by
  simp [writeCmd, h]

theorem writeCmd_busy {s : State} (h : s.pendV = true) (v : Word) :
    writeCmd v s = { s with err := s.err ||| 0x002#12 } := by
  simp [writeCmd, h, raise_overrun]

/-- Settles O7: `writeCmd` where no command is pending and where one is. -/
theorem cmdWriteLatchesOrOverruns : Obligations.CmdWriteLatchesOrOverruns := by
  unfold Obligations.CmdWriteLatchesOrOverruns
  intro v s
  rw [portWrite_idx]
  exact ⟨fun h => writeCmd_idle h v, fun h => writeCmd_busy h v⟩

theorem writeCmd_pendV (v : Word) (s : State) : (writeCmd v s).pendV = true := by
  cases hp : s.pendV with
  | false => rw [writeCmd_idle hp]
  | true => rw [writeCmd_busy hp, hp]

/-- A CMD write raises at most OVERRUN. -/
theorem writeCmd_err_or (v : Word) (s : State) : (writeCmd v s).err ||| 0x002#12 = s.err ||| 0x002#12 := by
  cases hp : s.pendV with
  | false => rw [writeCmd_idle hp]
  | true => rw [writeCmd_busy hp, BitVec.or_assoc, BitVec.or_self]

/-- A second CMD write finds a command pending, whatever the first one found (R85, R86). -/
theorem writeCmd_twice (v : Word) (s : State) :
    writeCmd v (writeCmd v s) = { writeCmd v s with err := s.err ||| 0x002#12 } := by
  rw [writeCmd_busy (writeCmd_pendV v s), writeCmd_err_or]

/-- Bits that are cleared stay cleared when they are cleared again. -/
theorem clearErrors_twice (v : Word) (s : State) : clearErrors v (clearErrors v s) = clearErrors v s := by
  simp only [clearErrors, BitVec.and_assoc, BitVec.and_self]

/-- R86: a write that is no command may be repeated: it clears the same bits, stores the same value, or does nothing. -/
theorem writeReg_twice {r : PortReg} (hr : r ≠ .cmd) (v : Word) (s : State) :
    writeReg r v (writeReg r v s) = writeReg r v s := by
  cases r with
  | cmd => exact absurd rfl hr
  | err => exact clearErrors_twice v s
  | upLimitLo => simp only [writeReg, hiHalf_append]
  | upLimitHi => simp only [writeReg, loHalf_append]
  | ldBits j => simp only [writeReg, Vector.set_set]
  | _ => rfl

/-- Settles O5: the effect of a read from `portRead_snd`, of a repeated write register by register. -/
theorem portSideEffectsAreOutDataAndCmd : Obligations.PortSideEffectsAreOutDataAndCmd := by
  unfold Obligations.PortSideEffectsAreOutDataAndCmd
  intro idx v s
  refine ⟨fun hne => ?_, fun hne => ?_, ?_⟩
  · rw [portRead_snd, if_neg hne]
  · rcases reserved_or_idx idx with h | ⟨r, rfl⟩
    · simp only [portWrite_reserved h]
    · have hr : r ≠ .cmd := fun h => hne (congrArg PortReg.idx h)
      simp only [portWrite_idx, writeReg_twice hr]
  · simp only [portWrite_idx]
    exact writeCmd_twice v s

/-- R84: below LD_BITS the registers that a write can reach are ERR, CMD, UP_LIMIT's halves and SEL. -/
theorem writeReg_readOnly {r : PortReg} (hlt : r.idx.toNat < 32) (hro : r.idx.toNat ∉ [2, 3, 10, 11, 16]) (v : Word)
    (s : State) : writeReg r v s = s := by
  cases r with
  | err | cmd | upLimitLo | upLimitHi | sel => exact absurd (by decide) hro
  | ldBits j =>
    have hidx : ∀ j : Fin 8, 32 ≤ (PortReg.ldBits j).idx.toNat := by decide
    exact absurd hlt (Nat.not_lt.mpr (hidx j))
  | _ => rfl

theorem portWrite_readOnly {idx : RegIdx} (hlt : idx.toNat < 32) (hro : idx.toNat ∉ [2, 3, 10, 11, 16]) (v : Word)
    (s : State) : portWrite idx v s = s := by
  rcases reserved_or_idx idx with h | ⟨r, rfl⟩
  · exact portWrite_reserved h v s
  · rw [portWrite_idx, writeReg_readOnly hlt hro]

/-- A load buffer word is replaced at its own index alone. -/
theorem ldBits_set (ld : Vector Word 8) (v : Word) (i j : Fin 8) :
    (ld.set j.val v)[i] = if i = j then v else ld[i] := by
  simp only [Fin.getElem_fin, Vector.getElem_set, Fin.ext_iff, eq_comm]

/-- Settles O6, clause by clause. -/
theorem portWritesRespectAccessTypes : Obligations.PortWritesRespectAccessTypes := by
  unfold Obligations.PortWritesRespectAccessTypes
  intro s v
  have hlow : v.extractLsb' 0 12 = v.setWidth 12 := (BitVec.setWidth_eq_extractLsb' (by decide)).symm
  have hsel : v.extractLsb' 0 8 = v.setWidth 8 := (BitVec.setWidth_eq_extractLsb' (by decide)).symm
  simp only [portWrite_idx, portRead_idx, hlow, hsel]
  refine ⟨fun idx h => ?reserved, fun idx hlt hro => portWrite_readOnly hlt hro v s, rfl, rfl, rfl, ⟨_, rfl, rfl, ?lo⟩,
    ⟨_, rfl, rfl, ?hi⟩, fun j => ⟨_, rfl, rfl, fun i => ?ld⟩⟩
  case reserved =>
    have hnone : regAt idx = none := (regAt_eq_none_iff idx).mpr h
    exact ⟨portRead_reserved hnone s, portWrite_reserved hnone v s⟩
  case lo =>
    refine ⟨?_, loHalf_append _ _, hiHalf_append _ _⟩
    rw [← hiHalf_toNat]
    exact append_toNat _ _
  case hi =>
    refine ⟨?_, hiHalf_append _ _, loHalf_append _ _⟩
    rw [← loHalf_toNat]
    exact append_toNat _ _
  case ld => exact ⟨ldBits_set s.ldBits v i j, ldBits_set s.ldBits v i j⟩

/-! ### The readout registers -/

/-- Bit `31 − n` of CODE_BITSj is bit `32j + n` of the code, and 0 at or past the length (R87). -/
theorem codeWord_getLsbD (c : Bits) (len j : Nat) {n : Nat} (hn : n < 32) :
    (codeWord c len j).getLsbD (31 - n) = if 32 * j + n < len then c.getD (32 * j + n) false else false := by
  rw [codeWord, wordOfBits_getLsbD _ _ hn]
  by_cases h : 32 * j + n < len <;> simp [h]

/-- UP_RAW shows the number of valid bits above the byte (R87). -/
theorem upRaw_toNat (s : State) : (readReg .upRaw s).toNat = 256 * s.upRawN.toNat + s.upRawB.toNat := by
  rw [readReg, BitVec.toNat_setWidth_of_le (by decide), append_toNat, Nat.mul_comm]
  rfl

/-- Settles O8: each register that shows an element as it is by its width, and CODE_BITS by `codeWord_getLsbD`. -/
theorem readoutsShowTheSelectedSymbol : Obligations.ReadoutsShowTheSelectedSymbol := by
  unfold Obligations.ReadoutsShowTheSelectedSymbol
  intro s
  exact ⟨⟨rfl, BitVec.toNat_setWidth_of_le (by decide), fun j n hn => codeWord_getLsbD _ _ _ hn,
      BitVec.toNat_setWidth_of_le (by decide), BitVec.toNat_setWidth_of_le (by decide), upRaw_toNat s,
      BitVec.toNat_setWidth_of_le (by decide)⟩,
    rfl, BitVec.toNat_setWidth_of_le (by decide), BitVec.toNat_setWidth_of_le (by decide), fun _ => rfl, loHalf_toNat _, hiHalf_toNat _, loHalf_toNat _,
    hiHalf_toNat _, loHalf_toNat _, hiHalf_toNat _, loHalf_toNat _, hiHalf_toNat _, loHalf_toNat _, hiHalf_toNat _⟩

end Sys2Proof.Machine
end

section
/-! PROOFS. The command words (spec/30_encoding.md R110 to R117): decoding undoes encoding and the other way round, and which words
are no commands. -/

namespace Sys2Proof

open Laws.ReservedZero (word_ext opcodeField_wordS opcodeField_wordP opcodeField_wordL wordS_reserved wordP_reserved
  wordL_reserved)

/-! ### What decoding answers -/

/-- A word decodes to what its opcode's row makes of it, when the bits that the row's format reserves are 0 (R112). -/
theorem decode_eq_ok_iff {w : Word} {i : Instr} :
    decode w = .ok i ↔
      ∃ fmt make, opcodeRow (opcodeField w).toNat = some (fmt, make) ∧ w &&& fmt.reservedMask = 0#32 ∧ make w = i := by
  unfold decode
  cases opcodeRow (opcodeField w).toNat with
  | none => simp
  | some row => by_cases h : w &&& row.1.reservedMask = 0#32 <;> simp [Prod.ext_iff, h]

/-- A word is no command when its opcode has no row, or when a bit that the row's format reserves is set (R112). -/
theorem decode_error_iff {w : Word} :
    (∃ e, decode w = .error e) ↔ opcodeRow (opcodeField w).toNat = none ∨
      ∃ fmt make, opcodeRow (opcodeField w).toNat = some (fmt, make) ∧ w &&& fmt.reservedMask ≠ 0#32 := by
  unfold decode
  cases opcodeRow (opcodeField w).toNat with
  | none => simp
  | some row => by_cases h : w &&& row.1.reservedMask = 0#32 <;> simp [Prod.ext_iff, h]

/-! ### From a command to its word and back -/

@[simp] theorem byteField_wordS (opc sym : Byte) : byteField (wordS opc sym) = sym := by
  apply BitVec.eq_of_getLsbD_eq
  intro j hj
  interval_cases j <;> simp [byteField, wordS]

@[simp] theorem bitsLenField_wordP (opc : Byte) (len : BitVec 5) (val : BitVec 16) :
    bitsLenField (wordP opc len val) = len := by
  apply BitVec.eq_of_getLsbD_eq
  intro j hj
  interval_cases j <;> simp [bitsLenField, wordP]

@[simp] theorem bitsValField_wordP (opc : Byte) (len : BitVec 5) (val : BitVec 16) :
    bitsValField (wordP opc len val) = val := by
  apply BitVec.eq_of_getLsbD_eq
  intro j hj
  interval_cases j <;> simp [bitsValField, wordP]

@[simp] theorem loadLenField_wordL (opc : Byte) (len sym : BitVec 8) : loadLenField (wordL opc len sym) = len := by
  apply BitVec.eq_of_getLsbD_eq
  intro j hj
  interval_cases j <;> simp [loadLenField, wordL]

@[simp] theorem byteField_wordL (opc : Byte) (len sym : BitVec 8) : byteField (wordL opc len sym) = sym := by
  apply BitVec.eq_of_getLsbD_eq
  intro j hj
  interval_cases j <;> simp [byteField, wordL]

/-- No operand bit is dropped: by computation where there is none, else by the fields of the format's word. -/
theorem decode_encode (i : Instr) : decode (encode i) = .ok i := by
  cases i with
  | count | enc | decb | uraw =>
    exact decode_eq_ok_iff.mpr
      ⟨.s, _, by rw [encode, opcodeField_wordS]; rfl, wordS_reserved _ _, by simp only [encode, byteField_wordS]⟩
  | putb len val =>
    exact decode_eq_ok_iff.mpr
      ⟨.p, _, by rw [encode, opcodeField_wordP]; rfl, wordP_reserved _ _ _,
        by simp only [encode, bitsLenField_wordP, bitsValField_wordP]⟩
  | loadc sym len =>
    exact decode_eq_ok_iff.mpr
      ⟨.l, _, by rw [encode, opcodeField_wordL]; rfl, wordL_reserved _ _ _,
        by simp only [encode, byteField_wordL, loadLenField_wordL]⟩
  | _ => rfl

/-! ### From a word to its command and back -/

/-- The word of a format with the given opcode and the operand fields of `w`. -/
def Format.refill (fmt : Format) (opc : Byte) (w : Word) : Word :=
  match fmt with
  | .n => wordN opc
  | .s => wordS opc (byteField w)
  | .p => wordP opc (bitsLenField w) (bitsValField w)
  | .l => wordL opc (loadLenField w) (byteField w)

/-- Row by row, the command that the opcode map makes of a word has that opcode's word with the same operand fields. -/
theorem encode_of_row {opc : Nat} {fmt : Format} {make : Word → Instr} (h : opcodeRow opc = some (fmt, make)) (w : Word) :
    encode (make w) = fmt.refill (BitVec.ofNat 8 opc) w := by
  unfold opcodeRow at h
  split at h <;> cases h <;> rfl

/-- A word is its opcode and operand fields, once its reserved bits are 0 (R111). -/
theorem Format.refill_self {fmt : Format} {w : Word} (h : w &&& fmt.reservedMask = 0#32) :
    fmt.refill (opcodeField w) w = w := by
  have hbit : ∀ j, (w.getLsbD j && fmt.reservedMask.getLsbD j) = false := fun j => by
    rw [← BitVec.getLsbD_and, h, BitVec.getLsbD_zero]
  apply word_ext
  intro j hj
  specialize hbit j
  cases fmt with
  | n => interval_cases j <;> simp_all [refill, wordN, opcodeField, reservedMask]
  | s => interval_cases j <;> simp_all [refill, wordS, opcodeField, byteField, reservedMask]
  | p => interval_cases j <;> simp_all [refill, wordP, opcodeField, bitsLenField, bitsValField, reservedMask]
  | l => interval_cases j <;> simp_all [refill, wordL, opcodeField, loadLenField, byteField, reservedMask]

/-- No other word decodes to a command. -/
theorem encode_of_decode {w : Word} {i : Instr} (h : decode w = .ok i) : encode i = w := by
  obtain ⟨fmt, make, hrow, hres, rfl⟩ := decode_eq_ok_iff.mp h
  rw [encode_of_row hrow, BitVec.ofNat_toNat, BitVec.setWidth_eq, Format.refill_self hres]

/-- Settles O12, from `encode_of_decode` and `decode_encode`. -/
theorem decodeAndEncodeAgree : Obligations.DecodeAndEncodeAgree := by
  unfold Obligations.DecodeAndEncodeAgree
  intro w i
  refine ⟨encode_of_decode, ?_⟩
  rintro rfl
  exact decode_encode i

/-- Settles O14: each word written out is the word of its command. -/
theorem writtenWordsDecode : Obligations.WrittenWordsDecode := by
  unfold Obligations.WrittenWordsDecode
  exact ⟨decode_encode .nop, decode_encode (.count 0x41), decode_encode (.loadc 0x42 3), decode_encode (.enc 0xFF),
    decode_encode (.putb 4 0b1010), decode_encode (.decb 0x10), decode_encode .dend⟩

/-! ### The words that are no commands -/

/-- The opcodes whose words have the format (R114). -/
def Format.opcodes : Format → List Nat
  | .n => [0x00, 0x01, 0x03, 0x04, 0x08, 0x09, 0x0C]
  | .s => [0x02, 0x06, 0x0A, 0x0B]
  | .p => [0x07]
  | .l => [0x05]

/-- The opcode map has rows up to 0x0C. -/
theorem opcodeRow_eq_none_iff {opc : Nat} : opcodeRow opc = none ↔ 0x0C < opc := by
  constructor
  · contrapose!
    intro h
    interval_cases opc <;> exact Option.some_ne_none _
  · intro h
    unfold opcodeRow
    split
    case h_14 => rfl
    all_goals exact absurd h (by decide)

/-- The opcode map gives a format to the opcodes of that format. -/
theorem opcodeRow_format_iff {opc : Nat} {fmt : Format} :
    (∃ make, opcodeRow opc = some (fmt, make)) ↔ opc ∈ fmt.opcodes := by
  constructor
  · rintro ⟨make, h⟩
    unfold opcodeRow at h
    split at h <;> cases h <;> decide
  · intro h
    cases fmt <;> fin_cases h <;> exact ⟨_, rfl⟩

theorem opcodeField_toNat (w : Word) : (opcodeField w).toNat = (w >>> 24).toNat := by
  have := w.isLt
  rw [opcodeField, BitVec.extractLsb'_toNat, BitVec.toNat_ushiftRight, Nat.shiftRight_eq_div_pow]
  omega

/-- Settles O13: no row of the opcode map, or a reserved bit of one of the four formats. -/
theorem illegalWordsAreExactlyReserved : Obligations.IllegalWordsAreExactlyReserved := by
  unfold Obligations.IllegalWordsAreExactlyReserved
  intro w
  have hformat : (∃ e, decode w = .error e) ↔
      0x0C < (w >>> 24).toNat ∨ ∃ fmt : Format, (w >>> 24).toNat ∈ fmt.opcodes ∧ w &&& fmt.reservedMask ≠ 0#32 := by
    simp only [decode_error_iff, opcodeField_toNat, opcodeRow_eq_none_iff, ← opcodeRow_format_iff, exists_and_right]
  rw [hformat]
  refine or_congr_right ⟨?_, ?_⟩
  · rintro ⟨fmt, hopc, hres⟩
    cases fmt with
    | n => exact .inl ⟨hopc, hres⟩
    | s => exact .inr (.inl ⟨hopc, hres⟩)
    | p => exact .inr (.inr (.inl ⟨List.mem_singleton.mp hopc, hres⟩))
    | l => exact .inr (.inr (.inr ⟨List.mem_singleton.mp hopc, hres⟩))
  · rintro (⟨hopc, hres⟩ | ⟨hopc, hres⟩ | ⟨hopc, hres⟩ | ⟨hopc, hres⟩)
    · exact ⟨.n, hopc, hres⟩
    · exact ⟨.s, hopc, hres⟩
    · exact ⟨.p, List.mem_singleton.mpr hopc, hres⟩
    · exact ⟨.l, List.mem_singleton.mpr hopc, hres⟩

end Sys2Proof

namespace Sys2Proof.Machine

/-! ### The core's turn on such a word -/

theorem emitWord_of_illegal {w : Word} {e : DecodeError} (h : decode w = .error e) (s : State) : emitWord w s = 0 := by
  rw [emitWord, h]

theorem executeWord_of_illegal {w : Word} {e : DecodeError} (h : decode w = .error e) (s : State) :
    executeWord w s = .next (retire (raise .illegal s)) := by
  rw [executeWord, h]

/-- A pending word that is no command pushes nothing, so that the FIFO never holds it back (R262). -/
theorem coreEnabled_of_illegal {s : State} {e : DecodeError} (hv : s.pendV = true) (h : decode s.pendW = .error e) :
    coreEnabled s = true := by
  simp [coreEnabled, hv, emitWord_of_illegal h]

/-- Settles O15: the core is enabled, and the word raises ILLEGAL and retires. -/
theorem illegalWordRaisesIllegalOnly : Obligations.IllegalWordRaisesIllegalOnly := by
  unfold Obligations.IllegalWordRaisesIllegalOnly
  intro s turns e hv hdec
  have hen : coreEnabled { s with sched := turns } = true := coreEnabled_of_illegal hv hdec
  calc step { s with sched := .core :: turns }
      = coreStep { s with sched := turns } := rfl
    _ = executeWord s.pendW { s with sched := turns } := by rw [coreStep, if_pos hen]
    _ = .next (retire (raise .illegal { s with sched := turns })) := executeWord_of_illegal hdec _
    _ = _ := rfl

/-! ### The host's turn -/

/-- No register shows the host's own side. -/
theorem readReg_setHost (r : PortReg) (s : State) (p : List HostStmt) (turns : List Turn) :
    readReg r { s with hostProg := p, sched := turns } = readReg r s := by
  cases r <;> rfl

/-- A read and its effect leave the host's own side alone. -/
theorem portRead_setHost (idx : RegIdx) (s : State) (p : List HostStmt) (turns : List Turn) :
    portRead idx { s with hostProg := p, sched := turns } =
      ((portRead idx s).1, { (portRead idx s).2 with hostProg := p, sched := turns }) := by
  rcases reserved_or_idx idx with h | ⟨r, rfl⟩
  · simp only [portRead_reserved h]
  · simp only [portRead_idx, readReg_setHost, readEffect]
    split <;> rfl

/-- A recorded read of any index, for a host with program `p`. -/
theorem hostReadIdx_setHost (idx : RegIdx) (s : State) (p : List HostStmt) (turns : List Turn) :
    hostReadIdx idx { s with hostProg := p, sched := turns } =
      { (portRead idx s).2 with
        hostProg := p, sched := turns, trace := s.trace ++ [⟨idx, (portRead idx s).1⟩] } := by
  rw [hostReadIdx, portRead_setHost]

theorem hostStep_poll {s : State} {p : List HostStmt} (h : s.hostProg = .poll :: p) :
    hostStep s = hostReadIdx PortReg.status.idx { s with hostProg := if s.pendV then .poll :: p else p } := by
  have hbusy : (readReg .status s).getLsbD 0 = s.pendV := status_busy s
  rw [hostStep, h]
  simp only [hbusy]
  by_cases hv : s.pendV = true
  · simp only [if_pos hv, ← h]
    rfl
  · simp only [if_neg hv]
    rfl

theorem hostStep_drain {s : State} {p : List HostStmt} (h : s.hostProg = .drain :: p) :
    hostStep s = hostReadIdx PortReg.outData.idx { s with hostProg := if s.outq = [] then p else .drain :: p } := by
  rw [hostStep, h]
  by_cases hq : s.outq = []
  · simp only [if_neg (fun hvalid => (outData_valid s).mp hvalid hq), if_pos hq]
    rfl
  · simp only [if_pos ((outData_valid s).mpr hq), if_neg hq, ← h]
    rfl

/-- Settles O11, statement by statement. -/
theorem hostTurnPerformsOneAccess : Obligations.HostTurnPerformsOneAccess := by
  unfold Obligations.HostTurnPerformsOneAccess
  intro s p turns
  have hturn : ∀ q, step { s with hostProg := q, sched := .host :: turns } =
      .next (hostStep { s with hostProg := q, sched := turns }) := fun _ => rfl
  simp only [hturn]
  refine ⟨fun idx v => rfl, fun idx => congrArg Host.Outcome.next (hostReadIdx_setHost idx s p turns), ?poll, ?drain, rfl⟩
  case poll =>
    rw [hostStep_poll rfl]
    exact congrArg Host.Outcome.next (hostReadIdx_setHost PortReg.status.idx s _ turns)
  case drain =>
    rw [hostStep_drain rfl]
    exact congrArg Host.Outcome.next (hostReadIdx_setHost PortReg.outData.idx s _ turns)

end Sys2Proof.Machine
end

section
/-! PROOFS. The control commands NOP and CLEAR (spec/40_control.md), and the core's turn on a command that pushes nothing
(spec/60_exceptions.md R262, R263). -/

namespace Sys2Proof.Machine

/-! ### The core's turn on a command -/

theorem emitWord_of_command {w : Word} {i : Instr} (h : decode w = .ok i) (s : State) : emitWord w s = emit i s := by
  rw [emitWord, h]

theorem executeWord_of_command {w : Word} {i : Instr} (h : decode w = .ok i) (s : State) :
    executeWord w s = retireOutcome (exec i s) := by
  rw [executeWord, h]

/-- A pending word that pushes nothing is never held back, however full the FIFO is (R262). -/
theorem coreEnabled_of_emitWord_eq_zero {s : State} (hv : s.pendV = true) (h : emitWord s.pendW s = 0) :
    coreEnabled s = true := by
  simp [coreEnabled, hv, h]

theorem coreStep_of_emit_eq_zero {s : State} {i : Instr} (hv : s.pendV = true) (hdec : decode s.pendW = .ok i)
    (hemit : emit i s = 0) : coreStep s = retireOutcome (exec i s) := by
  have hen : coreEnabled s = true := coreEnabled_of_emitWord_eq_zero hv ((emitWord_of_command hdec s).trans hemit)
  rw [coreStep, if_pos hen, executeWord_of_command hdec]

/-! ### NOP -/

/-- Settles O18: NOP answers its own state and counts no byte. -/
theorem nopChangesNothing : Obligations.NopChangesNothing := by
  unfold Obligations.NopChangesNothing
  exact fun s => ⟨rfl, rfl⟩

/-! ### CLEAR -/

/-- The state after CLEAR (R141, R291): reset, but for the operand registers, the arena's entries, PEND_V, and what is not the
core's. -/
def cleared (s : State) : State :=
  { State.resetWith s.params with
    node := s.node, sel := s.sel, upLimit := s.upLimit, ldBits := s.ldBits, pendV := s.pendV,
    draws := s.draws, hostProg := s.hostProg, trace := s.trace, sched := s.sched }

/-- TCLR's part and CLEAR's own writes make up the reset state between them. -/
theorem exec_clear (s : State) : exec .clear s = .next (cleared s) := rfl

/-- Settles O19: CLEAR pushes nothing, so that its turn is enabled, and the turn retires what `exec_clear` answers. -/
theorem clearReturnsToResetValues : Obligations.ClearReturnsToResetValues := by
  unfold Obligations.ClearReturnsToResetValues
  intro s
  refine ⟨cleared s, exec_clear s, rfl, rfl, rfl, rfl, fun turns hv hdec => ?_⟩
  calc step { s with sched := .core :: turns }
      = coreStep { s with sched := turns } := rfl
    _ = retireOutcome (exec .clear { s with sched := turns }) := coreStep_of_emit_eq_zero hv hdec rfl
    _ = .next (retire (cleared { s with sched := turns })) := by rw [exec_clear, retireOutcome]
    _ = .next { cleared s with pendV := false, sched := turns } := rfl

end Sys2Proof.Machine
end

section
/-! PROOFS. COUNT and the counters (spec/41_frequency.md R150, R151): what COUNT answers, that COUNTs commute, and how a step of the
machine may move the counters. -/

namespace Sys2Proof.Machine

/-! ### What COUNT answers -/

/-- The state after COUNT (R150), which always answers one; the symbol comes last, so that a run of COUNTs is a `foldl`. -/
def counted (s : State) (sym : Byte) : State :=
  if s.tstate ≠ .empty then raise .seq s
  else if s.freqAt sym = 0xFFFFFFFF#32 then raise .freqOvf s
  else s.setFreq sym (s.freqAt sym + 1)

theorem counted_of_tree {s : State} (h : s.tstate ≠ .empty) (sym : Byte) : counted s sym = raise .seq s := by
  rw [counted, if_pos h]

theorem counted_of_saturated {s : State} (h : s.tstate = .empty) {sym : Byte} (hmax : s.freqAt sym = 0xFFFFFFFF#32) :
    counted s sym = raise .freqOvf s := by
  rw [counted, if_neg (not_not_intro h), if_pos hmax]

theorem counted_of_room {s : State} (h : s.tstate = .empty) {sym : Byte} (hmax : s.freqAt sym ≠ 0xFFFFFFFF#32) :
    counted s sym = s.setFreq sym (s.freqAt sym + 1) := by
  rw [counted, if_neg (not_not_intro h), if_neg hmax]

/-- Everything COUNT can do (R150), as `execCount_cases` says it. -/
theorem counted_cases (s : State) (sym : Byte) :
    (s.tstate ≠ .empty ∧ counted s sym = raise .seq s) ∨
    (s.tstate = .empty ∧ s.freqAt sym = 0xFFFFFFFF#32 ∧ counted s sym = raise .freqOvf s) ∨
    (s.tstate = .empty ∧ s.freqAt sym ≠ 0xFFFFFFFF#32 ∧ counted s sym = s.setFreq sym (s.freqAt sym + 1)) := by
  by_cases ht : s.tstate = .empty
  · by_cases hmax : s.freqAt sym = 0xFFFFFFFF#32
    · exact .inr (.inl ⟨ht, hmax, counted_of_saturated ht hmax⟩)
    · exact .inr (.inr ⟨ht, hmax, counted_of_room ht hmax⟩)
  · exact .inl ⟨ht, counted_of_tree ht sym⟩

theorem exec_count (sym : Byte) (s : State) : exec (.count sym) s = .next (counted s sym) := by
  rcases execCount_cases sym s with ⟨ht, h⟩ | ⟨ht, hmax, h⟩ | ⟨ht, hmax, h⟩
  · exact (counted_of_tree ht sym).symm ▸ h
  · exact (counted_of_saturated ht hmax).symm ▸ h
  · exact (counted_of_room ht hmax).symm ▸ h

theorem execAll_count (syms : List Byte) (s : State) : execAll (syms.map .count) s = .next (syms.foldl counted s) := by
  induction syms generalizing s with
  | nil => rfl
  | cons sym rest ih => rw [List.map_cons, execAll, exec_count, List.foldl_cons, ← ih]

/-! ### A counter below its maximum -/

theorem eq_max_iff_toNat (v : BitVec 32) : v = 0xFFFFFFFF#32 ↔ v.toNat = 2 ^ 32 - 1 := by
  rw [← BitVec.toNat_inj]
  rfl

/-- R151: an increment that is performed does not wrap. -/
theorem toNat_succ_of_ne_max {v : BitVec 32} (h : v ≠ 0xFFFFFFFF#32) : (v + 1).toNat = v.toNat + 1 := by
  bv_omega

/-- Settles O20: its three clauses are the branches of `counted`, and the last one does not wrap. -/
theorem countAddsOneOccurrence : Obligations.CountAddsOneOccurrence := by
  unfold Obligations.CountAddsOneOccurrence
  intro sym s
  rw [exec_count, ne_eq (s.freqAt sym).toNat, ← eq_max_iff_toNat]
  refine ⟨fun ht => ?_, fun ht hmax => ?_, fun ht hmax => ⟨_, rfl, ?_⟩⟩
  · rw [counted_of_tree ht, raise_seq]
  · rw [counted_of_saturated ht hmax, raise_freqOvf]
  · rw [counted_of_room ht hmax, freqAt_setFreq_same]
    exact ⟨rfl, toNat_succ_of_ne_max hmax, fun o ho => freqAt_setFreq_other s sym o _ ho⟩

/-! ### COUNTs commute -/

theorem freqAt_congr {s t : State} (h : t.freq = s.freq) (sym : Byte) : t.freqAt sym = s.freqAt sym := by
  simp only [State.freqAt, h]

theorem setFreq_comm (s : State) {a b : Byte} (h : a ≠ b) (v w : BitVec 32) :
    (s.setFreq a v).setFreq b w = (s.setFreq b w).setFreq a v := by
  have hne : a.toNat ≠ b.toNat := fun hh => h (BitVec.eq_of_toNat_eq hh)
  simp only [State.setFreq, Vector.set_comm _ _ hne]

@[simp] theorem counted_tstate (s : State) (sym : Byte) : (counted s sym).tstate = s.tstate := by
  rcases counted_cases s sym with ⟨-, h⟩ | ⟨-, -, h⟩ | ⟨-, -, h⟩ <;> rw [h] <;> rfl

theorem freqAt_counted_other (s : State) {sym o : Byte} (h : o ≠ sym) : (counted s sym).freqAt o = s.freqAt o := by
  rcases counted_cases s sym with ⟨-, e⟩ | ⟨-, -, e⟩ | ⟨-, -, e⟩ <;> rw [e]
  · exact freqAt_congr rfl o
  · exact freqAt_congr rfl o
  · exact freqAt_setFreq_other s sym o _ h

/-- An error bit is no part of what COUNT looks at, so it may be raised before or after. -/
theorem counted_raise (e : ErrBit) (s : State) (sym : Byte) : counted (raise e s) sym = raise e (counted s sym) := by
  rcases counted_cases s sym with ⟨ht, h⟩ | ⟨ht, hmax, h⟩ | ⟨ht, hmax, h⟩ <;> rw [h]
  · exact (counted_of_tree (s := raise e s) ht sym).trans (raise_comm .seq e s)
  · exact (counted_of_saturated (s := raise e s) ht hmax).trans (raise_comm .freqOvf e s)
  · exact counted_of_room (s := raise e s) ht hmax

/-- Another symbol's counter is no part of what COUNT looks at, so it may be written before or after. -/
theorem counted_setFreq (s : State) {a b : Byte} (h : a ≠ b) (v : BitVec 32) :
    counted (s.setFreq a v) b = (counted s b).setFreq a v := by
  have hf : (s.setFreq a v).freqAt b = s.freqAt b := freqAt_setFreq_other s a b v h.symm
  rcases counted_cases s b with ⟨ht, e⟩ | ⟨ht, hmax, e⟩ | ⟨ht, hmax, e⟩ <;> rw [e]
  · exact counted_of_tree (s := s.setFreq a v) ht b
  · exact counted_of_saturated (s := s.setFreq a v) ht (hf.trans hmax)
  · rw [counted_of_room (s := s.setFreq a v) ht (hf ▸ hmax), hf, setFreq_comm s h]

/-- COUNTs of two symbols look at one tree state and at two counters, and neither changes what the other looks at. -/
theorem counted_comm (s : State) (a b : Byte) : counted (counted s a) b = counted (counted s b) a := by
  by_cases hab : a = b
  · rw [hab]
  by_cases ht : s.tstate = .empty
  · have htb : (counted s b).tstate = .empty := (counted_tstate s b).trans ht
    have hfb : (counted s b).freqAt a = s.freqAt a := freqAt_counted_other s hab
    by_cases hmax : s.freqAt a = 0xFFFFFFFF#32
    · rw [counted_of_saturated ht hmax, counted_of_saturated htb (hfb.trans hmax), counted_raise]
    · rw [counted_of_room ht hmax, counted_of_room htb (hfb ▸ hmax), counted_setFreq s hab, hfb]
  · have htb : (counted s b).tstate ≠ .empty := fun h => ht ((counted_tstate s b).symm.trans h)
    rw [counted_of_tree ht, counted_of_tree htb, counted_raise]

/-- Settles O21: a run of COUNTs is a fold of steps that commute. -/
theorem countOrderDoesNotMatter : Obligations.CountOrderDoesNotMatter := by
  unfold Obligations.CountOrderDoesNotMatter
  intro syms others s hperm
  rw [execAll_count, execAll_count, hperm.foldl_eq' (fun a _ b _ z => counted_comm z a b)]

/-! ### The counters over a step -/

/-- How the counters may move (R151): all keep their values, all are cleared, or one grows by one. -/
def State.CountersMove (s t : State) : Prop :=
  (∀ sym, t.freqAt sym = s.freqAt sym) ∨ (∀ sym, t.freqAt sym = 0) ∨
  ∃ sym, (t.freqAt sym).toNat = (s.freqAt sym).toNat + 1 ∧ ∀ o, o ≠ sym → t.freqAt o = s.freqAt o

theorem countersMove_of_freq_eq {s t : State} (h : t.freq = s.freq) : s.CountersMove t := .inl (freqAt_congr h)

theorem State.CountersMove.congr_left {s s' t : State} (h : s.CountersMove t) (hs : s'.freq = s.freq) :
    s'.CountersMove t := by
  unfold State.CountersMove
  simp only [freqAt_congr hs]
  exact h

theorem counted_countersMove (s : State) (sym : Byte) : s.CountersMove (counted s sym) := by
  rcases counted_cases s sym with ⟨-, h⟩ | ⟨-, -, h⟩ | ⟨-, hmax, h⟩
  · exact countersMove_of_freq_eq (by rw [h, raise_freq])
  · exact countersMove_of_freq_eq (by rw [h, raise_freq])
  · refine .inr (.inr ⟨sym, ?_, fun o ho => freqAt_counted_other s ho⟩)
    rw [h, freqAt_setFreq_same, toNat_succ_of_ne_max hmax]

/-- COUNT grows its counter, CLEAR clears them all, and no other command writes them (R151). -/
theorem exec_countersMove {i : Instr} {s t : State} (h : exec i s = .next t) : s.CountersMove t := by
  obtain ⟨-, -, hfreq, -⟩ := commandsWriteOnlyTheirUnits i s t h
  cases i with
  | count sym =>
    cases (exec_count sym s).symm.trans h
    exact counted_countersMove s sym
  | clear =>
    cases (exec_clear s).symm.trans h
    exact .inr (.inl fun sym => freqAt_resetWith s.params sym)
  | _ => exact countersMove_of_freq_eq (hfreq (by simp) (by simp))

theorem hostStep_freq (s : State) : (hostStep s).freq = s.freq := by
  obtain ⟨u, hu⟩ := hostStep_frame s
  rw [hu]

/-- Settles O22, turn by turn: the host writes no counter, reset clears them, and the core's turn moves them as its command does. -/
theorem countersOnlyGrowOrClear : Obligations.CountersOnlyGrowOrClear := by
  unfold Obligations.CountersOnlyGrowOrClear
  intro s t h
  refine step_rule (P := fun u => u.freq = s.freq) (Q := s.CountersMove) (fun _ _ hu => hu)
    (fun _ hu => countersMove_of_freq_eq hu) ?host ?reset (fun _ hu => countersMove_of_freq_eq hu) ?exec rfl h
  case host => exact fun u hu => countersMove_of_freq_eq ((hostStep_freq u).trans hu)
  case reset => exact fun u _ => .inr (.inl fun sym => freqAt_resetWith u.params sym)
  case exec =>
    intro i u v hu _ _ he
    have hmove : s.CountersMove v := (exec_countersMove he).congr_left hu.symm
    exact hmove

end Sys2Proof.Machine
end

section
/-! PROOFS. `SelectMin` (spec/42_tree.md R161): which nodes it may return. -/

namespace Sys2Proof.Machine

theorem minNfreq_le (a : Arena) (i : NodeIdx) (q : List NodeIdx) : ∀ j ∈ i :: q, minNfreq a i q ≤ (a.at j).nfreq := by
  induction q generalizing i with
  | nil =>
    intro j hj
    rw [List.mem_singleton.mp hj]
    exact BitVec.le_refl _
  | cons k rest ih =>
    intro j hj
    rw [minNfreq]
    rcases List.mem_cons.mp hj with rfl | hj
    · split
      · exact BitVec.le_refl _
      · exact BitVec.le_of_lt (BitVec.not_le.mp ‹_›)
    · split
      · exact BitVec.le_trans ‹_› (ih k j hj)
      · exact ih k j hj

/-- The lightest nodes are those that no node of the collection is lighter than. -/
theorem mem_lightest_iff {a : Arena} {q : List NodeIdx} {j : NodeIdx} :
    j ∈ lightest a q ↔ j ∈ q ∧ ∀ k ∈ q, (a.at j).nfreq ≤ (a.at k).nfreq := by
  cases q with
  | nil => simp [lightest]
  | cons i rest =>
    have hmem : ∀ {k}, k ∈ lightest a (i :: rest) ↔ k ∈ i :: rest ∧ (a.at k).nfreq = minNfreq a i rest := by
      simp [lightest]
    rw [hmem]
    refine and_congr_right fun hj => ⟨fun h k hk => h ▸ minNfreq_le a i rest k hk, fun h => ?_⟩
    obtain ⟨k, hk⟩ := List.exists_mem_of_ne_nil _ (lightest_ne_nil a i rest)
    obtain ⟨hk, hmin⟩ := hmem.mp hk
    exact BitVec.le_antisymm (hmin ▸ h k hk) (minNfreq_le a i rest j hj)

theorem leastIdx_le (i : NodeIdx) (q : List NodeIdx) : ∀ j ∈ i :: q, leastIdx i q ≤ j := by
  induction q generalizing i with
  | nil => exact fun j hj => (List.mem_singleton.mp hj).ge
  | cons k rest ih =>
    intro j hj
    rw [leastIdx]
    rcases List.mem_cons.mp hj with rfl | hj
    · exact min_le_left _ _
    · exact (min_le_right _ _).trans (ih k j hj)

theorem selectMin_deterministic_eq {a : Arena} {q rest : List NodeIdx} {i : NodeIdx} (h : lightest a q = i :: rest)
    (draw : Nat) : selectMin .deterministic draw a q = leastIdx i rest := by
  rw [selectMin, h]

theorem selectMin_any_eq {a : Arena} {q rest : List NodeIdx} {i : NodeIdx} (h : lightest a q = i :: rest) (draw : Nat) :
    selectMin .any draw a q = (i :: rest)[draw % (i :: rest).length]'(Nat.mod_lt _ (Nat.succ_pos _)) := by
  rw [selectMin, h]
  exact List.getD_eq_getElem _ _ _

theorem lightest_eq_cons {a : Arena} {q : List NodeIdx} (h : q ≠ []) : ∃ i rest, lightest a q = i :: rest := by
  obtain ⟨j, p, rfl⟩ := List.exists_cons_of_ne_nil h
  exact List.exists_cons_of_ne_nil (lightest_ne_nil a j p)

theorem selectMin_mem_lightest (pol : TiePolicy) (draw : Nat) (a : Arena) {q : List NodeIdx} (h : q ≠ []) :
    selectMin pol draw a q ∈ lightest a q := by
  obtain ⟨i, rest, hl⟩ := lightest_eq_cons (a := a) h
  cases pol with
  | deterministic =>
    rw [selectMin_deterministic_eq hl, hl]
    exact leastIdx_mem i rest
  | any =>
    rw [selectMin_any_eq hl, hl]
    exact List.getElem_mem _

/-- No node of the collection is lighter than the one selected (R161). -/
theorem selectMin_le (pol : TiePolicy) (draw : Nat) (a : Arena) {q : List NodeIdx} {j : NodeIdx} (hj : j ∈ q) :
    (a.at (selectMin pol draw a q)).nfreq ≤ (a.at j).nfreq :=
  (mem_lightest_iff.mp (selectMin_mem_lightest pol draw a (List.ne_nil_of_mem hj))).2 j hj

/-- Settles O23: `SelectMin` picks from the lightest nodes, by index or by the draw. -/
theorem selectMinIsLightest : Obligations.SelectMinIsLightest := by
  unfold Obligations.SelectMinIsLightest
  intro a q hq
  refine ⟨fun pol draw => ⟨selectMin_mem pol draw a q hq, fun j hj => selectMin_le pol draw a hj⟩,
    fun draw j hj heq => ?deterministic, fun i hi hmin => ?any⟩ <;>
    obtain ⟨x, rest, hl⟩ := lightest_eq_cons (a := a) hq
  case deterministic =>
    rw [selectMin_deterministic_eq hl]
    refine leastIdx_le x rest j (hl ▸ mem_lightest_iff.mpr ⟨hj, fun k hk => ?_⟩)
    rw [heq]
    exact selectMin_le .deterministic draw a hk
  case any =>
    have hmem : i ∈ x :: rest := hl ▸ mem_lightest_iff.mpr ⟨hi, hmin⟩
    obtain ⟨n, hn, hget⟩ := List.getElem_of_mem hmem
    refine ⟨n, ?_⟩
    rw [selectMin_any_eq hl]
    simp only [Nat.mod_eq_of_lt hn, hget]

end Sys2Proof.Machine
end

section
/-! PROOFS. BUILD's code table, TCLR, and what LOADC may change (spec/42_tree.md R160 to R165, R170). -/

namespace Sys2Proof.Machine

/-! ### The cases of BUILD -/

/-- BUILD's three cases (R160, R163): no symbol, one symbol, or more. -/
theorem liveSyms_cases (s : State) : s.liveSyms = [] ∨ (∃ sym, s.liveSyms = [sym]) ∨ 2 ≤ s.liveSyms.length := by
  match s.liveSyms with
  | [] => exact .inl rfl
  | [sym] => exact .inr (.inl ⟨sym, rfl⟩)
  | _ :: _ :: _ => exact .inr (.inr (by simp))

theorem liveSyms_eq_nil {s : State} (h : ∀ sym, s.freqAt sym = 0) : s.liveSyms = [] :=
  List.eq_nil_iff_forall_not_mem.mpr fun sym hm => (mem_liveSyms s sym).mp hm (h sym)

theorem liveSyms_eq_singleton {s : State} {sym : Byte} (h : s.freqAt sym ≠ 0) (ho : ∀ o, o ≠ sym → s.freqAt o = 0) :
    s.liveSyms = [sym] := by
  refine List.perm_singleton.mp ((List.perm_ext_iff_of_nodup (liveSyms_nodup s) (List.nodup_singleton sym)).mpr fun o => ?_)
  rw [mem_liveSyms, List.mem_singleton]
  exact ⟨fun hne => by_contra fun hos => hne (ho o hos), fun e => e ▸ h⟩

theorem buildWith_entry_of_one {draw : Nat → Nat} {s : State} {sym : Byte} (h : s.liveSyms = [sym]) (y : Byte) :
    (buildWith draw s).entry y = if y = sym then ([false], 1) else ([], 0) := by
  rw [buildWith_of_one h]
  refine (entry_setCode (treeClear s) sym y [false]).trans ?_
  rw [State.entry, treeClear_codeAt, treeClear_clenAt]
  rfl

/-- Settles O24, from BUILD's first two cases. -/
theorem buildOfNoneOrOneSymbol : Obligations.BuildOfNoneOrOneSymbol := by
  unfold Obligations.BuildOfNoneOrOneSymbol
  intro s
  refine ⟨fun hzero => ⟨_, rfl, ?none⟩, fun sym hsym hother => ⟨_, rfl, ?one⟩⟩
  case none =>
    rw [buildWith_of_none (liveSyms_eq_nil hzero)]
    exact ⟨rfl, fun sym => ⟨treeClear_clenAt s sym, treeClear_codeAt s sym⟩⟩
  case one =>
    have hlive := liveSyms_eq_singleton hsym hother
    have hentry := buildWith_entry_of_one (draw := Config.tieDraw) hlive
    have hat := leafArena_at s (i := 0) (by simp [hlive])
    simp only [Fin.val_zero, hlive, List.getElem_cons_zero] at hat
    refine ⟨by rw [buildWith_of_one hlive]; rfl, by rw [buildWith_of_one hlive]; exact hat, ?_, ?_, fun o ho => ?_⟩
    · exact (congrArg Prod.fst (hentry sym)).trans (by rw [if_pos rfl])
    · exact (congrArg Prod.snd (hentry sym)).trans (by rw [if_pos rfl])
    · have hnone := hentry o
      rw [if_neg ho] at hnone
      exact ⟨congrArg Prod.snd hnone, congrArg Prod.fst hnone⟩

/-! ### Which symbols have codes -/

theorem buildWith_treeInv (draw : Nat → Nat) (s : State) : (buildWith draw s).TreeInv := by
  rcases liveSyms_cases s with h | ⟨sym, h⟩ | h
  · rw [buildWith_of_none h]
    exact treeClear_treeInv s
  · exact buildWith_treeInv_of_one h
  · exact buildWith_treeInv_of_two_le h

/-- BUILD gives codes to the counted symbols (R160). -/
theorem buildWith_clenAt_ne_zero_iff (draw : Nat → Nat) (s : State) (sym : Byte) :
    (buildWith draw s).clenAt sym ≠ 0 ↔ sym ∈ s.liveSyms := by
  rcases liveSyms_cases s with h | ⟨y, h⟩ | h
  · rw [buildWith_of_none h, h, treeClear_clenAt]
    simp
  · have hclen := congrArg Prod.snd (buildWith_entry_of_one (draw := draw) h sym)
    rw [h, List.mem_singleton, show (buildWith draw s).clenAt sym = _ from hclen]
    split <;> simp [*]
  · obtain ⟨hnode, hroot⟩ := buildWith_node_root (draw := draw) h
    rw [(buildWith_codesFromLeaves h).coded, hnode, hroot, merged_leafAt_iff h]

theorem buildWith_numCodes (draw : Nat → Nat) (s : State) :
    (buildWith draw s).numCodes.toNat = s.liveSyms.length :=
  (buildWith_treeInv draw s).counted.trans (codeCount_eq_liveSyms_length (buildWith_clenAt_ne_zero_iff draw s))

/-- BUILD's tree of k symbols has 2k − 1 nodes, and the last one made is its root (R161, R163). -/
theorem buildWith_tree (draw : Nat → Nat) {s : State} (h : s.liveSyms ≠ []) :
    (buildWith draw s).rootV = true ∧ (buildWith draw s).tstate = .built ∧
      (buildWith draw s).nodeCount.toNat = 2 * s.liveSyms.length - 1 ∧
      (buildWith draw s).root.val = 2 * s.liveSyms.length - 2 := by
  rcases liveSyms_cases s with hn | ⟨sym, hs⟩ | h2
  · exact absurd hn h
  · rw [buildWith_of_one hs, hs]
    exact ⟨rfl, rfl, rfl, rfl⟩
  · have hk := liveSyms_length_le s
    have hroot := merged_root (draw := draw) h2
    obtain ⟨c, l, e⟩ := buildWith_eq_builtTree (draw := draw) h2
    rw [e]
    refine ⟨rfl, rfl, (BitVec.toNat_ofNat _ _).trans ?_, hroot⟩
    rw [merged_fresh h2]
    omega

theorem buildWith_cur (draw : Nat → Nat) (s : State) : (buildWith draw s).cur = (buildWith draw s).root := by
  rcases liveSyms_cases s with h | ⟨sym, h⟩ | h
  · rw [buildWith_of_none h]
    rfl
  · rw [buildWith_of_one h]
  · obtain ⟨c, l, e⟩ := buildWith_eq_builtTree (draw := draw) h
    rw [e]
    rfl

/-- Settles O25, from the frame of BUILD and its counts. -/
theorem buildCodesTheCountedSymbols : Obligations.BuildCodesTheCountedSymbols := by
  unfold Obligations.BuildCodesTheCountedSymbols
  intro s
  refine ⟨buildWith Config.tieDraw s, rfl, ?frame, fun sym => ?coded, buildWith_numCodes _ s, ?count, fun h => ?tree,
    buildWith_cur _ s⟩
  case frame =>
    obtain ⟨u, e⟩ := buildWith_frame Config.tieDraw s
    rw [e]
  case coded => rw [buildWith_clenAt_ne_zero_iff, mem_liveSyms]
  case count =>
    by_cases h : s.liveSyms = []
    · rw [buildWith_of_none h, h]
      rfl
    · obtain ⟨-, -, hcount, -⟩ := buildWith_tree Config.tieDraw h
      exact hcount
  case tree =>
    obtain ⟨hv, hts, hcount, hroot⟩ := buildWith_tree Config.tieDraw h
    exact ⟨hv, hts, by rw [hroot, hcount, Nat.sub_sub]⟩

/-- Settles O26: R55 item 4 of the state that BUILD leaves, whose coded symbols are the counted ones. -/
theorem buildCodesArePrefixFree : Obligations.BuildCodesArePrefixFree := by
  unfold Obligations.BuildCodesArePrefixFree
  rintro s t h a ha b hb hne
  cases h
  exact (buildWith_treeInv Config.tieDraw s).prefixFree a b hne ((buildWith_clenAt_ne_zero_iff _ s a).mpr ha)
    ((buildWith_clenAt_ne_zero_iff _ s b).mpr hb)

/-! ### TCLR -/

/-- Settles O30: TCLR is the clearing of the tree. -/
theorem tclrClearsTreeAndCodes : Obligations.TclrClearsTreeAndCodes := by
  unfold Obligations.TclrClearsTreeAndCodes
  exact fun s => ⟨treeClear s, rfl, rfl, fun sym => ⟨treeClear_clenAt s sym, treeClear_codeAt s sym⟩⟩

/-! ### LOADC's checks, and its frame -/

theorem execLoadc_of_built {s : State} (h : s.tstate = .built) (sym : Byte) (len : BitVec 8) :
    execLoadc sym len s = .next (raise .seq s) := if_pos h

theorem execLoadc_of_illegal {s : State} {sym : Byte} {len : BitVec 8} (hts : s.tstate ≠ .built)
    (h : len = 0 ∨ s.clenAt sym ≠ 0) : execLoadc sym len s = .next (raise .load s) := by
  rw [execLoadc, if_neg hts, if_pos h]

/-- Settles O31, from the two checks before LOADC's walk. -/
theorem loadcChecksStateThenOperands : Obligations.LoadcChecksStateThenOperands := by
  unfold Obligations.LoadcChecksStateThenOperands
  intro sym len s
  rw [← raise_seq, ← raise_load]
  exact ⟨fun h => execLoadc_of_built h sym len, execLoadc_of_illegal⟩

/-- The length LOADC enters is its operand (R170). -/
theorem ofNat_loadCode_length (len : BitVec 8) (s : State) : BitVec.ofNat 8 (loadCode len s).length = len := by
  rw [loadCode_length, BitVec.ofNat_toNat, BitVec.setWidth_eq]

/-- Settles O32, from the cases of LOADC. -/
theorem loadcIsAllOrNothing : Obligations.LoadcIsAllOrNothing := by
  unfold Obligations.LoadcIsAllOrNothing
  intro sym len s
  rw [← raise_seq, ← raise_load]
  rcases execLoadc_cases sym len s with ⟨-, e⟩ | ⟨-, -, e⟩ | ⟨-, -, -, root, a, cnt, -, e⟩
  · exact .inl e
  · exact .inr (.inl e)
  · have hcode := loaded_codeAt s sym (loadCode len s) root a cnt
    have hclen := loaded_clenAt s sym (loadCode len s) root a cnt
    refine .inr (.inr ⟨s.loaded sym (loadCode len s) root a cnt, e, rfl, ?_, ?_, fun o ho => ⟨?_, ?_⟩⟩)
    · rw [hcode, if_pos rfl, loadCode]
    · rw [hclen, if_pos rfl, ofNat_loadCode_length]
    · rw [hcode, if_neg ho]
    · rw [hclen, if_neg ho]

end Sys2Proof.Machine
end

section
/-! PROOFS. BUILD under DETERMINISTIC (spec/42_tree.md R164 item 4): the draws and what the arena held before do not matter. -/

namespace Sys2Proof.Machine

/-! ### The draws -/

/-- The merge engine with another number of draws made. -/
def Merge.setDraws (m : Merge) (d : Nat) : Merge := { m with draws := d }

/-- Under DETERMINISTIC a merge makes no draw and looks at none (R161). -/
theorem mergeOnce_setDraws (draw : Nat → Nat) (m : Merge) (d : Nat) :
    mergeOnce .deterministic draw (m.setDraws d) = (mergeOnce .deterministic draw m).setDraws d := rfl

theorem mergeLoop_setDraws (draw : Nat → Nat) (turns : Nat) (m : Merge) (d : Nat) :
    mergeLoop .deterministic draw turns (m.setDraws d) = (mergeLoop .deterministic draw turns m).setDraws d := by
  induction turns generalizing m with
  | zero => rfl
  | succ turns ih =>
    rw [mergeLoop, mergeLoop, show (m.setDraws d).queue = m.queue from rfl]
    split
    · rw [mergeOnce_setDraws, ih]
    · rfl

/-! ### The code table -/

/-- The leaves of the tree determine the code table (R47, R55 item 3). -/
theorem State.CodesFromLeaves.unique {s t : State} (hs : s.CodesFromLeaves) (ht : t.CodesFromLeaves)
    (hnode : t.node = s.node) (hroot : t.root = s.root) : t.code = s.code ∧ t.clen = s.clen := by
  have hcode : ∀ sym, t.codeAt sym = s.codeAt sym := by
    intro sym
    by_cases hl : ∃ p f, Arena.LeafAt s.node s.root p sym f
    · obtain ⟨p, f, hp⟩ := hl
      rw [hs.path p sym f hp, ht.path p sym f (by rwa [hnode, hroot])]
    · have hsz : s.clenAt sym = 0 := not_not.mp fun h => hl ((hs.coded sym).mp h)
      have htz : t.clenAt sym = 0 := not_not.mp fun h => hl (by simpa only [hnode, hroot] using (ht.coded sym).mp h)
      rw [List.length_eq_zero_iff.mp ((hs.length sym).trans (congrArg BitVec.toNat hsz)),
        List.length_eq_zero_iff.mp ((ht.length sym).trans (congrArg BitVec.toNat htz))]
  have hclen : ∀ sym, t.clenAt sym = s.clenAt sym := fun sym =>
    BitVec.eq_of_toNat_eq (by rw [← hs.length, ← ht.length, hcode])
  have hsym : ∀ i, i < 256 → (BitVec.ofNat 8 i).toNat = i := fun i hi => (BitVec.toNat_ofNat i 8).trans (Nat.mod_eq_of_lt hi)
  exact ⟨Vector.ext fun i hi => by simpa only [State.codeAt, hsym i hi] using hcode (BitVec.ofNat 8 i),
    Vector.ext fun i hi => by simpa only [State.clenAt, hsym i hi] using hclen (BitVec.ofNat 8 i)⟩

/-! ### BUILD -/

theorem liveSyms_congr {s t : State} (h : t.freq = s.freq) : t.liveSyms = s.liveSyms :=
  List.filter_congr fun sym _ => by rw [freqAt_congr h]

theorem leafArena_congr {s t : State} (hfreq : t.freq = s.freq) (hnode : t.node = s.node) :
    t.leafArena = s.leafArena := by
  rw [State.leafArena, State.leafArena, liveSyms_congr hfreq, hnode, funext (freqAt_congr hfreq)]

/-- Under DETERMINISTIC the merge engine depends on the counters and on what the arena held. -/
theorem merged_congr (draw : Nat → Nat) {s t : State} (hs : s.params.tiePolicy = .deterministic)
    (ht : t.params.tiePolicy = .deterministic) (hfreq : t.freq = s.freq) (hnode : t.node = s.node) :
    t.merged draw = (s.merged draw).setDraws t.draws := by
  rw [State.merged, State.merged, hs, ht, liveSyms_congr hfreq, leafArena_congr hfreq hnode]
  exact mergeLoop_setDraws draw s.liveSyms.length ⟨_, _, _, s.draws⟩ t.draws

/-- So does BUILD, as to the tree and the code table. -/
theorem buildWith_sameTree (draw : Nat → Nat) {s t : State} (hs : s.params.tiePolicy = .deterministic)
    (ht : t.params.tiePolicy = .deterministic) (hfreq : t.freq = s.freq) (hnode : t.node = s.node) :
    (buildWith draw s).SameTree (buildWith draw t) := by
  have hlive := liveSyms_congr hfreq
  rcases liveSyms_cases s with h | ⟨sym, h⟩ | h
  · rw [buildWith_of_none h, buildWith_of_none (hlive.trans h)]
    exact ⟨hnode, rfl, rfl, rfl, rfl, rfl, rfl, rfl⟩
  · rw [buildWith_of_one h, buildWith_of_one (hlive.trans h)]
    exact ⟨leafArena_congr hfreq hnode, rfl, rfl, rfl, rfl, rfl, rfl, rfl⟩
  · have h' : 2 ≤ t.liveSyms.length := hlive ▸ h
    have hm := merged_congr draw hs ht hfreq hnode
    have hroot : t.builtRoot draw = s.builtRoot draw := by rw [State.builtRoot, hm]; rfl
    have harena : (t.merged draw).arena = (s.merged draw).arena := by rw [hm]; rfl
    have hfresh : (t.merged draw).fresh = (s.merged draw).fresh := by rw [hm]; rfl
    obtain ⟨hnode₁, hroot₁⟩ := buildWith_node_root (draw := draw) h
    obtain ⟨hnode₂, hroot₂⟩ := buildWith_node_root (draw := draw) h'
    obtain ⟨hcode, hclen⟩ := (buildWith_codesFromLeaves (draw := draw) h).unique (buildWith_codesFromLeaves h')
      (by rw [hnode₁, hnode₂, harena]) (by rw [hroot₁, hroot₂, hroot])
    obtain ⟨c, l, e⟩ := buildWith_eq_builtTree (draw := draw) h
    obtain ⟨c', l', e'⟩ := buildWith_eq_builtTree (draw := draw) h'
    rw [e, e'] at hcode hclen ⊢
    exact ⟨harena, congrArg (BitVec.ofNat 10) hfresh, rfl, hroot, rfl, hcode, hclen,
      congrArg (fun l : List Byte => BitVec.ofNat 9 l.length) hlive⟩

/-- Settles O28: first with the same arena before BUILD, then with another, of which BUILD reads nothing. -/
theorem buildIsAFunctionOfFreq : Obligations.BuildIsAFunctionOfFreq := by
  unfold Obligations.BuildIsAFunctionOfFreq
  rintro s s' t t' hs hs' hfreq h h'
  cases h
  cases h'
  obtain ⟨b, hb, hagree⟩ := buildWith_setNode Config.tieDraw s s'.node
  obtain ⟨hnode, hcount, hv, hroot, hts, hcode, hclen, hnum⟩ :=
    buildWith_sameTree Config.tieDraw (s := s.setNode s'.node) (t := s') hs hs' hfreq.symm rfl
  rw [hb] at hnode hcount hv hroot hts hcode hclen hnum
  refine ⟨hcode.symm, hclen.symm, hnum.symm, hcount.symm, hv.symm, hroot.symm, hts.symm, ?_, fun i hi => ?_⟩
  · rw [buildWith_cur, buildWith_cur]
    exact hroot.symm
  · rw [State.nodeAt, State.nodeAt, hnode]
    exact (hagree i hi).symm

end Sys2Proof.Machine
end

section
/-! PROOFS. Kraft's inequality, and what it says of the two lightest elements: the step of Huffman's optimality proof
(spec/42_tree.md R164 item 2). -/

namespace Sys2Proof.Machine

section
variable {ι : Type}

/-- The code lengths `len` over `Q`, none above `M`, meet Kraft's inequality: the sum of the 2^(−len) is at most 1. -/
structure Kraft (M : Nat) (Q : Finset ι) (len : ι → Nat) : Prop where
  bounded : ∀ i ∈ Q, len i ≤ M
  sum_le : ∑ i ∈ Q, 2 ^ (M - len i) ≤ 2 ^ M

variable {M : Nat} {Q : Finset ι} {len : ι → Nat} {w : ι → Nat} {a b : ι}

theorem Kraft.congr {len' : ι → Nat} (h : Kraft M Q len) (e : ∀ i ∈ Q, len i = len' i) : Kraft M Q len' where
  bounded i hi := e i hi ▸ h.bounded i hi
  sum_le := (Finset.sum_congr rfl fun i hi => by rw [e i hi]).trans_le h.sum_le

/-- The same lengths under other names. -/
theorem Kraft.image {κ : Type} [DecidableEq κ] {f : ι → κ} {len : κ → Nat} (h : Kraft M Q fun i => len (f i))
    (hf : Set.InjOn f Q) : Kraft M (Q.image f) len where
  bounded j hj := by
    obtain ⟨i, hi, rfl⟩ := Finset.mem_image.mp hj
    exact h.bounded i hi
  sum_le := (Finset.sum_image hf).trans_le h.sum_le

variable [DecidableEq ι]

theorem sum_erase_two (ha : a ∈ Q) (hb : b ∈ Q) (hne : a ≠ b) (f : ι → Nat) :
    ∑ i ∈ Q, f i = f a + f b + ∑ i ∈ (Q.erase a).erase b, f i := by
  rw [← Finset.add_sum_erase Q f ha, ← Finset.add_sum_erase _ f (Finset.mem_erase.mpr ⟨hne.symm, hb⟩), Nat.add_assoc]

/-! ### Exchanging two lengths -/

theorem sum_swap (ha : a ∈ Q) (hb : b ∈ Q) (f : ι → Nat) : ∑ i ∈ Q, f (Equiv.swap a b i) = ∑ i ∈ Q, f i := by
  refine Equiv.Perm.sum_comp _ _ _ fun i hi => ?_
  by_contra hq
  exact hi (Equiv.swap_apply_of_ne_of_ne (fun e => hq (e ▸ ha)) (fun e => hq (e ▸ hb)))

theorem Kraft.swap (h : Kraft M Q len) (ha : a ∈ Q) (hb : b ∈ Q) : Kraft M Q (len ∘ Equiv.swap a b) where
  bounded i hi := by
    rw [Function.comp_apply, Equiv.swap_apply_def]
    split_ifs
    · exact h.bounded b hb
    · exact h.bounded a ha
    · exact h.bounded i hi
  sum_le := (sum_swap ha hb fun i => 2 ^ (M - len i)).trans_le h.sum_le

/-- The longer of two codes given to the lighter element makes the whole no longer. -/
theorem weighted_swap_le (ha : a ∈ Q) (hb : b ∈ Q) (hw : w a ≤ w b) (hl : len a ≤ len b) :
    ∑ i ∈ Q, w i * (len ∘ Equiv.swap a b) i ≤ ∑ i ∈ Q, w i * len i := by
  by_cases hne : a = b
  · simp [hne]
  · rw [sum_erase_two ha hb hne, sum_erase_two ha hb hne]
    refine Nat.add_le_add ?_ (Finset.sum_le_sum fun i hi => Nat.le_of_eq ?_)
    · simpa using mul_add_mul_le_mul_add_mul hw hl
    · obtain ⟨hib, hi⟩ := Finset.mem_erase.mp hi
      rw [Function.comp_apply, Equiv.swap_apply_of_ne_of_ne (Finset.ne_of_mem_erase hi) hib]

/-! ### Shortening the only longest code -/

/-- Kraft's sum in units of the next to longest length is a whole number, so one code alone of the greatest length leaves room to
make it shorter. -/
theorem Kraft.shorten (h : Kraft M Q len) (ha : a ∈ Q) (hpos : 0 < len a) (hlong : ∀ i ∈ Q.erase a, len i < len a) :
    Kraft M Q (Function.update len a (len a - 1)) where
  bounded i hi := by
    have hle := h.bounded i hi
    by_cases e : i = a
    · subst e
      rw [Function.update_self]
      omega
    · rwa [Function.update_of_ne e]
  sum_le := by
    have haM := h.bounded a ha
    have hsum := h.sum_le
    have hunit : 2 ^ (M - len a) > 0 := by positivity
    rw [← Finset.add_sum_erase Q _ ha] at hsum
    have hdvd : 2 ^ (M - (len a - 1)) ∣ ∑ i ∈ Q.erase a, 2 ^ (M - len i) :=
      Finset.dvd_sum fun i hi => Nat.pow_dvd_pow 2 (by have := hlong i hi; omega)
    have hroom := Nat.le_of_dvd (by omega) (Nat.dvd_sub (Nat.pow_dvd_pow 2 (Nat.sub_le M (len a - 1))) hdvd)
    rw [← Finset.add_sum_erase Q _ ha, Function.update_self, Finset.sum_congr rfl fun i hi =>
      by rw [Function.update_of_ne (Finset.ne_of_mem_erase hi)]]
    omega

/-! ### The two lightest elements -/

/-- The lightest element may take a longest code. -/
theorem Kraft.exists_longest (ha : a ∈ Q) (hla : ∀ i ∈ Q, w a ≤ w i) (h : Kraft M Q len) :
    ∃ len', Kraft M Q len' ∧ (∀ i ∈ Q, len' i ≤ len' a) ∧ ∑ i ∈ Q, len' i = ∑ i ∈ Q, len i ∧
      ∑ i ∈ Q, w i * len' i ≤ ∑ i ∈ Q, w i * len i := by
  obtain ⟨m, hm, hmax⟩ := Finset.exists_max_image Q len ⟨a, ha⟩
  refine ⟨len ∘ Equiv.swap a m, h.swap ha hm, fun i hi => ?_, sum_swap ha hm len,
    weighted_swap_le ha hm (hla m hm) (hmax a ha)⟩
  rw [Function.comp_apply, Function.comp_apply, Equiv.swap_apply_left, Equiv.swap_apply_def]
  split_ifs
  · exact Nat.le_refl _
  · exact hmax a ha
  · exact hmax i hi

theorem update_pred_le (len : ι → Nat) (a i : ι) : Function.update len a (len a - 1) i ≤ len i := by
  by_cases e : i = a
  · subst e
    rw [Function.update_self]
    exact Nat.sub_le _ _
  · rw [Function.update_of_ne e]

/-- Lengths that are no worse and give the two lightest elements codes of one length: the lightest has a longest code, and either
the next lightest may take another one as long, or that code stands alone and can be made shorter. -/
theorem Kraft.exists_siblings (ha : a ∈ Q) (hb : b ∈ Q) (hne : a ≠ b) (hla : ∀ i ∈ Q, w a ≤ w i)
    (hlb : ∀ i ∈ Q, i ≠ a → w b ≤ w i) (h : Kraft M Q len) :
    ∃ len', Kraft M Q len' ∧ len' a = len' b ∧ ∑ i ∈ Q, w i * len' i ≤ ∑ i ∈ Q, w i * len i := by
  induction hn : ∑ i ∈ Q, len i using Nat.strong_induction_on generalizing len with
  | _ n ih =>
    obtain ⟨len₁, h₁, hmax, htotal, hcost₁⟩ := h.exists_longest ha hla
    by_cases hother : ∃ m ∈ Q.erase a, len₁ m = len₁ a
    · obtain ⟨m, hm, heq⟩ := hother
      obtain ⟨hma, hm⟩ := Finset.mem_erase.mp hm
      refine ⟨len₁ ∘ Equiv.swap b m, h₁.swap hb hm, ?_,
        (weighted_swap_le hb hm (hlb m hm hma) (heq ▸ hmax b hb)).trans hcost₁⟩
      rw [Function.comp_apply, Function.comp_apply, Equiv.swap_apply_left, Equiv.swap_apply_of_ne_of_ne hne hma.symm, heq]
    · have hlong : ∀ i ∈ Q.erase a, len₁ i < len₁ a := fun i hi =>
        lt_of_le_of_ne (hmax i (Finset.mem_of_mem_erase hi)) fun e => hother ⟨i, hi, e⟩
      have hpos := (Nat.zero_le _).trans_lt (hlong b (Finset.mem_erase.mpr ⟨hne.symm, hb⟩))
      have hless : ∑ i ∈ Q, Function.update len₁ a (len₁ a - 1) i < n := by
        rw [← hn, ← htotal]
        exact Finset.sum_lt_sum (fun i _ => update_pred_le len₁ a i) ⟨a, ha, by rw [Function.update_self]; omega⟩
      obtain ⟨len', h', hsib, hcost⟩ := ih _ hless (h₁.shorten ha hpos hlong) rfl
      exact ⟨len', h', hsib, (hcost.trans
        (Finset.sum_le_sum fun i _ => Nat.mul_le_mul_left _ (update_pred_le len₁ a i))).trans hcost₁⟩

/-- Two elements do not both have the empty code. -/
theorem Kraft.siblings_pos (ha : a ∈ Q) (hb : b ∈ Q) (hne : a ≠ b) (h : Kraft M Q len) (hsib : len a = len b) :
    0 < len a := by
  by_contra hzero
  have hsum := h.sum_le
  have hunit : 2 ^ M > 0 := by positivity
  rw [sum_erase_two ha hb hne, ← hsib, Nat.eq_zero_of_not_pos hzero, Nat.sub_zero] at hsum
  omega

/-- A new element in place of two with codes of one length, with a code one bit shorter, keeps Kraft's inequality; with their
weights together the whole is shorter by these. -/
theorem Kraft.join {w' : ι → Nat} {n : ι} (h : Kraft M Q len) (ha : a ∈ Q) (hb : b ∈ Q) (hne : a ≠ b)
    (hsib : len a = len b) (hn : n ∉ Q) (hw : ∀ i ∈ Q, w' i = w i) (hwn : w' n = w a + w b) :
    ∃ len', Kraft M (insert n ((Q.erase a).erase b)) len' ∧
      ∑ i ∈ insert n ((Q.erase a).erase b), w' i * len' i + (w a + w b) = ∑ i ∈ Q, w i * len i := by
  have hpos := h.siblings_pos ha hb hne hsib
  have hrest : ∀ {i}, i ∈ (Q.erase a).erase b → i ∈ Q := fun hi => Finset.mem_of_mem_erase (Finset.mem_of_mem_erase hi)
  have hold : ∀ i ∈ (Q.erase a).erase b, Function.update len n (len a - 1) i = len i := fun i hi =>
    Function.update_of_ne (fun e : i = n => hn (e ▸ hrest hi)) _ _
  refine ⟨Function.update len n (len a - 1), ⟨fun i hi => ?bounded, ?sum_le⟩, ?cost⟩
  case bounded =>
    rcases Finset.mem_insert.mp hi with rfl | hi
    · have := h.bounded a ha
      rw [Function.update_self]
      omega
    · exact (hold i hi).trans_le (h.bounded i (hrest hi))
  case sum_le =>
    have hsum := h.sum_le
    have haM := h.bounded a ha
    rw [sum_erase_two ha hb hne, ← hsib, ← Nat.two_mul, ← Nat.pow_succ'] at hsum
    rw [Finset.sum_insert (fun hi => hn (hrest hi)), Function.update_self,
      Finset.sum_congr rfl fun i hi => by rw [hold i hi], show M - (len a - 1) = (M - len a).succ by omega]
    exact hsum
  case cost =>
    rw [sum_erase_two ha hb hne, Finset.sum_insert (fun hi => hn (hrest hi)), Function.update_self, hwn,
      Finset.sum_congr rfl fun i hi => by rw [hold i hi, hw i (hrest hi)], ← hsib]
    obtain ⟨l, hl⟩ := Nat.exists_eq_add_one_of_ne_zero (Nat.pos_iff_ne_zero.mp hpos)
    rw [hl, Nat.add_sub_cancel]
    ring

end

/-! ### Codes of which none begins another -/

/-- A concatenation of codes of which none begins another can be read in one way only. -/
theorem uniquelyDecodable_of_prefixFree {S : Set Bits} (hnil : [] ∉ S) (hfree : ∀ c ∈ S, ∀ d ∈ S, c <+: d → c = d) :
    InformationTheory.UniquelyDecodable S := by
  intro cs
  induction cs with
  | nil =>
    intro ds _ hds h
    cases ds with
    | nil => rfl
    | cons d ds =>
      rw [List.flatten_nil, List.flatten_cons] at h
      have hd := hds d List.mem_cons_self
      rw [(List.append_eq_nil_iff.mp h.symm).1] at hd
      exact absurd hd hnil
  | cons c cs ih =>
    intro ds hcs hds h
    have hc := hcs c List.mem_cons_self
    cases ds with
    | nil =>
      rw [List.flatten_nil, List.flatten_cons] at h
      rw [(List.append_eq_nil_iff.mp h).1] at hc
      exact absurd hc hnil
    | cons d ds =>
      have hd := hds d List.mem_cons_self
      rw [List.flatten_cons, List.flatten_cons] at h
      obtain rfl : c = d := by
        rcases List.prefix_or_prefix_of_prefix (List.prefix_append c _) (h ▸ List.prefix_append d _) with hp | hp
        · exact hfree c hc d hd hp
        · exact (hfree d hd c hc hp).symm
      rw [ih ds (fun x hx => hcs x (List.mem_cons_of_mem _ hx)) (fun x hx => hds x (List.mem_cons_of_mem _ hx))
        (List.append_cancel_left h)]

/-- The lengths of a code for two or more symbols, of which none begins another, meet Kraft's inequality. -/
theorem State.prefixCode.kraft {s : State} {c : Byte → Bits} (hc : s.prefixCode c) (h2 : 2 ≤ s.liveSyms.length) :
    ∃ M, Kraft M s.liveSyms.toFinset (fun sym => (c sym).length) := by
  have hfree : ∀ x ∈ s.liveSyms.toFinset, ∀ y ∈ s.liveSyms.toFinset, c x <+: c y → x = y := fun x hx y hy hxy =>
    by_contra fun hne => hc x (List.mem_toFinset.mp hx) y (List.mem_toFinset.mp hy) hne hxy
  have hcard : 1 < s.liveSyms.toFinset.card := by
    rwa [List.toFinset_card_of_nodup (liveSyms_nodup s)]
  have hdec : InformationTheory.UniquelyDecodable ((s.liveSyms.toFinset.image c : Finset Bits) : Set Bits) := by
    refine uniquelyDecodable_of_prefixFree ?_ ?_
    · intro hnil
      obtain ⟨x, hx, hcx⟩ := Finset.mem_image.mp hnil
      obtain ⟨y, hy, hne⟩ := Finset.exists_mem_ne hcard x
      exact hne (hfree x hx y hy (hcx ▸ List.nil_prefix)).symm
    · intro d hd e he hde
      obtain ⟨x, hx, rfl⟩ := Finset.mem_image.mp hd
      obtain ⟨y, hy, rfl⟩ := Finset.mem_image.mp he
      rw [hfree x hx y hy hde]
  have hle := fun sym hsym => Finset.le_sup (f := fun sym => (c sym).length) (b := sym) (s := s.liveSyms.toFinset) hsym
  refine ⟨_, hle, ?_⟩
  have hinj : Set.InjOn c s.liveSyms.toFinset := fun x hx y hy (e : c x = c y) => hfree x hx y hy (e ▸ List.prefix_rfl)
  have hkraft := InformationTheory.kraft_mcmillan_inequality hdec
  rw [Finset.sum_image hinj, Fintype.card_bool] at hkraft
  generalize (s.liveSyms.toFinset.sup fun sym => (c sym).length) = M at hle ⊢
  have hscale : ∀ sym ∈ s.liveSyms.toFinset,
      ((2 ^ (M - (c sym).length) : Nat) : ℝ) = 2 ^ M * (1 / (2 : Nat)) ^ (c sym).length := by
    intro sym hsym
    rw [Nat.cast_pow, Nat.cast_ofNat, pow_sub₀ _ two_ne_zero (hle sym hsym), one_div, inv_pow]
  have : ((∑ sym ∈ s.liveSyms.toFinset, 2 ^ (M - (c sym).length) : Nat) : ℝ) ≤ (2 ^ M : Nat) := by
    rw [Nat.cast_sum, Finset.sum_congr rfl hscale, ← Finset.mul_sum, Nat.cast_pow, Nat.cast_ofNat]
    exact mul_le_of_le_one_right (by positivity) hkraft
  exact_mod_cast this

end Sys2Proof.Machine
end

section
/-! PROOFS. BUILD's tree is Huffman's (spec/42_tree.md R161, R164 items 2 and 5): between two merges the NFREQ of a root is the
count of the symbols below it, and the forest can still be completed to a code as good as any other. -/

namespace Sys2Proof.Machine

/-! ### One merge -/

/-- `m'` is `m` after the merge of its two lightest nodes, `x` first (R161). -/
structure Merge.Joins (m : Merge) (x y : NodeIdx) (m' : Merge) : Prop where
  first : x ∈ m.queue
  second : y ∈ m.queue
  ne : x ≠ y
  first_le : ∀ j ∈ m.queue, (m.arena.at x).nfreq ≤ (m.arena.at j).nfreq
  second_le : ∀ j ∈ m.queue, j ≠ x → (m.arena.at y).nfreq ≤ (m.arena.at j).nfreq
  arena : m'.arena = m.arena.join m.fresh ((m.arena.at x).nfreq + (m.arena.at y).nfreq) x y
  queue : m'.queue.toFinset = insert (idxOf m.fresh) ((m.queue.toFinset.erase x).erase y)

theorem mergeOnce_joins (pol : TiePolicy) (draw : Nat → Nat) {m : Merge} (hnodup : m.queue.Nodup)
    (h : 1 < m.queue.length) : ∃ x y, m.Joins x y (mergeOnce pol draw m) := by
  obtain ⟨j, hj⟩ := List.exists_mem_of_length_pos (Nat.zero_lt_one.trans h)
  have hx := selectMin_mem pol (draw m.draws) m.arena m.queue (List.ne_nil_of_mem hj)
  have hrest : m.queue.erase (selectMin pol (draw m.draws) m.arena m.queue) ≠ [] := by
    intro e
    have := List.length_erase_of_mem hx
    rw [e, List.length_nil] at this
    omega
  have hy := selectMin_mem pol (draw (m.draws + 1)) m.arena _ hrest
  obtain ⟨hyx, hym⟩ := (List.Nodup.mem_erase_iff hnodup).mp hy
  refine ⟨_, _, hx, hym, Ne.symm hyx, fun j hj => selectMin_le pol _ m.arena hj,
    fun j hj hne => selectMin_le pol _ m.arena ((List.Nodup.mem_erase_iff hnodup).mpr ⟨hne, hj⟩), rfl, ?_⟩
  ext r
  rw [List.mem_toFinset, Finset.mem_insert, Finset.mem_erase, Finset.mem_erase, List.mem_toFinset, mergeOnce,
    List.mem_append, List.mem_singleton, List.Nodup.mem_erase_iff (hnodup.erase _), List.Nodup.mem_erase_iff hnodup, or_comm]

/-- What holds at the start and is kept by a merge holds at the end of the merge engine. -/
theorem mergeLoop_induction {P : Merge → Prop} {pol : TiePolicy} {draw : Nat → Nat}
    (hstep : ∀ m, P m → 1 < m.queue.length → P (mergeOnce pol draw m)) (turns : Nat) {m : Merge} (h : P m) :
    P (mergeLoop pol draw turns m) := by
  induction turns generalizing m with
  | zero => exact h
  | succ turns ih =>
    unfold mergeLoop
    split
    · exact ih (hstep m h ‹_›)
    · exact h

/-! ### Where the symbols are -/

/-- The counts of the live symbols, summed over those with a property. -/
def State.countOf (s : State) (p : Byte → Prop) [DecidablePred p] : Nat :=
  ∑ sym ∈ s.liveSyms.toFinset with p sym, (s.freqAt sym).toNat

theorem countOf_congr {s : State} {p q : Byte → Prop} [DecidablePred p] [DecidablePred q]
    (h : ∀ sym ∈ s.liveSyms, p sym ↔ q sym) : s.countOf p = s.countOf q := by
  unfold State.countOf
  rw [Finset.filter_congr fun sym hsym => h sym (List.mem_toFinset.mp hsym)]

theorem countOf_or {s : State} {p q : Byte → Prop} [DecidablePred p] [DecidablePred q] (h : ∀ sym, p sym → ¬ q sym) :
    s.countOf (fun sym => p sym ∨ q sym) = s.countOf p + s.countOf q := by
  unfold State.countOf
  rw [Finset.filter_or, Finset.sum_union (Finset.disjoint_filter.mpr fun sym _ => h sym)]

/-- No sum of counters overflows 40 bits (R44). -/
theorem countOf_lt (s : State) (p : Byte → Prop) [DecidablePred p] : s.countOf p < 2 ^ 40 := by
  have hcard : (s.liveSyms.toFinset.filter p).card ≤ 256 :=
    (Finset.card_filter_le _ _).trans ((List.toFinset_card_le _).trans (liveSyms_length_le s))
  have hsum : s.countOf p ≤ (s.liveSyms.toFinset.filter p).card • (2 ^ 32 - 1) :=
    Finset.sum_le_card_nsmul _ _ _ fun sym _ => Nat.le_pred_of_lt (s.freqAt sym).isLt
  rw [smul_eq_mul] at hsum
  omega

/-- All the counters together: those that are 0 add nothing. -/
theorem countOf_true (s : State) : s.countOf (fun _ => True) = (allSyms.map fun sym => (s.freqAt sym).toNat).sum := by
  have hlive : s.liveSyms.toFinset ⊆ allSyms.toFinset := fun sym _ => List.mem_toFinset.mpr (mem_allSyms sym)
  rw [State.countOf, Finset.filter_true, ← List.sum_toFinset _ allSyms_nodup]
  refine Finset.sum_subset hlive fun sym _ hsym => ?_
  rw [List.mem_toFinset, mem_liveSyms, not_not] at hsym
  rw [hsym]
  rfl

/-- In the forest between two merges `place` gives the root above each live symbol and the path from it to the symbol's leaf; the
NFREQ of a root is the count of the symbols below it (R44). -/
structure Merge.Places (s : State) (place : Byte → NodeIdx × Bits) (m : Merge) : Prop where
  root : ∀ sym ∈ s.liveSyms, (place sym).1 ∈ m.queue
  leaf : ∀ sym ∈ s.liveSyms, ∃ f, m.arena.LeafAt (place sym).1 (place sym).2 sym f
  weight : ∀ r ∈ m.queue, (m.arena.at r).nfreq.toNat = s.countOf (fun sym => (place sym).1 = r)

theorem joinedPath_root (n : Nat) (x y r : NodeIdx) (p : Bits) :
    (joinedPath n x y r p).1 = if r = x ∨ r = y then idxOf n else r := by
  unfold joinedPath
  by_cases hx : r = x
  · simp [hx]
  · by_cases hy : r = y
    · rw [if_neg hx, if_pos hy, if_pos (.inr hy)]
    · simp [hx, hy]

theorem joinedPath_length (n : Nat) (x y r : NodeIdx) (p : Bits) :
    (joinedPath n x y r p).2.length = p.length + if r = x ∨ r = y then 1 else 0 := by
  unfold joinedPath
  by_cases hx : r = x
  · simp [hx]
  · by_cases hy : r = y
    · rw [if_neg hx, if_pos hy, if_pos (.inr hy)]
      rfl
    · simp [hx, hy]

/-- The places after a merge of `x` and `y` into the node at index `n`. -/
def placeAfter (n : Nat) (x y : NodeIdx) (place : Byte → NodeIdx × Bits) (sym : Byte) : NodeIdx × Bits :=
  joinedPath n x y (place sym).1 (place sym).2

section
variable {s : State} {place : Byte → NodeIdx × Bits} {m m' : Merge} {x y : NodeIdx} {leaves : Arena} {k : Nat}

theorem Merge.Joins.mem_queue (hj : m.Joins x y m') (r : NodeIdx) :
    r ∈ m'.queue ↔ r = idxOf m.fresh ∨ r ≠ y ∧ r ≠ x ∧ r ∈ m.queue := by
  rw [← List.mem_toFinset, hj.queue, Finset.mem_insert, Finset.mem_erase, Finset.mem_erase, List.mem_toFinset]

theorem Merge.Forest.fresh_lt (hm : m.Forest leaves k) (hk : k ≤ 256) (hq : 1 < m.queue.length) :
    m.fresh < Config.nodeCap := by
  have := hm.count
  change _ < 511
  omega

/-- The node that a merge makes is none of the forest. -/
theorem Merge.Forest.new_notMem (hm : m.Forest leaves k) (hn : m.fresh < Config.nodeCap) : idxOf m.fresh ∉ m.queue := by
  intro hmem
  have := hm.spans.rootLt _ hmem
  rw [idxOf_val _ hn] at this
  exact Nat.lt_irrefl _ this

theorem Merge.Joins.at_old (hj : m.Joins x y m') (hm : m.Forest leaves k) (hn : m.fresh < Config.nodeCap) {r : NodeIdx}
    (hr : r ∈ m.queue) : m'.arena.at r = m.arena.at r := by
  rw [hj.arena]
  exact Arena.join_agree hn r (hm.spans.rootLt r hr)

/-- The symbols below two roots of the forest are those below one or the other, and none is below both. -/
theorem Merge.Places.weight_add (hp : m.Places s place) (hj : m.Joins x y m') :
    (m.arena.at x).nfreq.toNat + (m.arena.at y).nfreq.toNat =
      s.countOf (fun sym => (place sym).1 = x ∨ (place sym).1 = y) := by
  rw [countOf_or fun sym hx hy => hj.ne (hx.symm.trans hy), hp.weight x hj.first, hp.weight y hj.second]

/-- No sum of the merge engine overflows (R44). -/
theorem Merge.Places.weight_new (hp : m.Places s place) (hj : m.Joins x y m') :
    (m'.arena.at (idxOf m.fresh)).nfreq.toNat = (m.arena.at x).nfreq.toNat + (m.arena.at y).nfreq.toNat := by
  have hlt := countOf_lt s fun sym => (place sym).1 = x ∨ (place sym).1 = y
  rw [← hp.weight_add hj] at hlt
  rw [hj.arena, Arena.join_at_new]
  exact (BitVec.toNat_add _ _).trans (Nat.mod_eq_of_lt hlt)

/-- A merge keeps the account of the symbols and the weights. -/
theorem Merge.Places.join (hp : m.Places s place) (hm : m.Forest leaves k) (hn : m.fresh < Config.nodeCap)
    (hj : m.Joins x y m') : m'.Places s (placeAfter m.fresh x y place) := by
  have hroot : ∀ sym, (placeAfter m.fresh x y place sym).1 =
      if (place sym).1 = x ∨ (place sym).1 = y then idxOf m.fresh else (place sym).1 := fun sym => joinedPath_root _ _ _ _ _
  have hnew := hm.new_notMem hn
  refine ⟨fun sym hsym => ?root, fun sym hsym => ?leaf, fun r hr => ?weight⟩
  case root =>
    rw [hj.mem_queue, hroot]
    split_ifs with hxy
    · exact .inl rfl
    · obtain ⟨hx, hy⟩ := not_or.mp hxy
      exact .inr ⟨hy, hx, hp.root sym hsym⟩
  case leaf =>
    obtain ⟨f, i, hi, hl⟩ := hp.leaf sym hsym
    have hlt := hm.spans.closed.walk_lt (hm.spans.rootLt _ (hp.root sym hsym)) hi
    refine ⟨f, i, ?_, ?_⟩ <;> rw [hj.arena]
    · exact (Arena.join_walk_joinedPath hm.spans hn hj.first hj.second (hp.root sym hsym) _).trans hi
    · exact (Arena.join_agree hn i hlt).trans hl
  case weight =>
    rcases (hj.mem_queue r).mp hr with rfl | ⟨hry, hrx, hr⟩
    · rw [hp.weight_new hj, hp.weight_add hj]
      refine countOf_congr fun sym hsym => ?_
      rw [hroot]
      split_ifs with hxy
      · exact iff_of_true hxy rfl
      · exact iff_of_false hxy fun e => hnew (e ▸ hp.root sym hsym)
    · rw [hj.at_old hm hn hr, hp.weight r hr]
      refine countOf_congr fun sym hsym => ?_
      rw [hroot]
      split_ifs with hxy
      · refine iff_of_false (fun e => ?_) (fun e => hnew (e ▸ hr))
        rcases hxy with h | h
        · exact hrx (e.symm.trans h)
        · exact hry (e.symm.trans h)
      · rfl

/-! ### The weighted path length so far -/

/-- The weighted length of the paths from the roots of the forest to the symbols. -/
def State.pathCost (s : State) (place : Byte → NodeIdx × Bits) : Nat :=
  ∑ sym ∈ s.liveSyms.toFinset, (s.freqAt sym).toNat * (place sym).2.length

/-- A merge puts one bit before the path of each symbol below the two nodes. -/
theorem Merge.Places.pathCost_join (hp : m.Places s place) (hj : m.Joins x y m') :
    s.pathCost (placeAfter m.fresh x y place) =
      s.pathCost place + ((m.arena.at x).nfreq.toNat + (m.arena.at y).nfreq.toNat) := by
  rw [hp.weight_add hj, State.countOf, Finset.sum_filter, State.pathCost, State.pathCost, ← Finset.sum_add_distrib]
  refine Finset.sum_congr rfl fun sym _ => ?_
  rw [placeAfter, joinedPath_length, Nat.mul_add, mul_ite, Nat.mul_one, Nat.mul_zero]

/-- Whatever other code there is, codes can be put before the paths of the forest so that the whole is no longer than it. -/
def Merge.Optimal (s : State) (place : Byte → NodeIdx × Bits) (m : Merge) : Prop :=
  ∀ c, s.prefixCode c → ∃ M len, Kraft M m.queue.toFinset len ∧
    s.pathCost place + ∑ r ∈ m.queue.toFinset, (m.arena.at r).nfreq.toNat * len r ≤ s.weightedLength c

/-- The merge of the two lightest nodes keeps that: they may be siblings in a best tree. -/
theorem Merge.Optimal.join (ho : m.Optimal s place) (hp : m.Places s place) (hm : m.Forest leaves k)
    (hn : m.fresh < Config.nodeCap) (hj : m.Joins x y m') : m'.Optimal s (placeAfter m.fresh x y place) := by
  intro c hc
  obtain ⟨M, len, hkraft, hcost⟩ := ho c hc
  have hmem : ∀ {r}, r ∈ m.queue.toFinset → r ∈ m.queue := List.mem_toFinset.mp
  have hx := List.mem_toFinset.mpr hj.first
  have hy := List.mem_toFinset.mpr hj.second
  obtain ⟨len₁, hkraft₁, hsib, hcost₁⟩ := hkraft.exists_siblings (w := fun r => (m.arena.at r).nfreq.toNat) hx hy hj.ne
    (fun r hr => hj.first_le r (hmem hr)) (fun r hr hne => hj.second_le r (hmem hr) hne)
  obtain ⟨len₂, hkraft₂, hcost₂⟩ := hkraft₁.join (w' := fun r => (m'.arena.at r).nfreq.toNat) hx hy hj.ne hsib
    (fun hmem' => hm.new_notMem hn (hmem hmem')) (fun r hr => by rw [hj.at_old hm hn (hmem hr)]) (hp.weight_new hj)
  refine ⟨M, len₂, by rwa [hj.queue], ?_⟩
  rw [hp.pathCost_join hj, hj.queue]
  omega

end

/-! ### From the leaves to the tree -/

/-- What holds between two merges of BUILD. -/
def Merge.Huffman (s : State) (m : Merge) : Prop :=
  m.Forest s.leafArena s.liveSyms.length ∧ ∃ place, m.Places s place ∧ m.Optimal s place

theorem mergeOnce_huffman {pol : TiePolicy} {draw : Nat → Nat} {s : State} (m : Merge) (h : m.Huffman s)
    (hq : 1 < m.queue.length) : (mergeOnce pol draw m).Huffman s := by
  obtain ⟨hm, place, hp, ho⟩ := h
  have hk := liveSyms_length_le s
  have hn := hm.fresh_lt hk hq
  obtain ⟨x, y, hj⟩ := mergeOnce_joins pol draw hm.nodup hq
  exact ⟨mergeOnce_forest hk hm hq, placeAfter m.fresh x y place, hp.join hm hn hj, ho.join hp hm hn hj⟩

/-- A live symbol's leaf, at its number among the live symbols (R160). -/
def State.leafOf (s : State) (sym : Byte) : NodeIdx := idxOf (s.liveSyms.idxOf sym)

theorem leafOf_val {s : State} {sym : Byte} (h : sym ∈ s.liveSyms) : (s.leafOf sym).val = s.liveSyms.idxOf sym :=
  idxOf_val _ (lt_nodeCap (List.idxOf_lt_length_of_mem h) (liveSyms_length_le s))

theorem leafArena_leafOf {s : State} {sym : Byte} (h : sym ∈ s.liveSyms) :
    s.leafArena.at (s.leafOf sym) = .leaf sym ((s.freqAt sym).setWidth 40) := by
  have hval := leafOf_val h
  rw [leafArena_at s (hval.trans_lt (List.idxOf_lt_length_of_mem h))]
  simp only [hval, List.getElem_idxOf]

theorem mem_leafIndices_iff {s : State} (r : NodeIdx) :
    r ∈ leafIndices s.liveSyms.length ↔ ∃ sym ∈ s.liveSyms, s.leafOf sym = r := by
  rw [mem_leafIndices (liveSyms_length_le s)]
  constructor
  · intro hr
    have hmem := List.getElem_mem hr
    refine ⟨s.liveSyms[r.val], hmem, Fin.ext ?_⟩
    rw [leafOf_val hmem, List.Nodup.idxOf_getElem (liveSyms_nodup s)]
  · rintro ⟨sym, hsym, rfl⟩
    rw [leafOf_val hsym]
    exact List.idxOf_lt_length_of_mem hsym

theorem leafOf_injective {s : State} {a b : Byte} (ha : a ∈ s.liveSyms) (hb : b ∈ s.liveSyms)
    (h : s.leafOf a = s.leafOf b) : a = b := by
  have hat := leafArena_leafOf ha
  rw [h, leafArena_leafOf hb] at hat
  exact (Node.leaf.inj hat).1.symm

theorem leafArena_nfreq {s : State} {sym : Byte} (h : sym ∈ s.liveSyms) :
    (s.leafArena.at (s.leafOf sym)).nfreq.toNat = (s.freqAt sym).toNat := by
  have hlt := (s.freqAt sym).isLt
  rw [leafArena_leafOf h]
  exact (BitVec.toNat_setWidth _ _).trans (Nat.mod_eq_of_lt (by omega))

/-- The place of each symbol before the first merge: its leaf is a root. -/
def State.leafPlace (s : State) (sym : Byte) : NodeIdx × Bits := (s.leafOf sym, [])

theorem leaves_places (s : State) (draws : Nat) :
    Merge.Places s s.leafPlace ⟨s.leafArena, leafIndices s.liveSyms.length, s.liveSyms.length, draws⟩ := by
  refine ⟨fun sym hsym => (mem_leafIndices_iff _).mpr ⟨sym, hsym, rfl⟩,
    fun sym hsym => ⟨_, s.leafOf sym, rfl, leafArena_leafOf hsym⟩, fun r hr => ?_⟩
  obtain ⟨sym, hsym, rfl⟩ := (mem_leafIndices_iff r).mp hr
  have hone : s.liveSyms.toFinset.filter (fun o => (s.leafPlace o).1 = s.leafOf sym) = {sym} := by
    ext o
    rw [Finset.mem_filter, List.mem_toFinset, Finset.mem_singleton]
    exact ⟨fun ⟨ho, e⟩ => leafOf_injective ho hsym e, fun e => ⟨e.symm ▸ hsym, e ▸ rfl⟩⟩
  rw [State.countOf, hone, Finset.sum_singleton]
  exact leafArena_nfreq hsym

/-- The length of the code `c` of the symbol whose leaf a node is. -/
def State.leafCodeLen (s : State) (c : Byte → Bits) (r : NodeIdx) : Nat := (c (s.liveSyms.getD r.val 0)).length

theorem leafCodeLen_leafOf {s : State} {sym : Byte} (h : sym ∈ s.liveSyms) (c : Byte → Bits) :
    s.leafCodeLen c (s.leafOf sym) = (c sym).length := by
  rw [State.leafCodeLen, leafOf_val h, List.getD_eq_getElem _ _ (List.idxOf_lt_length_of_mem h), List.getElem_idxOf]

theorem leafIndices_toFinset (s : State) :
    (leafIndices s.liveSyms.length).toFinset = s.liveSyms.toFinset.image s.leafOf := by
  ext r
  simp [mem_leafIndices_iff]

theorem weightedLength_eq (s : State) (c : Byte → Bits) :
    s.weightedLength c = ∑ sym ∈ s.liveSyms.toFinset, (s.freqAt sym).toNat * (c sym).length :=
  (List.sum_toFinset _ (liveSyms_nodup s)).symm

/-- Before the first merge the codes themselves are what is put before the leaves. -/
theorem leaves_optimal {s : State} (h2 : 2 ≤ s.liveSyms.length) (draws : Nat) :
    Merge.Optimal s s.leafPlace ⟨s.leafArena, leafIndices s.liveSyms.length, s.liveSyms.length, draws⟩ := by
  intro c hc
  have hmem : ∀ {sym}, sym ∈ s.liveSyms.toFinset → sym ∈ s.liveSyms := List.mem_toFinset.mp
  have hinj : Set.InjOn s.leafOf s.liveSyms.toFinset := fun a ha b hb e => leafOf_injective (hmem ha) (hmem hb) e
  have hlen := fun sym hsym => leafCodeLen_leafOf (s := s) (sym := sym) (hmem hsym) c
  obtain ⟨M, hkraft⟩ := hc.kraft h2
  replace hkraft := hkraft.congr fun sym hsym => (hlen sym hsym).symm
  refine ⟨M, s.leafCodeLen c, ?_, ?_⟩
  · rw [leafIndices_toFinset]
    exact hkraft.image hinj
  · have hpath : s.pathCost s.leafPlace = 0 := Finset.sum_eq_zero fun _ _ => rfl
    rw [hpath, Nat.zero_add, leafIndices_toFinset, Finset.sum_image hinj, weightedLength_eq]
    exact Finset.sum_le_sum fun sym hsym => by rw [leafArena_nfreq (hmem hsym), hlen sym hsym]

theorem merged_huffman (draw : Nat → Nat) {s : State} (h2 : 2 ≤ s.liveSyms.length) : (s.merged draw).Huffman s :=
  mergeLoop_induction mergeOnce_huffman _ ⟨leaves_forest (liveSyms_length_le s) (leafArena_isLeaf s), s.leafPlace,
    leaves_places s s.draws, leaves_optimal h2 s.draws⟩

/-! ### The tree -/

/-- Settles O29: every symbol is below the root, whose NFREQ is the count of those below it. -/
theorem buildRootWeighsTheWholeTable : Obligations.BuildRootWeighsTheWholeTable := by
  unfold Obligations.BuildRootWeighsTheWholeTable
  rintro s t h hne
  cases h
  rw [← countOf_true]
  rcases liveSyms_cases s with hn | ⟨sym, hs⟩ | h2
  · exact absurd hn hne
  · have hmem : sym ∈ s.liveSyms := by simp [hs]
    have hroot : s.leafOf sym = 0 := Fin.ext ((leafOf_val hmem).trans (by simp [hs]))
    have hweight := leafArena_nfreq hmem
    rw [hroot] at hweight
    rw [buildWith_of_one hs]
    exact hweight.trans (by simp [State.countOf, hs])
  · obtain ⟨-, place, hp, -⟩ := merged_huffman Config.tieDraw h2
    obtain ⟨hnode, hroot⟩ := buildWith_node_root (draw := Config.tieDraw) h2
    have hqueue := merged_queue (draw := Config.tieDraw) h2
    rw [State.nodeAt, hnode, hroot, hp.weight _ (by simp [hqueue])]
    refine countOf_congr fun sym hsym => iff_of_true ?_ trivial
    have hmem := hp.root sym hsym
    rwa [hqueue, List.mem_singleton] at hmem

/-- Settles O27: at the end of the merge engine the paths are the codes, and nothing is left to put before them. -/
theorem buildCodesAreMinimal : Obligations.BuildCodesAreMinimal := by
  unfold Obligations.BuildCodesAreMinimal
  rintro s t h h2 c hc
  cases h
  obtain ⟨-, place, hp, ho⟩ := merged_huffman Config.tieDraw h2
  have hqueue := merged_queue (draw := Config.tieDraw) h2
  have hcode : ∀ sym ∈ s.liveSyms, (buildWith Config.tieDraw s).codeAt sym = (place sym).2 := by
    intro sym hsym
    obtain ⟨f, hleaf⟩ := hp.leaf sym hsym
    have hroot := hp.root sym hsym
    rw [hqueue, List.mem_singleton] at hroot
    rw [hroot] at hleaf
    exact congrArg Prod.fst (buildWith_entry_of_leaf h2 hleaf)
  have hcost : s.weightedLength (buildWith Config.tieDraw s).codeAt = s.pathCost place := by
    rw [weightedLength_eq]
    exact Finset.sum_congr rfl fun sym hsym => by rw [hcode sym (List.mem_toFinset.mp hsym)]
  obtain ⟨M, len, -, hle⟩ := ho c hc
  exact hcost.trans_le ((Nat.le_add_right _ _).trans hle)

end Sys2Proof.Machine
end

section
/-! PROOFS. Which codes LOADC takes (spec/42_tree.md R170): those that leave the tree at an internal node, where there is room for
the nodes they need. -/

namespace Sys2Proof.Machine

/-! ### One turn of the walk -/

section
variable {sym : Byte} {side : Bool} {rest : Bits} {cur ch : NodeIdx} {a : Arena} {n : Nat}

theorem loadWalk_follow (hch : (a.at cur).child side = some ch) (hne : rest ≠ []) (hinternal : (a.at ch).isLeaf = false) :
    loadWalk sym (side :: rest) cur a n = loadWalk sym rest ch a n := by
  rw [loadWalk]
  cases hc : a.at cur with
  | leaf y f =>
    rw [hc] at hch
    cases hch
  | internal f l r =>
    rw [hc] at hch
    simp [hch, hne, hinternal]

/-- The node LOADC makes for a bit of its code: the leaf for the last bit, else an internal node (R170). -/
def loadNode (sym : Byte) (rest : Bits) : Node := if rest.isEmpty then .leaf sym 0 else .internal 0 none none

theorem loadNode_internal (hne : rest ≠ []) : loadNode sym rest = .internal 0 none none := by
  simp [loadNode, hne]

theorem loadWalk_graft (hinternal : (a.at cur).isLeaf = false) (hfree : (a.at cur).child side = none)
    (hn : n < Config.nodeCap) : loadWalk sym (side :: rest) cur a n =
      if rest = [] then some (a.graft cur side n (loadNode sym rest), n + 1)
      else loadWalk sym rest (idxOf n) (a.graft cur side n (loadNode sym rest)) (n + 1) := by
  rw [loadWalk, Arena.graft]
  cases hc : a.at cur with
  | leaf y f =>
    rw [hc] at hinternal
    cases hinternal
  | internal f l r =>
    rw [hc] at hfree
    simp [hfree, Nat.not_le.mpr hn, loadNode]

end

/-! ### Where a code leaves the tree -/

/-- A code that begins with `p` and `side` leaves the tree below `cur` there: `p` leads to an internal node without that child. -/
def Arena.LeavesAt (a : Arena) (cur : NodeIdx) (p : Bits) (side : Bool) : Prop :=
  ∃ k, a.walk cur p = some k ∧ (a.at k).isLeaf = false ∧ (a.at k).child side = none

section
variable {a : Arena} {n : Nat} {root cur ch : NodeIdx} {p : Bits} {side b : Bool}

theorem Arena.leavesAt_nil : a.LeavesAt cur [] side ↔ (a.at cur).isLeaf = false ∧ (a.at cur).child side = none := by
  simp [Arena.LeavesAt]

theorem Arena.leavesAt_cons : a.LeavesAt cur (b :: p) side ↔ ∃ ch, (a.at cur).child b = some ch ∧ a.LeavesAt ch p side := by
  simp only [Arena.LeavesAt, Arena.walk_cons_eq_some]
  constructor
  · rintro ⟨k, ⟨ch, hch, hk⟩, hfree⟩
    exact ⟨ch, hch, k, hk, hfree⟩
  · rintro ⟨ch, hch, k, hk, hfree⟩
    exact ⟨k, ⟨ch, hch, hk⟩, hfree⟩

/-- A leaf below an internal node is not the node itself. -/
theorem Arena.LeafAt.ne_nil {y : Byte} {f : BitVec 40} (h : a.LeafAt cur p y f) (hinternal : (a.at cur).isLeaf = false) :
    p ≠ [] := by
  rintro rfl
  obtain ⟨j, hj, hl⟩ := h
  cases Option.some.inj hj
  rw [hl] at hinternal
  cases hinternal

/-- A code leaves the tree below internal nodes only. -/
theorem Arena.LeavesAt.internal (h : a.LeavesAt cur p side) : (a.at cur).isLeaf = false := by
  cases p with
  | nil => exact (Arena.leavesAt_nil.mp h).1
  | cons b p =>
    obtain ⟨ch, hch, -⟩ := Arena.leavesAt_cons.mp h
    by_contra hl
    rw [Node.child_eq_none_of_isLeaf (Bool.eq_true_of_not_eq_false hl)] at hch
    cases hch

/-- The bits before it leaves are the ones that follow edges of the tree. -/
theorem Arena.LeavesAt.sharedBits (h : a.LeavesAt cur p side) (rest : Bits) :
    a.sharedBits cur (p ++ side :: rest) = p.length := by
  induction p generalizing cur with
  | nil => rw [List.nil_append, Arena.sharedBits, (Arena.leavesAt_nil.mp h).2, List.length_nil]
  | cons b p ih =>
    obtain ⟨ch, hch, h⟩ := Arena.leavesAt_cons.mp h
    rw [List.cons_append, Arena.sharedBits, hch, List.length_cons]
    exact congrArg (· + 1) (ih h)

/-- A code that leaves the tree passes no leaf, and no leaf stands at its end or below it. -/
theorem Arena.LeavesAt.not_comparable (h : a.LeavesAt cur p side) {q : Bits} {y : Byte} {f : BitVec 40}
    (hq : a.LeafAt cur q y f) (rest : Bits) : ¬ comparable q (p ++ side :: rest) := by
  obtain ⟨k, hk, hinternal, hfree⟩ := h
  obtain ⟨j, hj, hl⟩ := hq
  have hhere : ¬ q <+: p := by
    rintro ⟨r, rfl⟩
    rw [Arena.walk_append, hj, Option.bind_some] at hk
    obtain ⟨-, rfl⟩ := Arena.walk_of_isLeaf (Node.isLeaf_of_eq_leaf hl) hk
    rw [hl] at hinternal
    cases hinternal
  have hbeyond : ¬ p ++ [side] <+: q := by
    rintro ⟨r, rfl⟩
    rw [List.append_assoc, Arena.walk_append, hk, Option.bind_some, List.singleton_append, Arena.walk_cons, hfree] at hj
    cases hj
  have hside : p ++ [side] <+: p ++ side :: rest := ⟨rest, by simp⟩
  rintro (h | h)
  · rcases List.prefix_or_prefix_of_prefix h hside with h | h
    · rcases List.prefix_concat_iff.mp h with rfl | h
      · exact hbeyond List.prefix_rfl
      · exact hhere h
    · exact hbeyond h
  · exact hbeyond (hside.trans h)

/-! ### LOADC's walk takes the codes that leave the tree -/

/-- A code that LOADC's walk takes leaves the tree, and needs a node for each bit from there on (R170). -/
theorem loadWalk_leaves {sym : Byte} {c : Bits} {a' : Arena} {n' : Nat} (hc : a.Closed n) (hcur : cur.val < n)
    (h : loadWalk sym c cur a n = some (a', n')) :
    ∃ p side rest, c = p ++ side :: rest ∧ a.LeavesAt cur p side ∧ n' = n + (rest.length + 1) := by
  induction c generalizing cur a n with
  | nil => simp [loadWalk] at h
  | cons b rest ih =>
    obtain ⟨hinternal, ⟨hfree, hn, ⟨rfl, rfl, -⟩ | ⟨-, hw⟩⟩ | ⟨ch, hch, -, -, hw⟩⟩ := loadWalk_cases h
    · exact ⟨[], b, [], rfl, Arena.leavesAt_nil.mpr ⟨hinternal, hfree⟩, rfl⟩
    · have hx : ∀ d, (Node.internal 0 none none).child d = none := fun d => by cases d <;> rfl
      have hnew := Arena.graft_at_new (a := a) (side := b) (x := .internal 0 none none) hn hcur
      obtain ⟨p, side, rest', hrest, ⟨k, hk, -⟩, hcount⟩ :=
        ih (a := a.graft cur b n (.internal 0 none none)) (Arena.graft_closed hc hn hcur hinternal hx)
          (by rw [idxOf_val n hn]; exact Nat.lt_succ_self n) hw
      obtain ⟨rfl, -⟩ := Arena.walk_of_childless (by rwa [hnew]) hk
      refine ⟨[], b, rest, rfl, Arena.leavesAt_nil.mpr ⟨hinternal, hfree⟩, ?_⟩
      rw [hcount, hrest, List.nil_append, List.length_cons]
      omega
    · obtain ⟨p, side, rest', rfl, hleaves, hcount⟩ := ih hc (hc cur hcur b ch hch) hw
      exact ⟨b :: p, side, rest', rfl, Arena.leavesAt_cons.mpr ⟨ch, hch, hleaves⟩, hcount⟩

/-- From where the code leaves the tree on, LOADC makes a node per bit, while there is room (R170). -/
theorem loadWalk_of_free (sym : Byte) {rest : Bits} (hcur : cur.val < n) (hinternal : (a.at cur).isLeaf = false)
    (hfree : (a.at cur).child side = none) (hroom : n + (rest.length + 1) ≤ Config.nodeCap) :
    ∃ r, loadWalk sym (side :: rest) cur a n = some r := by
  induction rest generalizing cur side a n with
  | nil => exact ⟨_, loadWalk_graft hinternal hfree hroom⟩
  | cons b rest ih =>
    rw [List.length_cons] at hroom
    have hn : n < Config.nodeCap := by omega
    have hnew := Arena.graft_at_new (a := a) (side := side) (x := loadNode sym (b :: rest)) hn hcur
    rw [loadWalk_graft hinternal hfree hn, if_neg (List.cons_ne_nil b rest)]
    rw [loadNode_internal (List.cons_ne_nil b rest)] at hnew ⊢
    refine ih (by rw [idxOf_val n hn]; exact Nat.lt_succ_self n) ?_ ?_ (by omega) <;> rw [hnew]
    · rfl
    · cases b <;> rfl

theorem loadWalk_of_leavesAt (sym : Byte) {rest : Bits} (hc : a.Closed n) (hcur : cur.val < n)
    (h : a.LeavesAt cur p side) (hroom : n + (rest.length + 1) ≤ Config.nodeCap) :
    ∃ r, loadWalk sym (p ++ side :: rest) cur a n = some r := by
  induction p generalizing cur with
  | nil =>
    obtain ⟨hinternal, hfree⟩ := Arena.leavesAt_nil.mp h
    exact loadWalk_of_free sym hcur hinternal hfree hroom
  | cons b p ih =>
    obtain ⟨ch, hch, h⟩ := Arena.leavesAt_cons.mp h
    rw [List.cons_append, loadWalk_follow hch (by simp) h.internal]
    exact ih (hc cur hcur b ch hch) h

/-! ### A code leaves the tree or meets a leaf -/

/-- No path from the root of a tree is longer than the arena has entries, since it passes each entry once. -/
theorem Arena.Spans.walk_length (h : a.Spans n [root]) {i : NodeIdx} (hp : a.walk root p = some i) :
    p.length < Config.nodeCap := by
  have hsome : ∀ k, ∃ j, a.walk root (p.take k) = some j := by
    intro k
    rw [← List.take_append_drop k p, Arena.walk_append, Option.bind_eq_some_iff] at hp
    exact ⟨_, hp.choose_spec.1⟩
  choose node hnode using hsome
  have hinj : Function.Injective fun k : Fin (p.length + 1) => node k := by
    intro k k' (e : node k = node k')
    have hmem := List.mem_singleton_self root
    have htake := congrArg List.length (h.once root hmem root hmem _ _ _ (hnode k) (e ▸ hnode k')).2
    rw [List.length_take, List.length_take] at htake
    exact Fin.ext (by omega)
  simpa using Fintype.card_le_of_injective _ hinj

/-- Below every node but the root there is a leaf (R170: no node is a dead end). -/
theorem Arena.Spans.exists_leaf (h : a.Spans n [root]) (hfruit : a.FruitfulOff n (· = root)) {i : NodeIdx}
    (hp : a.walk root p = some i) (hne : p ≠ []) : ∃ q y f, a.LeafAt i q y f := by
  induction hd : Config.nodeCap - p.length using Nat.strong_induction_on generalizing p i with
  | _ d ih =>
    have hmem := List.mem_singleton_self root
    have hlen := h.walk_length hp
    cases hi : a.at i with
    | leaf y f => exact ⟨[], y, f, i, rfl, hi⟩
    | internal g l r =>
      have hroot : i ≠ root := fun e => hne (h.once root hmem root hmem p [] i hp (e ▸ rfl)).2
      obtain ⟨b, j, hj⟩ := hfruit i (h.closed.walk_lt (h.rootLt root hmem) hp) hroot (by rw [hi]; rfl)
      obtain ⟨q, y, f, k, hk, hl⟩ := ih _ (by rw [List.length_append, List.length_singleton]; omega)
        (Arena.walk_concat_eq_some.mpr ⟨i, hp, hj⟩) (by simp) rfl
      exact ⟨b :: q, y, f, k, Arena.walk_cons_eq_some.mpr ⟨j, hj, hk⟩, hl⟩

/-- A code that does not leave the tree at an internal node is comparable with the path to a leaf. -/
theorem Arena.Spans.leaves_or_comparable (h : a.Spans n [root]) (hfruit : a.FruitfulOff n (· = root)) {c : Bits}
    (hp : a.walk root p = some cur) (hinternal : (a.at cur).isLeaf = false) (hne : p ≠ [] ∨ c ≠ []) :
    (∃ q side rest, c = q ++ side :: rest ∧ a.LeavesAt cur q side) ∨
      ∃ q y f, a.LeafAt cur q y f ∧ comparable q c := by
  induction c generalizing p cur with
  | nil =>
    obtain ⟨q, y, f, hq⟩ := h.exists_leaf hfruit hp (hne.resolve_right (not_not.mpr rfl))
    exact .inr ⟨q, y, f, hq, .inr List.nil_prefix⟩
  | cons b c ih =>
    cases hch : (a.at cur).child b with
    | none => exact .inl ⟨[], b, c, rfl, Arena.leavesAt_nil.mpr ⟨hinternal, hch⟩⟩
    | some ch =>
      cases hl : a.at ch with
      | leaf y f =>
        exact .inr ⟨[b], y, f, ⟨ch, Arena.walk_cons_eq_some.mpr ⟨ch, hch, rfl⟩, hl⟩, .inl ⟨c, rfl⟩⟩
      | internal g l r =>
        rcases ih (Arena.walk_concat_eq_some.mpr ⟨cur, hp, hch⟩) (by rw [hl]; rfl) (.inl (by simp)) with
          ⟨q, side, rest, rfl, hq⟩ | ⟨q, y, f, ⟨k, hk, hlk⟩, hcomp⟩
        · exact .inl ⟨b :: q, side, rest, rfl, Arena.leavesAt_cons.mpr ⟨ch, hch, hq⟩⟩
        · exact .inr ⟨b :: q, y, f, ⟨k, Arena.walk_cons_eq_some.mpr ⟨ch, hch, hk⟩, hlk⟩,
            hcomp.imp (List.cons_prefix_cons.mpr ⟨rfl, ·⟩) (List.cons_prefix_cons.mpr ⟨rfl, ·⟩)⟩

end

/-! ### The command -/

section
variable {s : State} {sym : Byte} {c : Bits}

/-- Where LOADC's walk starts, and what it needs from there: with no tree it makes the root (R170). -/
theorem loadRoot_exists (h : s.TreeInv) (c : Bits) : ∃ root a n, loadRoot s = some (root, a, n) ∧
    n + (c.length - a.sharedBits root c) = s.nodeCount.toNat + s.newNodes c := by
  unfold loadRoot State.newNodes
  cases hv : s.rootV with
  | true => exact ⟨_, _, _, rfl, rfl⟩
  | false =>
    obtain ⟨-, -, hcnt, -⟩ := h.absent hv
    rw [hcnt]
    refine ⟨_, _, _, rfl, ?_⟩
    have hshared : Arena.sharedBits (Arena.put s.node (idxOf 0) (.internal 0 none none)) (idxOf 0) c = 0 := by
      cases c with
      | nil => rfl
      | cons b c => rw [Arena.sharedBits, Arena.at_put_same]; cases b <;> rfl
    change 0 + 1 + (c.length - Arena.sharedBits (Arena.put s.node (idxOf 0) (.internal 0 none none)) (idxOf 0) c) =
      0 + (c.length + 1)
    omega

/-- A code that LOADC takes is comparable with no other, and there is room for the nodes it needs (R170). -/
theorem loadTree_some (h : s.TreeInv) (hts : s.tstate ≠ .built) {root : NodeIdx} {a' : Arena} {n' : Nat}
    (htree : loadTree sym c s = some (root, a', n')) :
    n' = s.nodeCount.toNat + s.newNodes c ∧ n' ≤ Config.nodeCap ∧
      ∀ o, s.clenAt o ≠ 0 → ¬ comparable (s.codeAt o) c := by
  obtain ⟨a, n, hroot, hwalk⟩ := loadTree_cases htree
  obtain ⟨root₀, a₀, n₀, hroot₀, hneed⟩ := loadRoot_exists h c
  cases hroot₀.symm.trans hroot
  obtain ⟨hspan, -, hinternal, hcoded, hpath⟩ := loadRoot_spec h hts hroot
  obtain ⟨p, side, rest, rfl, hleaves, hcount⟩ :=
    loadWalk_leaves hspan.closed (hspan.rootLt root (List.mem_singleton_self root)) hwalk
  obtain ⟨-, -, hcap⟩ := loadWalk_count hwalk
  refine ⟨?_, hcap, fun o ho => ?_⟩
  · rw [hleaves.sharedBits, List.length_append, List.length_cons] at hneed
    omega
  · obtain ⟨q, f, hq⟩ := (hcoded o).mp ho
    rw [hpath q o f hq (hq.ne_nil hinternal)]
    exact hleaves.not_comparable hq rest

/-- LOADC takes every other code. -/
theorem loadTree_exists (h : s.TreeInv) (hts : s.tstate ≠ .built) (hpos : c ≠ [])
    (hfree : ∀ o, s.clenAt o ≠ 0 → ¬ comparable (s.codeAt o) c)
    (hroom : s.nodeCount.toNat + s.newNodes c ≤ Config.nodeCap) : loadTree sym c s ≠ none := by
  obtain ⟨root, a, n, hroot, hneed⟩ := loadRoot_exists h c
  obtain ⟨hspan, hfruit, hinternal, hcoded, hpath⟩ := loadRoot_spec h hts hroot
  rcases hspan.leaves_or_comparable hfruit (Arena.walk_nil a root) hinternal (.inr hpos) with
    ⟨p, side, rest, rfl, hleaves⟩ | ⟨q, y, f, hq, hcomp⟩
  · rw [hleaves.sharedBits, List.length_append, List.length_cons] at hneed
    obtain ⟨⟨a', n'⟩, hwalk⟩ := loadWalk_of_leavesAt sym (rest := rest) hspan.closed
      (hspan.rootLt root (List.mem_singleton_self root)) hleaves (by omega)
    simp [loadTree, hroot, hwalk]
  · rw [← hpath q y f hq (hq.ne_nil hinternal)] at hcomp
    exact absurd hcomp (hfree y ((hcoded y).mpr ⟨q, f, hq⟩))

end

/-- Settles O33: LOADC's walk takes exactly the codes that leave the tree where there is room. -/
theorem loadcTakesExactlyCompatibleCodes : Obligations.LoadcTakesExactlyCompatibleCodes := by
  unfold Obligations.LoadcTakesExactlyCompatibleCodes
  intro sym len s hs hts hlen hsym
  have hpos : loadCode len s ≠ [] := fun h0 => hlen (BitVec.eq_of_toNat_eq (by rw [← loadCode_length len s, h0]; rfl))
  have hlt : (loadCode len s).length < 256 := by rw [loadCode_length]; exact len.isLt
  rw [← raise_load]
  rcases execLoadc_cases sym len s with ⟨hbuilt, -⟩ | ⟨-, hwhy, e⟩ | ⟨-, -, -, root, a, n, htree, e⟩
  · exact absurd hbuilt hts
  · refine ⟨fun _ => e, fun _ => e, fun hfree hroom => ?_⟩
    exact absurd ((hwhy.resolve_left hlen).resolve_left (not_not.mpr hsym)) (loadTree_exists hs hts hpos hfree hroom)
  · obtain ⟨hcount, hcap, hfree⟩ := loadTree_some hs hts htree
    refine ⟨fun ⟨o, ho, hcomp⟩ => absurd hcomp (hfree o ho), fun hfull => absurd (hcount ▸ hcap) (Nat.not_le.mpr hfull),
      fun _ _ => ⟨s.loaded sym (loadCode len s) root a n, e, rfl, rfl, rfl, ?_, ?_, fun o ho => ⟨?_, ?_⟩, ?_, rfl, ?_⟩⟩
    · rw [loaded_codeAt, if_pos rfl]
    · rw [loaded_clenAt, if_pos rfl, ofNat_loadCode_length]
    · rw [loaded_codeAt, if_neg ho]
    · rw [loaded_clenAt, if_neg ho]
    · have hcodes : (s.loaded sym (loadCode len s) root a n).codeCount = s.codeCount + 1 :=
        codeCount_setCode hsym (clen_ne_zero hpos hlt)
      rw [(loaded_treeInv hs hts hlt hpos hsym htree).counted, hcodes, hs.counted]
    · rw [← hcount]
      exact (BitVec.toNat_ofNat n 10).trans (Nat.mod_eq_of_lt (Nat.lt_of_le_of_lt hcap (by decide)))

end Sys2Proof.Machine
end

section
/-! PROOFS. The packed form of a bit string (spec/20_memory.md R88, spec/44_packer.md R201), the packer's append seen from outside
(R200), and ENC, which appends a symbol's code (spec/43_encoder.md R190, R191). -/

namespace Sys2Proof.Machine

/-! ### Packed bytes -/

/-- A byte of the packed form is known by its bits, counted from bit 7 down. -/
theorem eq_packedByte_iff {a : Byte} {B : Bits} {k : Nat} :
    a = packedByte B k ↔ ∀ j, j < 8 → a.getLsbD (7 - j) = B.getD (8 * k + j) false := by
  constructor
  · rintro rfl j hj
    exact packedByte_getLsbD B k j hj
  · intro h
    refine byte_ext fun j hj => ?_
    have hbit := (h (7 - j) (by omega)).trans (packedByte_getLsbD B k (7 - j) (by omega)).symm
    rwa [show 7 - (7 - j) = j by omega] at hbit

/-- Bits past a whole byte do not reach it. -/
theorem packedByte_append {B : Bits} {k : Nat} (h : 8 * k + 8 ≤ B.length) (c : Bits) :
    packedByte (B ++ c) k = packedByte B k :=
  eq_packedByte_iff.mpr fun j hj => by
    rw [packedByte_getLsbD _ _ _ hj, List.getD_append _ _ _ _ (by omega)]

/-- Dropping whole bytes shifts the packed form. -/
theorem packedByte_drop (B : Bits) (q k : Nat) : packedByte (B.drop (8 * q)) k = packedByte B (q + k) :=
  eq_packedByte_iff.mpr fun j hj => by
    rw [packedByte_getLsbD _ _ _ hj, List.getD_eq_getElem?_getD, List.getElem?_drop,
      ← Nat.add_assoc, ← Nat.mul_add, List.getD_eq_getElem?_getD]

/-- The valid bits of a packed byte are the bits that it packs (R88, R221). -/
theorem byteBits_packedByte {B : Bits} {k nv : Nat} (hnv : nv ≤ 8) (hlen : 8 * k + nv ≤ B.length) :
    byteBits nv (packedByte B k) = (B.drop (8 * k)).take nv := by
  refine List.ext_getElem (by simp; omega) fun j hj _ => ?_
  rw [byteBits_length] at hj
  have hbit := packedByte_getLsbD B k j (by omega)
  rw [List.getD_eq_getElem _ _ (by omega)] at hbit
  simpa [byteBits] using hbit

/-- The whole bytes of a bit string. -/
def wholeBytes (B : Bits) : List Byte := (List.range (B.length / 8)).map (packedByte B)

/-- The bits that fill no whole byte, as a byte padded with 0. -/
def restByte (B : Bits) : Byte := packedByte B (B.length / 8)

/-- The bits that fill no whole byte. -/
def restBits (B : Bits) : Bits := B.drop (8 * (B.length / 8))

theorem append_length_div_eight (B c : Bits) :
    (B ++ c).length / 8 = B.length / 8 + (restBits B ++ c).length / 8 := by
  have := Nat.mul_div_le B.length 8
  rw [restBits, List.length_append, List.length_append, List.length_drop]
  omega

theorem packedByte_restBits_append (B c : Bits) (k : Nat) :
    packedByte (restBits B ++ c) k = packedByte (B ++ c) (B.length / 8 + k) := by
  rw [restBits, ← List.drop_append_of_le_length (Nat.mul_div_le _ _), packedByte_drop]

/-- Whole bytes stay as they are while bits are appended: the bits left over and the new ones make the rest. -/
theorem wholeBytes_append (B c : Bits) : wholeBytes (B ++ c) = wholeBytes B ++ wholeBytes (restBits B ++ c) := by
  have hold : ∀ k ∈ List.range (B.length / 8), packedByte (B ++ c) k = packedByte B k := fun k hk => by
    have := List.mem_range.mp hk
    exact packedByte_append (by omega) c
  rw [wholeBytes, append_length_div_eight, List.range_add, List.map_append, List.map_congr_left hold, List.map_map]
  exact congrArg (wholeBytes B ++ ·) (List.map_congr_left fun k _ => (packedByte_restBits_append B c k).symm)

theorem restByte_append (B c : Bits) : restByte (restBits B ++ c) = restByte (B ++ c) := by
  rw [restByte, packedByte_restBits_append, ← append_length_div_eight, restByte]

/-! ### The packer's append -/

/-- The bits of the block that ACC still holds (R49). -/
def State.pendingBits (s : State) : Bits := byteBits (s.pkNbits.toNat % 8) s.acc

@[simp] theorem pendingBits_length (s : State) : s.pendingBits.length = s.pkNbits.toNat % 8 := byteBits_length _ _

theorem pendingBits_of_empty {s : State} (h : s.pkNbits = 0) : s.pendingBits = [] :=
  List.length_eq_zero_iff.mp (by rw [pendingBits_length, h]; rfl)

theorem appendedBlock_eq (c : Bits) (s : State) : appendedBlock c s =
    { s with
      outq := s.outq ++ wholeBytes (s.pendingBits ++ c)
      acc := restByte (s.pendingBits ++ c)
      pkNbits := s.pkNbits + BitVec.ofNat 64 c.length } := rfl

/-- R49: the unfilled bits of ACC are 0, so ACC is its pending bits' packed byte. -/
theorem State.PackerInv.acc_eq {s : State} (h : s.PackerInv) : s.acc = packedByte s.pendingBits 0 :=
  eq_packedByte_iff.mpr fun j hj => by
    by_cases hr : j < s.pkNbits.toNat % 8
    · simp [State.pendingBits, byteBits_getElem? _ _ _ hr, List.getD]
    · rw [List.getD_eq_default _ _ (by rw [State.pendingBits, byteBits_length]; omega)]
      exact h _ (by omega)

/-- Where in a byte the next bit goes, however the count wraps (R200). -/
theorem pkNbits_add_mod (n : BitVec 64) (k : Nat) : (n + BitVec.ofNat 64 k).toNat % 8 = (n.toNat + k) % 8 := by
  rw [BitVec.toNat_add, BitVec.toNat_ofNat]
  omega

/-- After an append the bits that filled no byte are pending. -/
theorem appendedBlock_pendingBits (c : Bits) (s : State) :
    (appendedBlock c s).pendingBits = restBits (s.pendingBits ++ c) := by
  have hlen : (s.pendingBits ++ c).length = s.pkNbits.toNat % 8 + c.length := by
    rw [List.length_append, pendingBits_length]
  have hmod : (appendedBlock c s).pkNbits.toNat % 8 = (s.pendingBits ++ c).length % 8 := by
    rw [appendedBlock_eq, pkNbits_add_mod, hlen]
    omega
  rw [State.pendingBits, hmod, appendedBlock_eq, restByte, byteBits_packedByte (by omega) (by omega), restBits,
    List.take_of_length_le (by rw [List.length_drop]; omega)]

/-- Two appends are one append of both bit strings (R200, R201). -/
theorem appendedBlock_append (c d : Bits) (s : State) :
    appendedBlock (c ++ d) s = appendedBlock d (appendedBlock c s) := by
  rw [appendedBlock_eq d, appendedBlock_pendingBits, restByte_append, appendedBlock_eq c, appendedBlock_eq (c ++ d),
    ← List.append_assoc s.pendingBits, wholeBytes_append, ← List.append_assoc s.outq, List.length_append, BitVec.ofNat_add,
    ← BitVec.add_assoc]

theorem appendedBlock_nil {s : State} (h : s.PackerInv) : appendedBlock [] s = s := by
  have hzero : s.pendingBits.length / 8 = 0 := by
    rw [pendingBits_length]
    omega
  rw [appendedBlock_eq, List.append_nil, wholeBytes, restByte, hzero, ← h.acc_eq]
  simp

/-- The next bit goes to the highest unfilled position (R200). -/
theorem setBit_acc_eq {s : State} (h : s.PackerInv) (b : Bool) :
    setBit s.acc (7 - s.pkNbits.toNat % 8) b = packedByte (s.pendingBits ++ [b]) 0 := by
  have hlen := pendingBits_length s
  refine eq_packedByte_iff.mpr fun j hj => ?_
  rw [setBit_getLsbD _ _ _ _ (by omega), h.acc_eq, packedByte_getLsbD _ _ _ hj]
  rcases Nat.lt_trichotomy j (s.pkNbits.toNat % 8) with hlt | rfl | hgt
  · rw [if_neg (by omega), List.getD_append _ _ _ _ (by omega)]
  · rw [if_pos rfl, List.getD_append_right _ _ _ _ (by omega)]
    simp
  · rw [if_neg (by omega), List.getD_eq_default _ _ (by omega), List.getD_eq_default _ _ (by simp; omega)]

/-- One turn of R200's loop appends one bit. -/
theorem packBit_eq_appendedBlock {s : State} (h : s.PackerInv) (b : Bool) : packBit b s = appendedBlock [b] s := by
  have hlen : (s.pendingBits ++ [b]).length = s.pkNbits.toNat % 8 + 1 := by simp
  rw [packBit_eq, appendedBlock_eq, wholeBytes, restByte, hlen, pkNbits_succ_mod, setBit_acc_eq h]
  split
  · have hfull : (s.pkNbits.toNat % 8 + 1) / 8 = 1 := by omega
    have hzero : 0 = packedByte (s.pendingBits ++ [b]) 1 := eq_packedByte_iff.mpr fun j hj => by
      rw [List.getD_eq_default _ _ (by omega)]
      exact BitVec.getLsbD_zero
    rw [hfull, ← hzero]
    rfl
  · have hpart : (s.pkNbits.toNat % 8 + 1) / 8 = 0 := by omega
    rw [hpart, List.range_zero, List.map_nil, List.append_nil]
    rfl

/-- R200's loop pushes the whole bytes of the pending bits followed by the appended ones. -/
theorem packAll_eq_appendedBlock (c : Bits) {s : State} (h : s.PackerInv) : packAll c s = appendedBlock c s := by
  induction c generalizing s with
  | nil => exact (appendedBlock_nil h).symm
  | cons b bs ih =>
    rw [packAll, ih (packBit_packerInv h), packBit_eq_appendedBlock h, ← appendedBlock_append, List.singleton_append]

theorem packBits_of_fits {c : Bits} {s : State} (h : s.PackerInv) (hfits : s.pkNbits.toNat + c.length ≤ Config.bitCountMax) :
    packBits c s = appendedBlock c s := by
  rcases packBits_cases c s with ⟨-, e⟩ | ⟨hlt, -⟩
  · rw [e, packAll_eq_appendedBlock c h]
  · exact absurd hfits (Nat.not_le.mpr hlt)

theorem packBits_of_overflow {c : Bits} {s : State} (h : Config.bitCountMax < s.pkNbits.toNat + c.length) :
    packBits c s = raise .bitcntOvf s := by
  rcases packBits_cases c s with ⟨hle, -⟩ | ⟨-, e⟩
  · exact absurd hle (Nat.not_le.mpr h)
  · exact e

theorem appendedBlock_packerInv {c : Bits} {s : State} (h : s.PackerInv) : (appendedBlock c s).PackerInv := by
  rw [← packAll_eq_appendedBlock c h]
  exact packAll_packerInv h

/-- The count of a block after an append that fits. -/
theorem appendedBlock_pkNbits_toNat {c : Bits} {s : State} (h : s.pkNbits.toNat + c.length ≤ Config.bitCountMax) :
    (appendedBlock c s).pkNbits.toNat = s.pkNbits.toNat + c.length := by
  have hmax : Config.bitCountMax = 2 ^ 64 - 1 := rfl
  rw [appendedBlock_eq, BitVec.toNat_add, BitVec.toNat_ofNat]
  omega

/-! ### ENC -/

theorem exec_enc_of_no_code {sym : Byte} {s : State} (h : s.clenAt sym = 0) :
    exec (.enc sym) s = .next (raise .noCode s) := if_pos h

theorem exec_enc_of_code {sym : Byte} {s : State} (h : s.clenAt sym ≠ 0) :
    exec (.enc sym) s = .next (packBits (s.codeAt sym) s) := if_neg h

/-- Settles O34: the branch without a code, and the packer's overflow. -/
theorem encRaisesNoCodeOrOverflow : Obligations.EncRaisesNoCodeOrOverflow := by
  unfold Obligations.EncRaisesNoCodeOrOverflow
  intro sym s
  rw [← raise_noCode, ← raise_bitcntOvf]
  exact ⟨exec_enc_of_no_code, fun h hmax => by rw [exec_enc_of_code h, packBits_of_overflow hmax]⟩

/-- Settles O35: the append that fits. -/
theorem encAppendsTheCode : Obligations.EncAppendsTheCode := by
  unfold Obligations.EncAppendsTheCode
  intro sym s hp hcode hfits
  rw [exec_enc_of_code hcode, packBits_of_fits hp hfits]

/-- Settles O36, by induction on the sequence: each ENC leaves the code table alone, and two appends are one. -/
theorem encSequenceAppendsConcatenation : Obligations.EncSequenceAppendsConcatenation := by
  unfold Obligations.EncSequenceAppendsConcatenation
  intro S
  induction S with
  | nil => exact fun s hp _ _ => congrArg Host.Outcome.next (appendedBlock_nil hp).symm
  | cons x rest ih =>
    intro s hp hcoded hfits
    have hcodes : codesOf s (x :: rest) = s.codeAt x ++ codesOf s rest := List.flatMap_cons
    rw [hcodes, List.length_append] at hfits
    have hfirst : s.pkNbits.toNat + (s.codeAt x).length ≤ 2 ^ 64 - 1 := by omega
    have hrest : (appendedBlock (s.codeAt x) s).pkNbits.toNat + (codesOf s rest).length ≤ 2 ^ 64 - 1 := by
      rw [appendedBlock_pkNbits_toNat hfirst]
      omega
    rw [List.map_cons, execAll, encAppendsTheCode x s hp (hcoded x List.mem_cons_self) hfirst, hcodes, appendedBlock_append]
    exact ih _ (appendedBlock_packerInv hp) (fun y hy => hcoded y (List.mem_cons_of_mem x hy)) hrest

end Sys2Proof.Machine
end

section
/-! PROOFS. Decoding what the codes of a tree packed (spec/46_decoder.md R240, R241, R246 to R249): the walk down a code, a code
sequence, and the DECB commands of its packed bytes. -/

namespace Sys2Proof.Machine

/-! ### Lists of commands -/

theorem execAll_cons_of_next {i : Instr} {s t : State} (h : exec i s = .next t) (rest : List Instr) :
    execAll (i :: rest) s = execAll rest t := by
  rw [execAll, h]

/-- The commands of a list's first part can be run first. -/
theorem execAll_append {is js : List Instr} {s t : State} (h : execAll is s = .next t) :
    execAll (is ++ js) s = execAll js t := by
  induction is generalizing s with
  | nil => rw [List.nil_append, Host.Outcome.next.inj h]
  | cons i rest ih =>
    cases hi : exec i s with
    | next u =>
      rw [execAll_cons_of_next hi] at h
      rw [List.cons_append, execAll_cons_of_next hi, ih h]
    | fault r => simp [execAll, hi] at h
    | refused r => simp [execAll, hi] at h

/-- One command after a list of them. -/
theorem execAll_concat {is : List Instr} {i : Instr} {s t u : State} (h : execAll is s = .next t) (hi : exec i t = .next u) :
    execAll (is ++ [i]) s = .next u := (execAll_append h).trans (execAll_cons_of_next hi [])

/-! ### The walk down a code -/

theorem decodeBits_cons (b : Bool) (bs : Bits) (s : State) :
    decodeBits (b :: bs) s = (decodeBit b s).bind (decodeBits bs) := by
  rw [decodeBits]
  cases decodeBit b s <;> rfl

theorem decodeBit_of_leaf_root {s : State} {sym : Byte} {f : BitVec 40} (h : s.nodeAt s.root = .leaf sym f) (b : Bool) :
    decodeBit b s = some (outPush sym s) := by
  rw [decodeBit, h]

/-- R240 at a present child: what the bit does depends on whether the child is a leaf. -/
theorem decodeBit_of_child {s : State} {b : Bool} {ch : NodeIdx} (hr : (s.nodeAt s.root).isLeaf = false)
    (hch : (s.nodeAt s.cur).child b = some ch) : ∃ t, decodeBit b s = some t ∧
      ((∃ sym f, s.nodeAt ch = .leaf sym f ∧ t = { outPush sym s with cur := s.root }) ∨
        ((s.nodeAt ch).isLeaf = false ∧ t = { s with cur := ch })) := by
  cases hb : decodeBit b s with
  | none =>
    obtain ⟨-, hleaf⟩ := decodeBit_none hb
    cases (Node.child_eq_none_of_isLeaf hleaf b).symm.trans hch
  | some t =>
    rcases decodeBit_cases hb with ⟨sym, f, hroot, -⟩ | ⟨-, -, ⟨hnone, -⟩ | ⟨ch', hch', hnext⟩⟩
    · cases (Node.isLeaf_of_eq_leaf hroot).symm.trans hr
    · cases hnone.symm.trans hch
    · cases hch'.symm.trans hch
      exact ⟨t, rfl, hnext⟩

theorem decodeBit_of_leaf_child {s : State} {b : Bool} {ch : NodeIdx} {sym : Byte} {f : BitVec 40}
    (hr : (s.nodeAt s.root).isLeaf = false) (hch : (s.nodeAt s.cur).child b = some ch) (hl : s.nodeAt ch = .leaf sym f) :
    decodeBit b s = some { outPush sym s with cur := s.root } := by
  obtain ⟨t, ht, ⟨sym', f', hl', rfl⟩ | ⟨hinternal, -⟩⟩ := decodeBit_of_child hr hch
  · cases hl'.symm.trans hl
    exact ht
  · cases (Node.isLeaf_of_eq_leaf hl).symm.trans hinternal

theorem decodeBit_of_internal_child {s : State} {b : Bool} {ch : NodeIdx} (hr : (s.nodeAt s.root).isLeaf = false)
    (hch : (s.nodeAt s.cur).child b = some ch) (hl : (s.nodeAt ch).isLeaf = false) :
    decodeBit b s = some { s with cur := ch } := by
  obtain ⟨t, ht, ⟨sym, f, hleaf, -⟩ | ⟨-, rfl⟩⟩ := decodeBit_of_child hr hch
  · cases (Node.isLeaf_of_eq_leaf hleaf).symm.trans hl
  · exact ht

/-- The bits of a path from the cursor to a leaf push its symbol and bring the cursor back to the root (R240). -/
theorem decodeBits_of_walk {s : State} {p : Bits} {i : NodeIdx} {sym : Byte} {f : BitVec 40}
    (hr : (s.nodeAt s.root).isLeaf = false) (hp : p ≠ []) (hw : Arena.walk s.node s.cur p = some i)
    (hl : s.nodeAt i = .leaf sym f) : decodeBits p s = some { outPush sym s with cur := s.root } := by
  induction p generalizing s with
  | nil => exact absurd rfl hp
  | cons b rest ih =>
    obtain ⟨ch, hch, hrest⟩ := Arena.walk_cons_eq_some.mp hw
    by_cases hnil : rest = []
    · subst hnil
      cases Option.some.inj hrest
      rw [decodeBits_cons, decodeBit_of_leaf_child hr hch hl]
      rfl
    · have hinternal : (s.nodeAt ch).isLeaf = false :=
        Bool.eq_false_of_not_eq_true fun hleaf => hnil (Arena.walk_of_isLeaf hleaf hrest).1
      rw [decodeBits_cons, decodeBit_of_internal_child hr hch hinternal]
      exact ih (s := { s with cur := ch }) hr hnil hrest hl

theorem State.TreeInv.rootV_of_coded {s : State} (h : s.TreeInv) {sym : Byte} (hc : s.clenAt sym ≠ 0) :
    s.rootV = true := by
  cases hv : s.rootV with
  | true => rfl
  | false =>
    obtain ⟨-, -, -, hclen⟩ := h.absent hv
    exact absurd (hclen sym) hc

/-- A code decodes to its symbol, from the root back to it; so does the "0" of a lone leaf root (R163, R241). -/
theorem decodeBits_codeAt {s : State} (h : s.TreeInv) (hcur : s.cur = s.root) {sym : Byte} (hc : s.clenAt sym ≠ 0) :
    decodeBits (s.codeAt sym) s = some (outPush sym s) := by
  have hcodes := h.codesFromLeaves (h.rootV_of_coded hc)
  obtain ⟨p, f, hp⟩ := (hcodes.coded sym).mp hc
  rw [hcodes.path p sym f hp]
  obtain ⟨i, hw, hl⟩ := hp
  by_cases hnil : p = []
  · subst hnil
    cases Option.some.inj hw
    rw [if_pos rfl, decodeBits_cons, decodeBit_of_leaf_root hl]
    rfl
  · have hr : (s.nodeAt s.root).isLeaf = false :=
      Bool.eq_false_of_not_eq_true fun hleaf => hnil (Arena.walk_of_isLeaf hleaf hw).1
    have hback : { outPush sym s with cur := s.root } = outPush sym s := by rw [← hcur]; rfl
    rw [if_neg hnil, decodeBits_of_walk hr hnil (hcur ▸ hw) hl, hback]

/-- The codes of a sequence decode to the sequence (R249). -/
theorem decodeBits_codesOf {S : List Byte} {s : State} (h : s.TreeInv) (hcur : s.cur = s.root)
    (hS : ∀ x ∈ S, s.clenAt x ≠ 0) : decodeBits (codesOf s S) s = some { s with outq := s.outq ++ S } := by
  induction S generalizing s with
  | nil => rw [List.append_nil]; rfl
  | cons x rest ih =>
    have hpush : (outPush x s).TreeInv := h.congr ⟨rfl, rfl, rfl, rfl, rfl, rfl, rfl, rfl⟩ rfl
    have hrest := ih hpush hcur fun y hy => hS y (List.mem_cons_of_mem x hy)
    rw [codesOf, List.flatMap_cons, decodeBits_append, decodeBits_codeAt h hcur (hS x List.mem_cons_self), Option.bind_some]
    refine hrest.trans ?_
    simp only [outPush, List.append_assoc, List.singleton_append]

/-! ### DECB of packed bytes -/

/-- Induction on a bit string by the packed bytes it fills. -/
theorem packed_induction {motive : Bits → Prop} (nil : motive [])
    (byte : ∀ B, B ≠ [] → motive (B.drop 8) → motive B) (B : Bits) : motive B := by
  induction hn : B.length using Nat.strong_induction_on generalizing B with
  | _ n ih =>
    by_cases hB : B = []
    · exact hB ▸ nil
    · have hpos := List.length_pos_iff.mpr hB
      exact byte B hB (ih _ (by rw [List.length_drop]; omega) _ rfl)

theorem packedBytes_of_ne_nil {B : Bits} (h : B ≠ []) : packedBytes B = packedByte B 0 :: packedBytes (B.drop 8) := by
  have hpos := List.length_pos_iff.mpr h
  have hcount : (B.length + 7) / 8 = ((B.drop 8).length + 7) / 8 + 1 := by
    rw [List.length_drop]
    omega
  have hnext : ∀ k, packedByte (B.drop 8) k = packedByte B (k + 1) := fun k => by
    rw [Nat.add_comm k 1]
    exact packedByte_drop B 1 k
  rw [packedBytes, hcount, List.range_succ_eq_map, List.map_cons, List.map_map]
  exact congrArg _ (List.map_congr_left fun k _ => (hnext k).symm)

/-- The state with another UP_POS, which the walker does not read. -/
def State.setUpPos (s : State) (p : BitVec 64) : State := { s with upPos := p }

theorem decodeBit_setUpPos (b : Bool) (s : State) (p : BitVec 64) :
    decodeBit b (s.setUpPos p) = (decodeBit b s).map (·.setUpPos p) := by
  have hat : ∀ i, (s.setUpPos p).nodeAt i = s.nodeAt i := fun _ => rfl
  unfold decodeBit
  rw [hat, hat (s.setUpPos p).cur, show (s.setUpPos p).root = s.root from rfl, show (s.setUpPos p).cur = s.cur from rfl]
  cases s.nodeAt s.root with
  | leaf sym f => rfl
  | internal f l r =>
    cases s.nodeAt s.cur with
    | leaf sym g => rfl
    | internal g l' r' =>
      dsimp only
      cases (Node.internal g l' r').child b with
      | none => rfl
      | some ch =>
        dsimp only
        rw [hat]
        cases s.nodeAt ch <;> rfl

theorem decodeBits_setUpPos {bs : Bits} {s t : State} (h : decodeBits bs s = some t) (p : BitVec 64) :
    decodeBits bs (s.setUpPos p) = some (t.setUpPos p) := by
  induction bs generalizing s with
  | nil =>
    cases Option.some.inj h
    rfl
  | cons b bs ih =>
    rw [decodeBits_cons, Option.bind_eq_some_iff] at h
    obtain ⟨u, hu, hrest⟩ := h
    rw [decodeBits_cons, decodeBit_setUpPos, hu]
    exact ih hrest

/-- DECB of the next packed byte of a block decodes the next eight bits of its string, or those that are left (R246). -/
theorem exec_decb_packedByte {B : Bits} {s u : State} (hB : B ≠ []) (hv : s.rootV = true)
    (hleft : s.upEnd.toNat = s.upPos.toNat + B.length) (h : decodeBits (B.take 8) s = some u) :
    exec (.decb (packedByte B 0)) s = .next (u.setUpPos (unpackAdvance s).upPos) := by
  have hpos := List.length_pos_iff.mpr hB
  have hupLeft : s.upLeft = B.length := by
    rw [State.upLeft]
    omega
  have hupValid : s.upValid = min 8 B.length := by rw [State.upValid, hupLeft]
  have hbits : byteBits s.upValid (packedByte B 0) = B.take 8 := by
    rw [hupValid, byteBits_packedByte (by omega) (by omega), Nat.mul_zero, List.drop_zero, ← List.take_eq_take_min]
  have hdecode : decodeBits (B.take 8) (unpackAdvance s) = some (u.setUpPos (unpackAdvance s).upPos) :=
    decodeBits_setUpPos h _
  have hexec : exec (.decb (packedByte B 0)) s = execDecb (packedByte B 0) s := rfl
  rw [hexec, execDecb, if_neg (by omega), hv, if_neg (by simp), hbits, hdecode]

/-- The DECB commands of a block's packed bytes decode its bit string, and end at the block's end (R246). -/
theorem execAll_decb {B : Bits} {s t : State} (hv : B ≠ [] → s.rootV = true)
    (hleft : s.upEnd.toNat = s.upPos.toNat + B.length) (h : decodeBits B s = some t) :
    execAll ((packedBytes B).map .decb) s = .next (t.setUpPos s.upEnd) := by
  induction B using packed_induction generalizing s t with
  | nil =>
    have hend : s.upEnd = s.upPos := BitVec.eq_of_toNat_eq hleft
    rw [hend, ← Option.some.inj h]
    rfl
  | byte B hB ih =>
    rw [← List.take_append_drop 8 B, decodeBits_append, Option.bind_eq_some_iff] at h
    obtain ⟨u, hu, hrest⟩ := h
    obtain ⟨m, q, c, hframe⟩ := decodeBits_err_or hu
    have hvu : u.rootV = true := by
      rw [hframe]
      exact hv hB
    have hend : u.upEnd = s.upEnd := by rw [hframe]
    have hlt := s.upEnd.isLt
    have hleftu : (u.setUpPos (unpackAdvance s).upPos).upEnd.toNat =
        (u.setUpPos (unpackAdvance s).upPos).upPos.toNat + (B.drop 8).length := by
      simp only [State.setUpPos, unpackAdvance, State.upValid, State.upLeft, hend, BitVec.toNat_add, BitVec.toNat_ofNat,
        List.length_drop]
      omega
    rw [packedBytes_of_ne_nil hB, List.map_cons, execAll_cons_of_next (exec_decb_packedByte hB (hv hB) hleft hu)]
    refine (ih (s := u.setUpPos (unpackAdvance s).upPos) (fun _ => hvu) hleftu (decodeBits_setUpPos hrest _)).trans ?_
    rw [show (u.setUpPos (unpackAdvance s).upPos).upEnd = s.upEnd from hend]
    rfl

/-! ### A decompress run -/

/-- The state after USTART (R220). -/
def State.started (s : State) : State := { s with upEnd := s.upLimit, upPos := 0, upRawB := 0, upRawN := 0, cur := s.root }

theorem exec_ustart (s : State) : exec .ustart s = .next s.started := rfl

/-- DEND at the end of a complete block, with the cursor at the root, changes nothing (R248). -/
theorem exec_dend_of_complete {s : State} (hpos : s.upPos = s.upEnd) (hcur : s.cur = s.root) : exec .dend s = .next s := by
  have hshort : checkShort s = s := by rw [checkShort, hpos, if_neg (Nat.lt_irrefl _)]
  have htrunc : checkTrunc s = s := by rw [checkTrunc, if_neg fun h => h.2 hcur]
  have hexec : exec .dend s = .next { checkTrunc (checkShort s) with cur := s.root } := rfl
  rw [hexec, hshort, htrunc, ← hcur]

/-- R249: the packed codes of a sequence decode to it, with the tree that the codes came from; without a tree, to the empty
sequence. Nothing is raised. -/
theorem execAll_decompressCmds {S : List Byte} {s : State} (h : s.TreeInv) (hS : ∀ x ∈ S, s.clenAt x ≠ 0)
    (hlimit : s.upLimit.toNat = (codesOf s S).length) :
    execAll (decompressCmds (packedBytes (codesOf s S))) s =
      .next { s.started with upPos := s.upLimit, outq := s.outq ++ S } := by
  have hstart : s.started.TreeInv := exec_treeInv h (exec_ustart s)
  have hv : codesOf s S ≠ [] → s.started.rootV = true := fun hne => by
    cases S with
    | nil => exact absurd rfl hne
    | cons x rest => exact h.rootV_of_coded (hS x List.mem_cons_self)
  have hleft : s.started.upEnd.toNat = s.started.upPos.toNat + (codesOf s S).length :=
    hlimit.trans (Nat.zero_add _).symm
  have hdecode : decodeBits (codesOf s S) s.started = some { s.started with outq := s.outq ++ S } :=
    decodeBits_codesOf hstart rfl hS
  rw [decompressCmds, List.cons_append, execAll_cons_of_next (exec_ustart s)]
  exact execAll_concat (execAll_decb hv hleft hdecode) (exec_dend_of_complete rfl rfl)

end Sys2Proof.Machine
end

section
/-! PROOFS. The round trip (spec/43_encoder.md R192): what a compress run leaves behind, from CLEAR to FLUSH, and that a decompress
run undoes it. -/

namespace Sys2Proof.Machine

/-! ### The counters of a compress run -/

/-- COUNTs that saturate no counter raise nothing and add up the occurrences (R150, R151). -/
theorem foldl_counted {S : List Byte} {s : State} (hts : s.tstate = .empty)
    (h : ∀ b, (s.freqAt b).toNat + S.count b < 2 ^ 32) :
    ∃ f, S.foldl counted s = { s with freq := f } ∧
      ∀ b, ((S.foldl counted s).freqAt b).toNat = (s.freqAt b).toNat + S.count b := by
  induction S generalizing s with
  | nil => exact ⟨s.freq, rfl, fun b => rfl⟩
  | cons x rest ih =>
    have hmax : s.freqAt x ≠ 0xFFFFFFFF#32 := fun hx => by
      have hroom := h x
      rw [(eq_max_iff_toNat _).mp hx, List.count_cons_self] at hroom
      omega
    have hstep : ∀ b, ((counted s x).freqAt b).toNat + rest.count b = (s.freqAt b).toNat + (x :: rest).count b := fun b => by
      rw [counted_of_room hts hmax]
      by_cases hb : b = x
      · rw [hb, freqAt_setFreq_same, toNat_succ_of_ne_max hmax, List.count_cons_self]
        omega
      · rw [freqAt_setFreq_other _ _ _ _ hb, List.count_cons_of_ne (Ne.symm hb)]
    obtain ⟨f, hf, hsum⟩ := ih (s := counted s x) ((counted_tstate s x).trans hts) fun b => (hstep b).symm ▸ h b
    refine ⟨f, ?_, fun b => (hsum b).trans (hstep b)⟩
    rw [List.foldl_cons, hf, counted_of_room hts hmax]
    rfl

/-! ### FLUSH of a block -/

/-- The packed form is the whole bytes and the byte of the bits left over, if there are any (R201). -/
theorem packedBytes_eq (B : Bits) :
    packedBytes B = wholeBytes B ++ if B.length % 8 ≠ 0 then [restByte B] else [] := by
  split
  · have hcount : (B.length + 7) / 8 = B.length / 8 + 1 := by omega
    rw [packedBytes, hcount, List.range_succ, List.map_append]
    rfl
  · have hcount : (B.length + 7) / 8 = B.length / 8 := by omega
    rw [packedBytes, hcount, List.append_nil, wholeBytes]

theorem exec_flush (s : State) : exec .flush s = .next { s with
    outq := s.outq ++ if s.pkNbits.toNat % 8 ≠ 0 then [s.acc] else []
    pkTotal := s.pkNbits
    pkNbits := 0
    acc := 0 } := by
  have hexec : exec .flush s = execFlush s := rfl
  rw [hexec, execFlush]
  split
  · rfl
  · rw [List.append_nil]

/-- FLUSH of what was appended to an empty block leaves its packed form in the FIFO and its length in PK_TOTAL (R201, R207). -/
theorem exec_flush_appendedBlock {s : State} (h : s.pkNbits = 0) (c : Bits) :
    exec .flush (appendedBlock c s) = .next { s with
      outq := s.outq ++ packedBytes c
      pkTotal := BitVec.ofNat 64 c.length
      pkNbits := 0
      acc := 0 } := by
  have hn : (appendedBlock c s).pkNbits = BitVec.ofNat 64 c.length := by
    rw [appendedBlock_eq, h]
    exact BitVec.zero_add _
  have hmod : (appendedBlock c s).pkNbits.toNat % 8 = c.length % 8 := by
    rw [hn, BitVec.toNat_ofNat]
    omega
  have hacc : (appendedBlock c s).acc = restByte c := by rw [appendedBlock_eq, pendingBits_of_empty h, List.nil_append]
  have houtq : (appendedBlock c s).outq = s.outq ++ wholeBytes c := by
    rw [appendedBlock_eq, pendingBits_of_empty h, List.nil_append]
  rw [exec_flush, hmod, hacc, houtq, hn, List.append_assoc, ← packedBytes_eq]
  rfl

/-! ### A compress run -/

/-- The state after CLEAR, the COUNTs of a sequence and BUILD. -/
def State.prepared (s : State) (S : List Byte) : State := buildWith Config.tieDraw (S.foldl counted (cleared s))

theorem cleared_freqAt (s : State) (b : Byte) : (cleared s).freqAt b = 0 := freqAt_resetWith s.params b

section
variable {S : List Byte} (h : ∀ b, S.count b < 2 ^ 32) (s : State)
include h

theorem counted_cleared : ∃ f, S.foldl counted (cleared s) = { cleared s with freq := f } ∧
    ∀ b, ((S.foldl counted (cleared s)).freqAt b).toNat = S.count b := by
  have hzero : ∀ b, ((cleared s).freqAt b).toNat = 0 := fun b => by rw [cleared_freqAt]; rfl
  obtain ⟨f, hf, hsum⟩ := foldl_counted (S := S) (s := cleared s) rfl fun b => by rw [hzero, Nat.zero_add]; exact h b
  exact ⟨f, hf, fun b => by rw [hsum, hzero, Nat.zero_add]⟩

/-- Every symbol of the sequence has a code: its counter is not 0 (R160). -/
theorem prepared_coded : ∀ x ∈ S, (s.prepared S).clenAt x ≠ 0 := by
  obtain ⟨f, -, hsum⟩ := counted_cleared h s
  intro x hx
  rw [State.prepared, buildWith_clenAt_ne_zero_iff, mem_liveSyms]
  intro hzero
  have hcount := hsum x
  rw [hzero] at hcount
  exact absurd hcount.symm (Nat.ne_of_gt (List.count_pos_iff.mpr hx))

/-- Nothing is raised or pushed up to BUILD, and the packer is empty. -/
theorem prepared_idle : (s.prepared S).err = 0 ∧ (s.prepared S).outq = [] ∧ (s.prepared S).pkNbits = 0 ∧
    (s.prepared S).acc = 0 := by
  obtain ⟨f, hf, -⟩ := counted_cleared h s
  obtain ⟨u, hu⟩ := buildWith_frame Config.tieDraw (S.foldl counted (cleared s))
  rw [State.prepared, hu, hf]
  exact ⟨rfl, rfl, rfl, rfl⟩

end

theorem prepared_treeInv (s : State) (S : List Byte) : (s.prepared S).TreeInv := buildWith_treeInv _ _

/-- A code has at most 255 bits (R47). -/
theorem State.TreeInv.codesOf_length_le {s : State} (h : s.TreeInv) (S : List Byte) :
    (codesOf s S).length ≤ 255 * S.length := by
  have hcode : ∀ x, (s.codeAt x).length ≤ 255 := fun x => by
    have := (s.clenAt x).isLt
    rw [h.codeLength]
    omega
  induction S with
  | nil => exact Nat.le_refl 0
  | cons x rest ih =>
    have := hcode x
    rw [codesOf, List.flatMap_cons, List.length_append, List.length_cons]
    rw [codesOf] at ih
    omega

/-- A sequence whose counters fit has codes that fit a block's bit counter. -/
theorem codesOf_length_lt {S : List Byte} (h : ∀ b, S.count b < 2 ^ 32) {s : State} (hs : s.TreeInv) :
    (codesOf s S).length < 2 ^ 64 := by
  have hS : S.length ≤ 256 * (2 ^ 32 - 1) := length_le_of_count_le fun b => Nat.le_sub_one_of_lt (h b)
  have hcodes := hs.codesOf_length_le S
  omega

/-- A compress run leaves the packed codes of its sequence in the FIFO, their length in PK_TOTAL, and the tree it built. -/
theorem execAll_compressCmds {S : List Byte} (h : ∀ b, S.count b < 2 ^ 32) (s : State) :
    execAll (compressCmds S) s = .next { s.prepared S with
      outq := packedBytes (codesOf (s.prepared S) S)
      pkTotal := BitVec.ofNat 64 (codesOf (s.prepared S) S).length } := by
  obtain ⟨-, houtq, hn, hacc⟩ := prepared_idle h s
  have hprepare : execAll (.clear :: S.map .count ++ [.build]) s = .next (s.prepared S) := by
    rw [List.cons_append, execAll_cons_of_next (exec_clear s)]
    exact execAll_concat (execAll_count S (cleared s)) rfl
  have hfits : (s.prepared S).pkNbits.toNat + (codesOf (s.prepared S) S).length ≤ 2 ^ 64 - 1 := by
    have := codesOf_length_lt h (prepared_treeInv s S)
    rw [hn, show (0 : BitVec 64).toNat = 0 from rfl]
    omega
  have hencode := encSequenceAppendsConcatenation S _ (packerInv_of_acc_zero hacc) (prepared_coded h s) hfits
  have hflush := exec_flush_appendedBlock hn (codesOf (s.prepared S) S)
  rw [houtq, List.nil_append, ← hacc, ← hn] at hflush
  exact execAll_concat ((execAll_append hprepare).trans hencode) hflush

/-- Settles O50: the compress run leaves the packed codes and the tree, and the decompress run walks the one down the other. -/
theorem compressThenDecompressRoundTrips : Obligations.CompressThenDecompressRoundTrips := by
  unfold Obligations.CompressThenDecompressRoundTrips
  intro S s h
  obtain ⟨herr, -, -, -⟩ := prepared_idle h s
  have htree := prepared_treeInv s S
  have hlimit : (BitVec.ofNat 64 (codesOf (s.prepared S) S).length).toNat = (codesOf (s.prepared S) S).length := by
    rw [BitVec.toNat_ofNat, Nat.mod_eq_of_lt (codesOf_length_lt h htree)]
  have hdecode := execAll_decompressCmds (S := S)
    (s := { s.prepared S with
      pkTotal := BitVec.ofNat 64 (codesOf (s.prepared S) S).length
      upLimit := BitVec.ofNat 64 (codesOf (s.prepared S) S).length
      outq := [] })
    (htree.congr ⟨rfl, rfl, rfl, rfl, rfl, rfl, rfl, rfl⟩ rfl) (prepared_coded h s) hlimit
  exact ⟨_, _, execAll_compressCmds h s, herr, hdecode, List.nil_append S, herr⟩

end Sys2Proof.Machine
end

section
/-! PROOFS. The packer's commands (spec/44_packer.md R200, R201, R205, R207): PUTB's append, FLUSH, and a block appended by any
commands. -/

namespace Sys2Proof.Machine

/-! ### PUTB -/

theorem exec_putb_of_bad_length {len : BitVec 5} (h : len.toNat = 0 ∨ 16 < len.toNat) (val : BitVec 16) (s : State) :
    exec (.putb len val) s = .next (raise .illegal s) := if_pos h

theorem exec_putb_of_length {len : BitVec 5} (hpos : 1 ≤ len.toNat) (hmax : len.toNat ≤ 16) (val : BitVec 16) (s : State) :
    exec (.putb len val) s = .next (packBits (putbBits len.toNat val) s) :=
  if_neg (not_or.mpr ⟨Nat.ne_of_gt hpos, Nat.not_lt.mpr hmax⟩)

/-- Settles O37: a length PUTB refuses, the packer's overflow, and the append that fits, of at most 7 pending and 16 new bits. -/
theorem putbAppendsItsLowBits : Obligations.PutbAppendsItsLowBits := by
  unfold Obligations.PutbAppendsItsLowBits
  intro len val s
  have hbits : (putbBits len.toNat val).length = len.toNat := putbBits_length _ _
  rw [← raise_illegal, ← raise_bitcntOvf]
  refine ⟨fun hbad => exec_putb_of_bad_length hbad val s, fun hpos hmax hfull => ?_, fun hp hpos hmax hfits => ?_⟩
  · rw [exec_putb_of_length hpos hmax, packBits_of_overflow (hbits.symm ▸ hfull)]
  · have hexec : exec (.putb len val) s = .next (appendedBlock (putbBits len.toNat val) s) := by
      rw [exec_putb_of_length hpos hmax, packBits_of_fits hp (hbits.symm ▸ hfits)]
    have hpushed := packAll_outq_length (putbBits len.toNat val) s
    rw [packAll_eq_appendedBlock _ hp, hbits] at hpushed
    exact ⟨_, _, hbits, putbBits_getElem? _ _, hexec, rfl, hpushed, by omega⟩

/-! ### FLUSH -/

/-- Settles O38: FLUSH's one equation, with and without a partial byte. -/
theorem flushClosesTheBlock : Obligations.FlushClosesTheBlock := by
  unfold Obligations.FlushClosesTheBlock
  intro s
  rw [exec_flush]
  constructor
  · intro hwhole
    rw [if_neg (not_not.mpr hwhole), List.append_nil]
  · intro hpart
    rw [if_pos hpart]

/-! ### A block appended by any commands -/

/-- A command that is not turned away appends its bits, if they fit the counter (R190, R200, R205). -/
theorem exec_of_appends {i : Instr} {s : State} (hp : s.PackerInv) (hi : appends s i = true)
    (hfits : s.pkNbits.toNat + (appendedBits s i).length ≤ Config.bitCountMax) :
    exec i s = .next (appendedBlock (appendedBits s i) s) := by
  cases i with
  | enc sym => exact encAppendsTheCode sym s hp (of_decide_eq_true hi) hfits
  | putb len val =>
    obtain ⟨hpos, hmax⟩ := of_decide_eq_true hi
    rw [exec_putb_of_length hpos hmax]
    exact congrArg Host.Outcome.next (packBits_of_fits hp hfits)
  | _ => cases hi

/-- An append leaves the code table alone, and with it what the commands append. -/
@[simp] theorem appendedBits_appendedBlock (c : Bits) (s : State) : appendedBits (appendedBlock c s) = appendedBits s := by
  funext i
  cases i <;> rfl

@[simp] theorem appends_appendedBlock (c : Bits) (s : State) : appends (appendedBlock c s) = appends s := by
  funext i
  cases i <;> rfl

/-- R201: however the bits are split into commands, they are appended as one bit string. -/
theorem execAll_of_appends {cmds : List Instr} {s : State} (hp : s.PackerInv) (hcmds : ∀ i ∈ cmds, appends s i = true)
    (hfits : s.pkNbits.toNat + (cmds.flatMap (appendedBits s)).length ≤ Config.bitCountMax) :
    execAll cmds s = .next (appendedBlock (cmds.flatMap (appendedBits s)) s) := by
  induction cmds generalizing s with
  | nil => exact congrArg Host.Outcome.next (appendedBlock_nil hp).symm
  | cons i rest ih =>
    rw [List.flatMap_cons, List.length_append] at hfits
    have hfirst : s.pkNbits.toNat + (appendedBits s i).length ≤ Config.bitCountMax := by omega
    have hrest := ih (s := appendedBlock (appendedBits s i) s) (appendedBlock_packerInv hp)
      (by simpa using fun j hj => hcmds j (List.mem_cons_of_mem i hj))
      (by rw [appendedBlock_pkNbits_toNat hfirst, appendedBits_appendedBlock]; omega)
    rw [execAll_cons_of_next (exec_of_appends hp (hcmds i List.mem_cons_self) hfirst), hrest, appendedBits_appendedBlock,
      List.flatMap_cons, appendedBlock_append]

/-- The bytes of the packed form, by their place. -/
theorem eq_packedByte_of_getElem? {B : Bits} {k : Nat} {b : Byte} (h : (packedBytes B)[k]? = some b) :
    b = packedByte B k := by
  obtain ⟨hk, rfl⟩ := List.getElem?_eq_some_iff.mp h
  simp [packedBytes]

/-- Settles O39: the commands append one bit string, and FLUSH leaves its packed form, whose bytes are known bit by bit. -/
theorem packingIsExact : Obligations.PackingIsExact := by
  unfold Obligations.PackingIsExact
  intro cmds s hn hacc hcmds hfits
  have hstart : s.pkNbits.toNat + (cmds.flatMap (appendedBits s)).length ≤ Config.bitCountMax := by
    rwa [hn, show (0 : BitVec 64).toNat = 0 from rfl, Nat.zero_add]
  generalize hB : cmds.flatMap (appendedBits s) = B at hfits hstart ⊢
  have happend := execAll_of_appends (packerInv_of_acc_zero hacc) hcmds (hB.symm ▸ hstart)
  rw [hB] at happend
  refine ⟨_, execAll_concat happend (exec_flush_appendedBlock hn B), packedBytes B, by rw [hn, hacc], ?_,
    packedBytes_length B, fun k b hk j hj => ?_⟩
  · exact (BitVec.toNat_ofNat _ _).trans (Nat.mod_eq_of_lt (Nat.lt_of_le_pred (by decide) hfits))
  · rw [eq_packedByte_of_getElem? hk, packedByte_getLsbD B k j hj]

end Sys2Proof.Machine
end

section
/-! PROOFS. The bit unpacker's commands (spec/45_unpacker.md R220 to R223): what USTART and URAW do, and the URAW commands of a
packed bit string. -/

namespace Sys2Proof.Machine

/-! ### USTART -/

/-- Settles O40: USTART's one equation. -/
theorem ustartLatchesTheLimit : Obligations.UstartLatchesTheLimit := exec_ustart

/-! ### URAW -/

theorem upValid_le (s : State) : s.upValid ≤ 8 := Nat.min_le_left _ _

/-- Delivering the valid bits of a byte does not carry UP_POS past UP_END, so it does not wrap (R221). -/
theorem unpackAdvance_upPos_toNat (s : State) : (unpackAdvance s).upPos.toNat = s.upPos.toNat + s.upValid := by
  have hend := s.upEnd.isLt
  have hpos := s.upPos.isLt
  rw [unpackAdvance_upPos, BitVec.toNat_add, BitVec.toNat_ofNat, State.upValid, State.upLeft]
  omega

/-- The state after a URAW that delivers bits (R222). -/
def State.unpacked (s : State) (byte : Byte) : State :=
  { unpackAdvance s with upRawB := maskByte s.upValid byte, upRawN := BitVec.ofNat 4 s.upValid }

theorem unpacked_upRawN_toNat (s : State) (byte : Byte) : (s.unpacked byte).upRawN.toNat = s.upValid :=
  (BitVec.toNat_ofNat _ _).trans (Nat.mod_eq_of_lt (Nat.lt_of_le_of_lt (upValid_le s) (by decide)))

theorem exec_uraw_of_complete {s : State} (h : s.upLeft = 0) (byte : Byte) : exec (.uraw byte) s = .next (raise .excess s) :=
  if_pos h

theorem exec_uraw_of_left {s : State} (h : s.upLeft ≠ 0) (byte : Byte) : exec (.uraw byte) s = .next (s.unpacked byte) :=
  if_neg h

/-- Settles O41: URAW at the end of a block and before it, and the mask bit by bit. -/
theorem urawKeepsTheValidBits : Obligations.UrawKeepsTheValidBits := by
  unfold Obligations.UrawKeepsTheValidBits
  intro byte s
  constructor
  · intro hdone
    have hleft : s.upLeft = 0 := by rw [State.upLeft, hdone, Nat.sub_self]
    rw [← raise_excess, exec_uraw_of_complete hleft]
  · intro hlt
    have hleft : s.upLeft ≠ 0 := Nat.sub_ne_zero_of_lt hlt
    exact ⟨s.unpacked byte, exec_uraw_of_left hleft byte, rfl, unpacked_upRawN_toNat s byte, unpackAdvance_upPos_toNat s,
      maskByte_getLsbD s.upValid byte⟩

/-! ### The URAW commands of a packed bit string -/

/-- Masking keeps the valid bits (R222). -/
theorem byteBits_maskByte {nv : Nat} (h : nv ≤ 8) (b : Byte) : byteBits nv (maskByte nv b) = byteBits nv b :=
  List.map_congr_left fun j hj => by
    have hjn : j < nv := List.mem_range.mp hj
    rw [maskByte_getLsbD _ _ _ (by omega), decide_eq_true (by omega), Bool.true_and]

/-- What UP_RAW shows after a URAW are the valid bits of its byte. -/
theorem unpacked_rawBits (s : State) (byte : Byte) : (s.unpacked byte).rawBits = byteBits s.upValid byte := by
  rw [State.rawBits, unpacked_upRawN_toNat]
  exact byteBits_maskByte (upValid_le s) byte

theorem urawAll_cons_of_next {b : Byte} {bs : List Byte} {s t : State} (h : exec (.uraw b) s = .next t) :
    urawAll (b :: bs) s = (urawAll bs t).map fun r => (t.rawBits ++ r.1, r.2) := by
  rw [urawAll, h]

/-- After a byte of a block, what is left of its string is left of the block. -/
theorem unpacked_left {B : Bits} {s : State} (h : s.upEnd.toNat = s.upPos.toNat + B.length) (byte : Byte) :
    (s.unpacked byte).upEnd.toNat = (s.unpacked byte).upPos.toNat + (B.drop 8).length := by
  have hpos : (s.unpacked byte).upPos.toNat = s.upPos.toNat + s.upValid := unpackAdvance_upPos_toNat s
  have hend : (s.unpacked byte).upEnd = s.upEnd := rfl
  rw [hpos, hend, State.upValid, State.upLeft, List.length_drop]
  omega

/-- Where exactly the bits of `B` are left of the block, URAW of its packed bytes delivers `B`, ends at the block's end, and
writes UP_POS and UP_RAW alone. -/
theorem urawAll_packedBytes {B : Bits} {s : State} (hleft : s.upEnd.toNat = s.upPos.toNat + B.length) :
    ∃ b n, urawAll (packedBytes B) s = some (B, { s with upPos := s.upEnd, upRawB := b, upRawN := n }) := by
  induction B using packed_induction generalizing s with
  | nil =>
    have hend : s.upEnd = s.upPos := BitVec.eq_of_toNat_eq hleft
    exact ⟨s.upRawB, s.upRawN, congrArg (fun p => some ([], s.setUpPos p)) hend.symm⟩
  | byte B hB ih =>
    have hpos := List.length_pos_iff.mpr hB
    have hupLeft : s.upLeft = B.length := by rw [State.upLeft, hleft, Nat.add_sub_cancel_left]
    have hupValid : s.upValid = min 8 B.length := by rw [State.upValid, hupLeft]
    have hraw : (s.unpacked (packedByte B 0)).rawBits = B.take 8 := by
      rw [unpacked_rawBits, hupValid, byteBits_packedByte (by omega) (by omega), Nat.mul_zero, List.drop_zero,
        ← List.take_eq_take_min]
    obtain ⟨b, n, hrun⟩ := ih (unpacked_left hleft _)
    refine ⟨b, n, ?_⟩
    rw [packedBytes_of_ne_nil hB, urawAll_cons_of_next (exec_uraw_of_left (by omega) _), hrun, hraw, Option.map_some,
      List.take_append_drop]
    rfl

/-- Settles O42: the URAW commands deliver the string and end at the block's end, where DEND has nothing to raise. -/
theorem unpackingInvertsPacking : Obligations.UnpackingInvertsPacking := by
  unfold Obligations.UnpackingInvertsPacking
  intro B s _ hlimit
  have hleft : s.started.upEnd.toNat = s.started.upPos.toNat + B.length := hlimit.trans (Nat.zero_add _).symm
  obtain ⟨b, n, hrun⟩ := urawAll_packedBytes hleft
  exact ⟨_, _, _, exec_ustart s, hrun, rfl, hlimit, hlimit, exec_dend_of_complete rfl rfl, rfl⟩

end Sys2Proof.Machine
end

section
/-! PROOFS. The decoder's commands (spec/46_decoder.md R240, R241, R246 to R249): one bit at an internal root, the bits of a byte
below a lone leaf root and in a BUILT tree, DECB and DEND, and the decoding contract. -/

namespace Sys2Proof.Machine

/-! ### The decoding contract -/

/-- Settles O49: the decompress run ends at the block's end, with the sequence pushed and ERR as it was. -/
theorem decodingReturnsTheSequence : Obligations.DecodingReturnsTheSequence := by
  unfold Obligations.DecodingReturnsTheSequence
  intro S s hs _ hS _ hlimit
  exact ⟨_, execAll_decompressCmds hs hS hlimit, rfl, rfl, rfl⟩

/-! ### One bit -/

theorem Node.child_internal (f : BitVec 40) (l r : Option NodeIdx) (b : Bool) :
    (Node.internal f l r).child b = if b then r else l := by
  cases b <;> rfl

/-- R240 at an absent child: BAD_CODE, and back to the root. -/
theorem decodeBit_of_absent_child {s : State} {b : Bool} (hr : (s.nodeAt s.root).isLeaf = false)
    (hc : (s.nodeAt s.cur).isLeaf = false) (hch : (s.nodeAt s.cur).child b = none) :
    decodeBit b s = some { raise .badCode s with cur := s.root } := by
  cases hb : decodeBit b s with
  | none =>
    obtain ⟨-, hleaf⟩ := decodeBit_none hb
    cases hleaf.symm.trans hc
  | some t =>
    rcases decodeBit_cases hb with ⟨sym, f, hroot, -⟩ | ⟨-, -, ⟨-, rfl⟩ | ⟨ch, hsome, -⟩⟩
    · cases (Node.isLeaf_of_eq_leaf hroot).symm.trans hr
    · rfl
    · cases hsome.symm.trans hch

/-- Settles O43, child by child. -/
theorem decodeBitWalksOneEdge : Obligations.DecodeBitWalksOneEdge := by
  unfold Obligations.DecodeBitWalksOneEdge
  intro b s f l r hr hcur
  have hchild : (s.nodeAt s.cur).child b = if b then r else l := by rw [hcur, Node.child_internal]
  have hinternal : (s.nodeAt s.cur).isLeaf = false := by rw [hcur]; rfl
  refine ⟨fun hnone => ?_, fun ch sym g hsome hleaf => ?_, fun ch hsome hnode => ?_⟩
  · rw [decodeBit_of_absent_child hr hinternal (hchild.trans hnone), raise_badCode]
  · exact decodeBit_of_leaf_child hr (hchild.trans hsome) hleaf
  · exact decodeBit_of_internal_child hr (hchild.trans hsome) hnode

/-! ### The bits of a byte -/

/-- Below a lone leaf root every bit pushes the root's symbol (R241). -/
theorem decodeBits_of_leaf_root (bs : Bits) {s : State} {sym : Byte} {f : BitVec 40} (h : s.nodeAt s.root = .leaf sym f) :
    decodeBits bs s = some { s with outq := s.outq ++ List.replicate bs.length sym } := by
  induction bs generalizing s with
  | nil => simp [decodeBits]
  | cons b bs ih =>
    have hrest := ih (s := outPush sym s) h
    rw [decodeBits_cons, decodeBit_of_leaf_root h, Option.bind_some, hrest]
    simp [outPush, List.replicate_succ]

theorem State.TreeInv.rootV_of_built {s : State} (h : s.TreeInv) (hb : s.tstate = .built) : s.rootV = true := by
  cases hv : s.rootV with
  | true => rfl
  | false =>
    obtain ⟨hempty, -⟩ := h.absent hv
    cases hb.symm.trans hempty

/-- The internal nodes of a BUILT tree have a child on either side (R55 item 4). -/
theorem State.TreeInv.full {s : State} (h : s.TreeInv) (hb : s.tstate = .built) : Arena.Full s.node s.nodeCount.toNat := by
  intro i hi hinternal b
  cases hn : Arena.at s.node i with
  | leaf sym f => cases (Node.isLeaf_of_eq_leaf hn).symm.trans hinternal
  | internal f l r =>
    obtain ⟨hl, hr⟩ := h.strict hb i hi f l r hn
    cases b with
    | false => exact Option.isSome_iff_exists.mp hl
    | true => exact Option.isSome_iff_exists.mp hr

/-- In a BUILT tree a bit meets no absent child, so it raises nothing (R240). -/
theorem decodeBit_err_of_built {b : Bool} {s t : State} (hs : s.TreeInv) (hb : s.tstate = .built)
    (h : decodeBit b s = some t) : t.err = s.err := by
  rcases decodeBit_cases h with ⟨sym, f, -, rfl⟩ | ⟨-, hc, ⟨hnone, -⟩ | ⟨ch, -, ⟨sym, f, -, rfl⟩ | ⟨-, rfl⟩⟩⟩
  · rfl
  · obtain ⟨ch, hsome⟩ := hs.full hb s.cur (hs.cur_lt (hs.rootV_of_built hb)) hc b
    cases hnone.symm.trans hsome
  · rfl
  · rfl

theorem decodeBits_err_of_built {bs : Bits} {s t : State} (hs : s.TreeInv) (hb : s.tstate = .built)
    (h : decodeBits bs s = some t) : t.err = s.err := by
  induction bs generalizing s with
  | nil => rw [Option.some.inj h]
  | cons b bs ih =>
    rw [decodeBits_cons, Option.bind_eq_some_iff] at h
    obtain ⟨u, hu, hrest⟩ := h
    have hbu : u.tstate = .built := by
      obtain ⟨out, hframe, -⟩ := decodeBit_frame hu
      rw [hframe]
      exact hb
    rw [ih (decodeBit_treeInv hs (hs.rootV_of_built hb) hu) hbu hrest, decodeBit_err_of_built hs hb hu]

/-! ### DECB -/

theorem exec_decb_of_complete {s : State} (h : s.upLeft = 0) (byte : Byte) :
    exec (.decb byte) s = .next (raise .excess s) := if_pos h

theorem exec_decb_of_no_tree {s : State} (h : s.upLeft ≠ 0) (hv : s.rootV = false) (byte : Byte) :
    exec (.decb byte) s = .next (raise .noTree (unpackAdvance s)) := (if_neg h).trans (if_pos hv)

/-- With bits to deliver and a tree, DECB is the walk over the valid bits (R246). -/
theorem exec_decb_of_walk {byte : Byte} {s t : State} (h : s.upLeft ≠ 0) (hv : s.rootV = true)
    (hwalk : decodeBits (byteBits s.upValid byte) (unpackAdvance s) = some t) : exec (.decb byte) s = .next t := by
  rcases execDecb_cases byte s with ⟨hdone, -⟩ | ⟨-, hnone, -⟩ | ⟨-, -, u, hu, e⟩ | ⟨-, -, hu, -⟩
  · exact absurd hdone h
  · cases hnone.symm.trans hv
  · cases hu.symm.trans hwalk
    exact e
  · cases hu.symm.trans hwalk

/-- Settles O44: the walk below a lone leaf root pushes one symbol for each valid bit. -/
theorem decbOfALoneLeafRepeatsIt : Obligations.DecbOfALoneLeafRepeatsIt := by
  unfold Obligations.DecbOfALoneLeafRepeatsIt
  intro byte sym f s hv hroot hlt
  have hwalk := decodeBits_of_leaf_root (byteBits s.upValid byte) (s := unpackAdvance s) hroot
  rw [byteBits_length] at hwalk
  exact ⟨_, exec_decb_of_walk (Nat.sub_ne_zero_of_lt hlt) hv hwalk, rfl, unpackAdvance_upPos_toNat s, rfl⟩

/-- Settles O46: the walk over the valid bits is total, and writes only what a walk may write. -/
theorem decbDecodesItsValidBits : Obligations.DecbDecodesItsValidBits := by
  unfold Obligations.DecbDecodesItsValidBits
  intro byte s hlt hv hcur
  obtain ⟨t, hwalk⟩ := decodeBits_total (byteBits s.upValid byte) (unpackAdvance s) hcur
  obtain ⟨out, hframe, hout, herr⟩ := decodeBits_frame hwalk
  have hpos : t.upPos = (unpackAdvance s).upPos := by rw [hframe]
  refine ⟨t, byteBits s.upValid byte, out, exec_decb_of_walk (Nat.sub_ne_zero_of_lt hlt) hv hwalk, ?_, ?_,
    byteBits_length _ _, fun j hj => ?_, ?_, hout, herr⟩
  · rw [hpos]
    exact hframe
  · rw [hpos]
    exact unpackAdvance_upPos_toNat s
  · exact byteBits_getElem? _ _ _ (hj.trans_eq (byteBits_length s.upValid byte))
  · rw [hpos]
    exact hwalk

/-- Settles O47: with bits to deliver from a BUILT tree, DECB is a walk that meets no absent child. -/
theorem builtTreeNeverGivesBadCode : Obligations.BuiltTreeNeverGivesBadCode := by
  unfold Obligations.BuiltTreeNeverGivesBadCode
  intro byte s hs hb hlt
  have hv := hs.rootV_of_built hb
  obtain ⟨t, ht⟩ := exec_next hs (.decb byte)
  rcases execDecb_cases byte s with ⟨hdone, -⟩ | ⟨-, hnone, -⟩ | ⟨-, -, u, hwalk, e⟩ | ⟨-, -, -, e⟩
  · exact absurd hdone (Nat.sub_ne_zero_of_lt hlt)
  · cases hnone.symm.trans hv
  · exact ⟨u, e, decodeBits_err_of_built (s := unpackAdvance s) (unpackAdvance_treeInv hs) hb hwalk⟩
  · cases e.symm.trans ht

/-- Settles O45: the two checks that DECB makes before it walks. -/
theorem decbRaisesExcessOrNoTree : Obligations.DecbRaisesExcessOrNoTree := by
  unfold Obligations.DecbRaisesExcessOrNoTree
  intro byte s
  constructor
  · intro hdone
    have hleft : s.upLeft = 0 := by rw [State.upLeft, hdone, Nat.sub_self]
    rw [← raise_excess, exec_decb_of_complete hleft]
  · intro hlt hv
    exact ⟨_, exec_decb_of_no_tree (Nat.sub_ne_zero_of_lt hlt) hv byte, rfl, unpackAdvance_upPos_toNat s⟩

/-! ### DEND -/

/-- The error bits DEND raises (R248). -/
def State.dendErrors (s : State) : BitVec 12 :=
  (if s.upPos.toNat < s.upEnd.toNat then ErrBit.short.mask else 0#12) |||
    (if s.rootV = true ∧ s.cur ≠ s.root then ErrBit.trunc.mask else 0#12)

theorem checkShort_eq (s : State) : checkShort s =
    { s with err := s.err ||| if s.upPos.toNat < s.upEnd.toNat then ErrBit.short.mask else 0#12 } := by
  unfold checkShort
  split
  · rfl
  · rw [BitVec.or_zero]

theorem checkTrunc_eq (s : State) : checkTrunc s =
    { s with err := s.err ||| if s.rootV = true ∧ s.cur ≠ s.root then ErrBit.trunc.mask else 0#12 } := by
  unfold checkTrunc
  split
  · rfl
  · rw [BitVec.or_zero]

/-- DEND writes ERR and the cursor alone (R248). -/
theorem exec_dend (s : State) : exec .dend s = .next { s with cur := s.root, err := s.err ||| s.dendErrors } := by
  have hexec : exec .dend s = .next { checkTrunc (checkShort s) with cur := s.root } := rfl
  rw [hexec, checkShort_eq, checkTrunc_eq, State.dendErrors, ← BitVec.or_assoc]

/-- Settles O48: the four ways the two checks can come out. -/
theorem dendChecksCompleteness : Obligations.DendChecksCompleteness := by
  unfold Obligations.DendChecksCompleteness
  intro s
  have hquiet : s.rootV = false ∨ s.cur = s.root → ¬ (s.rootV = true ∧ s.cur ≠ s.root) := by
    rintro (hv | hcur) ⟨htree, hoff⟩
    · cases hv.symm.trans htree
    · exact hoff hcur
  refine ⟨_, exec_dend s, rfl, fun hshort hv hcur => ?_, fun hshort hroot => ?_, fun hfull hv hcur => ?_, fun hfull hroot => ?_⟩
  · rw [State.dendErrors, if_pos hshort, if_pos ⟨hv, hcur⟩]
    rfl
  · rw [State.dendErrors, if_pos hshort, if_neg (hquiet hroot)]
    rfl
  · rw [State.dendErrors, if_neg (Nat.not_lt.mpr hfull), if_pos ⟨hv, hcur⟩]
    rfl
  · rw [State.dendErrors, if_neg (Nat.not_lt.mpr hfull), if_neg (hquiet hroot)]
    exact BitVec.or_zero

end Sys2Proof.Machine
end

section
/-! PROOFS. The core's turn in general (spec/60_exceptions.md R262 to R264, R276): when it runs the pending command and when it holds,
how many bytes a command pushes, which error bits it raises, and that the machine never stops. -/

namespace Sys2Proof.Machine

/-! ### When the core runs, and when it holds -/

theorem coreEnabled_of_room {s : State} {i : Instr} (hv : s.pendV = true) (hdec : decode s.pendW = .ok i)
    (hroom : emit i s ≤ s.params.outDepth - s.outq.length) : coreEnabled s = true := by
  rw [coreEnabled, emitWord_of_command hdec, hv, decide_eq_true hroom, Bool.true_and]

theorem coreEnabled_of_no_room {s : State} {i : Instr} (hdec : decode s.pendW = .ok i)
    (hfull : s.params.outDepth - s.outq.length < emit i s) : coreEnabled s = false := by
  rw [coreEnabled, emitWord_of_command hdec, decide_eq_false (Nat.not_le.mpr hfull), Bool.and_false]

theorem coreEnabled_of_not_pending {s : State} (hv : s.pendV = false) : coreEnabled s = false := by
  rw [coreEnabled, hv, Bool.false_and]

/-- An enabled core executes its command and releases the latch (R263). -/
theorem coreStep_of_enabled {s : State} {i : Instr} (hen : coreEnabled s = true) (hdec : decode s.pendW = .ok i) :
    coreStep s = retireOutcome (exec i s) := by
  rw [coreStep, if_pos hen, executeWord_of_command hdec]

/-- A core that is not enabled holds or idles (R262, R276). -/
theorem coreStep_of_not_enabled {s : State} (hen : coreEnabled s = false) : coreStep s = .next s := by
  rw [coreStep, hen]
  rfl

theorem step_core_turn (s : State) (turns : List Turn) :
    step { s with sched := .core :: turns } = coreStep { s with sched := turns } := rfl

/-- With the schedule over, an enabled core has the turn (log entry 3). -/
theorem step_of_enabled {s : State} (hen : coreEnabled { s with sched := [] } = true) :
    step { s with sched := [] } = coreStep { s with sched := [] } := by
  have hstep : step { s with sched := [] } = stepTurn (defaultTurn { s with sched := [] }) { s with sched := [] } := rfl
  rw [hstep, defaultTurn, if_pos hen]
  rfl

/-- Settles O16: with room the core is enabled, at its own turn and at the default turn. -/
theorem stepRunsTheDecodedCommand : Obligations.StepRunsTheDecodedCommand := by
  unfold Obligations.StepRunsTheDecodedCommand
  intro s turns i hv hdec
  constructor
  · intro hroom
    have hen : coreEnabled { s with sched := turns } = true := coreEnabled_of_room hv hdec hroom
    rw [step_core_turn, coreStep_of_enabled hen hdec]
    cases exec i { s with sched := turns } <;> rfl
  · intro hroom
    have hen : coreEnabled { s with sched := [] } = true := coreEnabled_of_room hv hdec hroom
    rw [step_of_enabled hen, coreStep_of_enabled hen hdec]
    cases exec i { s with sched := [] } <;> rfl

/-- Settles O17: without a command or without room the core is not enabled. -/
theorem coreHoldsOrIdles : Obligations.CoreHoldsOrIdles := by
  unfold Obligations.CoreHoldsOrIdles
  intro s turns
  constructor
  · intro hv
    rw [step_core_turn]
    exact coreStep_of_not_enabled (coreEnabled_of_not_pending hv)
  · intro i hdec hfull
    rw [step_core_turn]
    exact coreStep_of_not_enabled (coreEnabled_of_no_room hdec hfull)

/-! ### The bytes a command pushes -/

/-- A bit of a byte pushes at most one symbol (R247). -/
theorem decodePushes_le_length (bs : Bits) (s : State) : decodePushes bs s ≤ bs.length := by
  induction bs generalizing s with
  | nil => exact Nat.le_refl 0
  | cons b bs ih =>
    rw [decodePushes, List.length_cons]
    cases decodeBit b s with
    | none => exact Nat.zero_le _
    | some t =>
      have hrest := ih t
      dsimp only
      split <;> omega

/-- Up to 7 pending bits and `n` appended ones, if they are appended, are at most `(n + 7) / 8` whole bytes (R195). -/
theorem packedCount_le (p : Prop) [Decidable p] (pending n : Nat) :
    (if p then (pending % 8 + n) / 8 else 0) ≤ (n + 7) / 8 := by
  split <;> omega

/-- The bound of R262: ENC is the command that reaches it, with 7 bits pending and a code of 249 bits or more. -/
theorem emit_le (i : Instr) (s : State) : emit i s ≤ 32 := by
  cases i with
  | enc sym =>
    have hclen : (s.clenAt sym).toNat < 256 := (s.clenAt sym).isLt
    calc emit (.enc sym) s ≤ ((s.clenAt sym).toNat + 7) / 8 := packedCount_le _ _ _
      _ ≤ 32 := by omega
  | putb len val =>
    have hlen : len.toNat < 32 := len.isLt
    calc emit (.putb len val) s ≤ (len.toNat + 7) / 8 := packedCount_le _ _ _
      _ ≤ 32 := by omega
  | flush =>
    rw [emit]
    split <;> decide
  | decb byte =>
    rw [emit]
    split
    · decide
    · calc decodePushes (byteBits s.upValid byte) (unpackAdvance s)
          ≤ (byteBits s.upValid byte).length := decodePushes_le_length _ _
        _ = s.upValid := byteBits_length _ _
        _ ≤ 8 := upValid_le s
        _ ≤ 32 := by decide
  | _ => exact Nat.zero_le _

/-- Settles O51: the bound on `Emit`, and its count of the pushed bytes. -/
theorem emitCountsThePushedBytes : Obligations.EmitCountsThePushedBytes := by
  unfold Obligations.EmitCountsThePushedBytes
  exact fun i s t hlen h => ⟨emit_le i s, fun hi => exec_outq_length hlen hi h⟩

/-! ### The error bits a command raises -/

/-- Every error bit of `t` was set in `s`, or is one of the command's own (R264). -/
def RaisesOnlyItsOwn (i : Instr) (s t : State) : Prop :=
  ∀ e : ErrBit, e.isSet t.err = true → e.isSet s.err = true ∨ mayRaise e i = true

section

variable {i : Instr} {s t u : State}

theorem RaisesOnlyItsOwn.of_err_eq (h : t.err = s.err) : RaisesOnlyItsOwn i s t := fun _ he => .inl (h ▸ he)

theorem RaisesOnlyItsOwn.of_raise {e : ErrBit} (hmay : mayRaise e i = true) (h : t.err = s.err ||| e.mask) :
    RaisesOnlyItsOwn i s t := by
  intro f hf
  rw [h, ErrBit.isSet_or, ErrBit.isSet_mask, Bool.or_eq_true, decide_eq_true_eq] at hf
  exact hf.imp_right fun (hfe : f = e) => hfe ▸ hmay

theorem RaisesOnlyItsOwn.trans (h : RaisesOnlyItsOwn i s t) (h' : RaisesOnlyItsOwn i t u) : RaisesOnlyItsOwn i s u :=
  fun e he => (h' e he).elim (h e) .inr

/-- The packer raises BITCNT_OVF or nothing (R200). -/
theorem packBits_raisesOnlyItsOwn (hmay : mayRaise .bitcntOvf i = true) (c : Bits) (s : State) :
    RaisesOnlyItsOwn i s (packBits c s) := by
  rcases packBits_cases c s with ⟨-, e⟩ | ⟨-, e⟩ <;> rw [e]
  · obtain ⟨a, q, ht⟩ := packAll_frame c s
    exact .of_err_eq (by rw [ht])
  · exact .of_raise hmay rfl

theorem checkShort_raisesOnlyItsOwn (s : State) : RaisesOnlyItsOwn .dend s (checkShort s) := by
  unfold checkShort
  split
  · exact .of_raise (e := .short) rfl rfl
  · exact .of_err_eq rfl

theorem checkTrunc_raisesOnlyItsOwn (s : State) : RaisesOnlyItsOwn .dend s (checkTrunc s) := by
  unfold checkTrunc
  split
  · exact .of_raise (e := .trunc) rfl rfl
  · exact .of_err_eq rfl

/-- The walk over a byte's bits raises BAD_CODE or nothing (R240). -/
theorem decodeBits_raisesOnlyItsOwn {byte : Byte} {bs : Bits} (h : decodeBits bs s = some t) :
    RaisesOnlyItsOwn (.decb byte) s t := by
  obtain ⟨out, -, -, he | he⟩ := decodeBits_frame h
  · exact .of_err_eq he
  · exact .of_raise (e := .badCode) rfl he

/-- R264's table, branch by branch of each command. -/
theorem exec_raisesOnlyItsOwn (h : exec i s = .next t) : RaisesOnlyItsOwn i s t := by
  cases i with
  | nop =>
    cases h
    exact .of_err_eq rfl
  | clear =>
    cases h
    intro e he
    cases (BitVec.getLsbD_zero (i := e.num)).symm.trans he
  | count sym =>
    rcases execCount_cases sym s with ⟨-, e⟩ | ⟨-, -, e⟩ | ⟨-, -, e⟩ <;> cases e.symm.trans h
    · exact .of_raise (e := .seq) rfl rfl
    · exact .of_raise (e := .freqOvf) rfl rfl
    · exact .of_err_eq rfl
  | build =>
    obtain ⟨u, hu⟩ := buildWith_frame Config.tieDraw s
    cases (congrArg Host.Outcome.next hu).symm.trans h
    exact .of_err_eq rfl
  | tclr =>
    cases h
    exact .of_err_eq rfl
  | loadc sym len =>
    rcases execLoadc_cases sym len s with ⟨-, e⟩ | ⟨-, -, e⟩ | ⟨-, -, -, root, a, cnt, -, e⟩ <;> cases e.symm.trans h
    · exact .of_raise (e := .seq) rfl rfl
    · exact .of_raise (e := .load) rfl rfl
    · exact .of_err_eq rfl
  | enc sym =>
    by_cases hno : s.clenAt sym = 0
    · cases (exec_enc_of_no_code hno).symm.trans h
      exact .of_raise (e := .noCode) rfl rfl
    · cases (exec_enc_of_code hno).symm.trans h
      exact packBits_raisesOnlyItsOwn rfl _ s
  | putb len val =>
    by_cases hbad : len.toNat = 0 ∨ 16 < len.toNat
    · cases (exec_putb_of_bad_length hbad val s).symm.trans h
      exact .of_raise (e := .illegal) rfl rfl
    · cases (exec_putb_of_length (by omega) (by omega) val s).symm.trans h
      exact packBits_raisesOnlyItsOwn rfl _ s
  | flush =>
    cases (exec_flush s).symm.trans h
    exact .of_err_eq rfl
  | ustart =>
    cases h
    exact .of_err_eq rfl
  | decb byte =>
    rcases execDecb_cases byte s with ⟨-, e⟩ | ⟨-, -, e⟩ | ⟨-, -, u, hwalk, e⟩ | ⟨-, -, -, e⟩ <;> cases e.symm.trans h
    · exact .of_raise (e := .excess) rfl rfl
    · exact .of_raise (e := .noTree) rfl rfl
    · exact decodeBits_raisesOnlyItsOwn (s := unpackAdvance s) hwalk
  | uraw byte =>
    by_cases hdone : s.upLeft = 0
    · cases (exec_uraw_of_complete hdone byte).symm.trans h
      exact .of_raise (e := .excess) rfl rfl
    · cases (exec_uraw_of_left hdone byte).symm.trans h
      exact .of_err_eq rfl
  | dend =>
    cases h
    exact (checkShort_raisesOnlyItsOwn s).trans (checkTrunc_raisesOnlyItsOwn _)

end

/-- Settles O53: a bit that was clear and is set is one of the command's own. -/
theorem errorBitsComeFromTheirCommands : Obligations.ErrorBitsComeFromTheirCommands := by
  unfold Obligations.ErrorBitsComeFromTheirCommands
  intro i s t e h hclear hset
  exact (exec_raisesOnlyItsOwn h e hset).resolve_left (Bool.eq_false_iff.mp hclear)

/-! ### The machine never stops -/

/-- Under the tree invariant the core answers a next state, whatever word is pending (R112, R264). -/
theorem coreStep_next {s : State} (hs : s.TreeInv) : ∃ t, coreStep s = .next t := by
  cases hen : coreEnabled s with
  | false => exact ⟨s, coreStep_of_not_enabled hen⟩
  | true =>
    cases hdec : decode s.pendW with
    | ok i =>
      obtain ⟨t, ht⟩ := exec_next hs i
      exact ⟨retire t, by rw [coreStep_of_enabled hen hdec, ht, retireOutcome]⟩
    | error e => exact ⟨_, by rw [coreStep, if_pos hen, executeWord_of_illegal hdec]⟩

theorem stepTurn_next (turn : Turn) {s : State} (hs : s.TreeInv) : ∃ t, stepTurn turn s = .next t := by
  cases turn with
  | host => exact ⟨hostStep s, rfl⟩
  | core => exact coreStep_next hs
  | reset => exact ⟨assertReset s, rfl⟩

/-- Settles O59, turn by turn: the tree invariant does not speak of the schedule. -/
theorem machineNeverStops : Obligations.MachineNeverStops := by
  unfold Obligations.MachineNeverStops
  intro s hs
  unfold step
  cases s.sched with
  | nil => exact stepTurn_next _ hs
  | cons turn rest => exact stepTurn_next turn (hs.congr ⟨rfl, rfl, rfl, rfl, rfl, rfl, rfl, rfl⟩ rfl)

end Sys2Proof.Machine
end

section
/-! PROOFS. The platform's reset (spec/60_exceptions.md R290): what a reset turn leaves, and the CMD write it accepts at once. -/

namespace Sys2Proof.Machine

/-- A reset turn is taken whatever the core holds, with itself off the schedule (R290, log entry 3). -/
theorem step_of_reset_turn {s : State} {rest : List Turn} (hsched : s.sched = .reset :: rest) :
    step s = .next (assertReset { s with sched := rest }) := by
  rw [step, hsched]
  rfl

/-- Settles O2: the reset turn's state is the reset state beside what the model keeps, and no command is pending in it. -/
theorem resetInputRestoresResetState : Obligations.ResetInputRestoresResetState := by
  unfold Obligations.ResetInputRestoresResetState
  intro s rest v hsched
  obtain ⟨hlatch, -⟩ := cmdWriteLatchesOrOverruns v (assertReset { s with sched := rest })
  exact ⟨_, step_of_reset_turn hsched, rfl, rfl, rfl, hlatch rfl⟩

end Sys2Proof.Machine
end
